-- ==== Sys2Proof/Word.lean ====
section
/-! DEFINITION. The words of JVZ-HDEC: bytes, 32-bit command and register words, 16-bit statuses, 256-bit values,
and bit strings in stream order (00_scope.md R7, R8). -/

namespace Sys2Proof

/-- One byte of a byte stream or byte buffer (20_memory.md R61). -/
abbrev Byte := BitVec 8

/-- A command word, a register value or a byte count (30_encoding.md R91, R95; 10_state.md R31). -/
abbrev Word := BitVec 32

/-- A status: KIND in bits 7..0, SUB in bits 15..8 (60_exceptions.md R280). -/
abbrev Status := BitVec 16

/-- The PACK value bus and the result bus (00_scope.md R6, V_W). -/
abbrev Value := BitVec 256

/-- A bit string: a finite sequence of bits, the first in stream order at the head (00_scope.md R7). -/
abbrev Bits := List Bool

end Sys2Proof
end

