-- ==== Sys2Proof/Config.lean ====
section
/-! DEFINITION. The implementation parameters of 00_scope.md R6, and the one free value of the model. -/

namespace Sys2Proof

/-- DUP_CODE_POLICY: what two header entries with the same code do (00_scope.md R6, 43_decoder.md R206, R212). -/
inductive DupCodePolicy where
  | fault
  | firstWins
  | lastWins
deriving DecidableEq, Repr

/-- The parameters that 00_scope.md R6 lets vary.
LATENCY is not among them: no rule depends on it (70_reset_and_hazards.md R327; log 14). -/
structure Config where
  /-- P_CAP_BITS -/
  pCapBits : Nat
  /-- U_CAP_BYTES -/
  uCapBytes : Nat
  /-- D_CAP_BYTES -/
  dCapBytes : Nat
  /-- DUP_CODE_POLICY -/
  dupCodePolicy : DupCodePolicy
deriving DecidableEq, Repr

/-- The ranges of 00_scope.md R6. -/
abbrev Config.InRange (c : Config) : Prop :=
  (255 ≤ c.pCapBits ∧ c.pCapBits < 2 ^ 32) ∧ (1 ≤ c.uCapBytes ∧ c.uCapBytes < 2 ^ 29) ∧
    (1 ≤ c.dCapBytes ∧ c.dCapBytes < 2 ^ 29)

/-- The defaults of 00_scope.md R6. -/
def Config.default : Config :=
  { pCapBits := 2 ^ 28, uCapBytes := 2 ^ 25, dCapBytes := 2 ^ 25, dupCodePolicy := .fault }

/-- ID_VALUE, the constant of register ID (00_scope.md R6, 10_state.md R31). -/
def Config.idValue : Word := 0x4A5A4801#32

/-- MAX_CODE_LEN in bits (00_scope.md R6). -/
def Config.maxCodeLen : Nat := 255

/-- FREE VALUE. How many of its output bytes a command had placed when a power-on reset cut it off: the spec says only
that bytes already emitted stay (70_reset_and_hazards.md R320, R321). Log 10. -/
opaque Config.bytesOutBeforeReset : Nat → Nat

end Sys2Proof
end

