-- ==== Sys2Proof/Syntax.lean ====
section
/-! DEFINITION. The eleven commands of JVZ-HDEC, one constructor per row of spec/opcode_table.json
(30_encoding.md R92). A command's bus operands (V, N, bytes) travel on ports and stand in State, not here (R95, R97). -/

namespace Sys2Proof

/-- The command set. `w` is the width field W and `reg` the register index REG (30_encoding.md R91, R95); their range
0..255 is `Instr.WellFormed`. -/
inductive Instr where
  /-- 44_control.md R260 -/
  | nop
  /-- 44_control.md R261 -/
  | sreset
  /-- 44_control.md R262 -/
  | rdreg (reg : Nat)
  /-- 41_packer.md R141 -/
  | pack (w : Nat)
  /-- 41_packer.md R143 -/
  | flush
  /-- 42_unpacker.md R170 -/
  | uload
  /-- 42_unpacker.md R172 -/
  | unpack (w : Nat)
  /-- 42_unpacker.md R173 -/
  | isempty
  /-- 43_decoder.md R201 -/
  | dload
  /-- 43_decoder.md R202 -/
  | dstep
  /-- 43_decoder.md R209 -/
  | drun
deriving DecidableEq, Repr

end Sys2Proof
end

