-- ==== Sys2Proof/WellFormed.lean ====
section
/-! DEFINITION. The checks an assembler makes on a command (30_encoding.md R105): width and register index fit their
8-bit fields. The checks on a whole assembly line (V below 2^256, bytes, counts) stand in Machine/Assembler.lean. -/

namespace Sys2Proof

/-- "An assembler refuses a w or reg outside 0..255" (30_encoding.md R105). A reserved register index 0x10..0xFF is
well formed: the block executes the command and raises RESERVED_REG (44_control.md R262). -/
def Instr.WellFormed : Instr → Bool
  | .rdreg reg => decide (reg ≤ 255)
  | .pack w => decide (w ≤ 255)
  | .unpack w => decide (w ≤ 255)
  | .nop => true
  | .sreset => true
  | .flush => true
  | .uload => true
  | .isempty => true
  | .dload => true
  | .dstep => true
  | .drun => true

end Sys2Proof
end

