-- ==== Sys2Proof/Decode.lean ====
section
/-! DEFINITION. From a 32-bit command word to a command, or to the name of what is wrong with it; and the encoder,
written from the same table (30_encoding.md R91 to R94, spec/opcode_table.json). -/

namespace Sys2Proof

/-- The eleven assigned values of OPC (30_encoding.md R92). -/
inductive Opcode where
  | nop | sreset | rdreg | pack | flush | uload | unpack | isempty | dload | dstep | drun
deriving DecidableEq, Repr

/-- Why a command word is no command. -/
inductive Reject where
  /-- OPC is one of the 245 reserved values (30_encoding.md R94). -/
  | reservedOpcode
  /-- OPC is assigned, and a field the command does not use, or RSV, is not zero (30_encoding.md R93). The opcode is
  kept, because it fixes the operands that are consumed all the same (R96). -/
  | nonzeroField (op : Opcode)
deriving DecidableEq, Repr

/-- CMD[31:24] (30_encoding.md R91). -/
def fieldOpc (c : Word) : BitVec 8 := c.extractLsb' 24 8

/-- CMD[23:16] (30_encoding.md R91). -/
def fieldW (c : Word) : BitVec 8 := c.extractLsb' 16 8

/-- CMD[15:8] (30_encoding.md R91). -/
def fieldReg (c : Word) : BitVec 8 := c.extractLsb' 8 8

/-- The opcode map of 30_encoding.md R92; every other value is reserved (R94). -/
def opcodeOf (opc : BitVec 8) : Option Opcode :=
  match opc.toNat with
  | 0x00 => some .nop
  | 0x01 => some .sreset
  | 0x02 => some .rdreg
  | 0x10 => some .pack
  | 0x11 => some .flush
  | 0x20 => some .uload
  | 0x21 => some .unpack
  | 0x22 => some .isempty
  | 0x30 => some .dload
  | 0x31 => some .dstep
  | 0x32 => some .drun
  | _ => none

/-- The mask column of spec/opcode_table.json: every bit but those of the fields the command uses (30_encoding.md R93). -/
def Opcode.mask : Opcode → Word
  | .nop => 0xFFFFFFFF#32
  | .sreset => 0xFFFFFFFF#32
  | .rdreg => 0xFFFF00FF#32
  | .pack => 0xFF00FFFF#32
  | .flush => 0xFFFFFFFF#32
  | .uload => 0xFFFFFFFF#32
  | .unpack => 0xFF00FFFF#32
  | .isempty => 0xFFFFFFFF#32
  | .dload => 0xFFFFFFFF#32
  | .dstep => 0xFFFFFFFF#32
  | .drun => 0xFFFFFFFF#32

/-- The match column of spec/opcode_table.json. -/
def Opcode.pattern : Opcode → Word
  | .nop => 0x00000000#32
  | .sreset => 0x01000000#32
  | .rdreg => 0x02000000#32
  | .pack => 0x10000000#32
  | .flush => 0x11000000#32
  | .uload => 0x20000000#32
  | .unpack => 0x21000000#32
  | .isempty => 0x22000000#32
  | .dload => 0x30000000#32
  | .dstep => 0x31000000#32
  | .drun => 0x32000000#32

/-- The command of an opcode, with its field taken from the word: zero-extended, neither scaled nor offset
(30_encoding.md R95). -/
def Opcode.build (c : Word) : Opcode → Instr
  | .nop => .nop
  | .sreset => .sreset
  | .rdreg => .rdreg (fieldReg c).toNat
  | .pack => .pack (fieldW c).toNat
  | .flush => .flush
  | .uload => .uload
  | .unpack => .unpack (fieldW c).toNat
  | .isempty => .isempty
  | .dload => .dload
  | .dstep => .dstep
  | .drun => .drun

/-- Decoding of a command word: "An opcode matches exactly the words (CMD & mask) = match" (30_encoding.md R93). A
reserved opcode comes before a non-zero field (60_exceptions.md R282). -/
def decode (c : Word) : Except Reject Instr :=
  match opcodeOf (fieldOpc c) with
  | none => .error .reservedOpcode
  | some op => if c &&& op.mask = op.pattern then .ok (op.build c) else .error (.nonzeroField op)

/-- A command word from its four fields (30_encoding.md R91). -/
def word (opc w reg rsv : Nat) : Word :=
  BitVec.ofNat 8 opc ++ BitVec.ofNat 8 w ++ BitVec.ofNat 8 reg ++ BitVec.ofNat 8 rsv

/-- The command word of a command (30_encoding.md R105, the column "command word"). -/
def encode : Instr → Word
  | .nop => word 0x00 0 0 0
  | .sreset => word 0x01 0 0 0
  | .rdreg reg => word 0x02 0 reg 0
  | .pack w => word 0x10 w 0 0
  | .flush => word 0x11 0 0 0
  | .uload => word 0x20 0 0 0
  | .unpack w => word 0x21 w 0 0
  | .isempty => word 0x22 0 0 0
  | .dload => word 0x30 0 0 0
  | .dstep => word 0x31 0 0 0
  | .drun => word 0x32 0 0 0

/-- The 32-bit command word whose low `nbits` bits are those of `w`, every bit above being 0. CMD is a single word on a
32-bit port and has no byte order (30_encoding.md R91), so the table's bit numbers are the word's own. -/
def tableWord (nbits w : Nat) : Word := BitVec.ofNat 32 (w % 2 ^ nbits)

/-- What the decoder reads from the table's bits. -/
def decodeTableWord (nbits w : Nat) : Option Instr :=
  match decode (tableWord nbits w) with
  | .ok i => some i
  | .error _ => none

end Sys2Proof
end

