-- ==== Sys2Proof/Machine/State.lean ====
section
/-! DEFINITION. The state of one JVZ-HDEC instance: the components of 10_state.md R22 by unit, what stands on the ports
of 30_encoding.md R97, the parameters of 00_scope.md R6, and the reasons a step can stop. -/

namespace Sys2Proof.Machine

/-- The subcodes of 60_exceptions.md R280, each naming its kind with it. UNSUPPORTED_INPUT (KIND 0x03) is never raised
(R283) and so has no constructor. -/
inductive Err where
  /-- INVALID_INPUT(VALUE_TOO_WIDE) -/
  | valueTooWide
  /-- EXHAUSTED_INPUT(UNPACK_SHORT) -/
  | unpackShort
  /-- MALFORMED_INPUT(HDR_TRUNC) -/
  | hdrTrunc
  /-- MALFORMED_INPUT(ZERO_LEN) -/
  | zeroLen
  /-- MALFORMED_INPUT(DUP_CODE) -/
  | dupCode
  /-- MALFORMED_INPUT(PAYLOAD_EXHAUSTED) -/
  | payloadExhausted
  /-- MALFORMED_INPUT(NO_MATCH) -/
  | noMatch
  /-- ILLEGAL_COMMAND(RESERVED_OPCODE) -/
  | reservedOpcode
  /-- ILLEGAL_COMMAND(NONZERO_FIELD) -/
  | nonzeroField
  /-- ILLEGAL_COMMAND(RESERVED_REG) -/
  | reservedReg
  /-- ILLEGAL_COMMAND(BAD_STATE) -/
  | badState
  /-- CAPACITY(PACK_FULL) -/
  | packFull
  /-- CAPACITY(ULOAD_TOO_BIG) -/
  | uloadTooBig
  /-- CAPACITY(DLOAD_TOO_BIG) -/
  | dloadTooBig
deriving DecidableEq, Repr

/-- The readable registers of 10_state.md R31, index 0x00 to 0x0F in this order. -/
inductive Reg where
  | id | status | pLen | uLen | uPos | dStat | dNsym | dEntry
  | dTotal | dEmit | dLen | dPos | dScrlen | pCap | uCap | dCap
deriving DecidableEq, Repr

/-- D_STATE, the decoder's phase (10_state.md R26). -/
inductive Phase where
  | idle | hdrCount | hdrSym | hdrLen | hdrCode | total | payload | done | error
deriving DecidableEq, Repr

/-- One entry of D_TABLE (10_state.md R29): the code is `bitsOf len val`. The ranges 1 ≤ len ≤ 255 and val < 2^len are
an invariant (Safety.lean, log 17). -/
structure Entry where
  sym : Byte
  len : Nat
  val : Nat
deriving DecidableEq, Repr

/-- The packer P (10_state.md R24). -/
structure Packer where
  /-- P_BITS -/
  bits : Bits
deriving DecidableEq, Repr

/-- The unpacker U (10_state.md R25). -/
structure Unpacker where
  /-- U_BUF -/
  buf : List Byte
  /-- U_POS, a bit address -/
  pos : Nat
deriving DecidableEq, Repr

/-- The decoder D (10_state.md R26 to R30). -/
structure Decoder where
  /-- D_STATE -/
  state : Phase
  /-- D_BUF -/
  buf : List Byte
  /-- D_POS, a bit address -/
  pos : Nat
  /-- D_NSYM -/
  nsym : Nat
  /-- D_ENTRY -/
  entry : Nat
  /-- D_CURSYM -/
  cursym : Byte
  /-- D_CURLEN -/
  curlen : Byte
  /-- D_TABLE -/
  table : List Entry
  /-- D_TOTAL -/
  total : Word
  /-- D_EMIT -/
  emit : Word
  /-- D_SCR -/
  scr : Bits
  /-- D_OUT -/
  out : List Byte
  /-- D_ERRK -/
  errk : Byte
  /-- D_ERRS -/
  errs : Byte
deriving DecidableEq, Repr

/-- One response of the block on ports ST and R (30_encoding.md R90, R98). -/
structure Response where
  st : Status
  r : Value
deriving DecidableEq, Repr

/-- One command transaction as the host presents it: the word, and what it puts on the operand ports with it
(30_encoding.md R90, R96). Nothing here says that these are the operands the opcode requires: that is an obligation of
the host (70_reset_and_hazards.md R324), and a transaction that breaks it has no step. -/
structure Transaction where
  /-- CMD -/
  cmd : Word
  /-- on V -/
  v : List Value
  /-- on N -/
  n : List Word
  /-- on U_DIN -/
  uDin : List Byte
  /-- on D_DIN -/
  dDin : List Byte
deriving DecidableEq, Repr

/-- What the host does at the command port, in order (70_reset_and_hazards.md R329). -/
inductive HostAction where
  /-- Issue a command, and wait for its response (30_encoding.md R90, R96). -/
  | command (t : Transaction)
  /-- Issue a command, and present the next command word before the response to the first: obligation 2 of
  70_reset_and_hazards.md R324 broken. -/
  | commandBeforeResponse (t : Transaction) (next : Word)
  /-- The platform asserts power-on reset while no command is in progress (70_reset_and_hazards.md R320). -/
  | powerOnReset
  /-- The host issues a command, and power-on reset arrives during that transaction (70_reset_and_hazards.md R321). `t`
  holds the operands presented until then. -/
  | commandCutByReset (t : Transaction)
deriving DecidableEq, Repr

/-- What stands on the ports of 30_encoding.md R97. The command port holds the host's actions to come, the next one
first; an operand port holds what the host has presented with the command at hand, and is empty between commands; an
output port holds what the block has placed on it, the oldest first (log 1, 3, 4, 5). -/
structure Ports where
  /-- CMD -/
  cmd : List HostAction
  /-- V, the value of a PACK -/
  v : List Value
  /-- N, the count of a ULOAD or DLOAD -/
  n : List Word
  /-- U_DIN -/
  uDin : List Byte
  /-- D_DIN -/
  dDin : List Byte
  /-- the host accepts bytes on P_DOUT (70_reset_and_hazards.md R324, obligation 3) -/
  pReady : Bool
  /-- the host accepts bytes on D_DOUT (70_reset_and_hazards.md R324, obligation 3) -/
  dReady : Bool
  /-- P_DOUT -/
  pDout : List Byte
  /-- D_DOUT -/
  dDout : List Byte
  /-- ST and R -/
  resp : List Response
deriving DecidableEq, Repr

/-- The machine: the state vector of 10_state.md R22, its parameters and its ports. -/
structure State where
  /-- the parameters of 00_scope.md R6; no command changes them (10_state.md R22) -/
  cfg : Config
  /-- STATUS (10_state.md R23) -/
  status : Status
  /-- unit P -/
  p : Packer
  /-- unit U -/
  u : Unpacker
  /-- unit D -/
  d : Decoder
  /-- the ports -/
  io : Ports
  /-- the MODEL's own field: how many free values have been drawn (log 10, 11) -/
  free : Nat
deriving DecidableEq, Repr

/-- Why a run has no step: the host broke an obligation of 70_reset_and_hazards.md R324 ("the block waits, and the
command does not complete"; 93_implementation_defined.md I8: stuck). Every constructor is SAFE: the model stops where
the spec gives no behaviour. -/
inductive Fault where
  /-- Raised by every command: the host has presented more than the opcode requires (obligation 1). -/
  | surplusOperands
  /-- Raised by every command: the host has presented the next command before the response (obligation 2). -/
  | commandBeforeResponse
  /-- Raised by PACK: no value stands on V (obligation 1, as the next three). -/
  | vNotPresented
  /-- Raised by ULOAD and DLOAD: no count stands on N. -/
  | nNotPresented
  /-- Raised by ULOAD: fewer than N bytes stand on U_DIN. -/
  | uDinShort
  /-- Raised by DLOAD: fewer than N bytes stand on D_DIN. -/
  | dDinShort
  /-- Raised by FLUSH: it has bytes to emit and P_DOUT is not drained (obligation 3, as the next). -/
  | pDoutNotDrained
  /-- Raised by DSTEP and DRUN: they have a symbol to emit and D_DOUT is not drained. -/
  | dDoutNotDrained
deriving DecidableEq, Repr

/-- Why the model has no meaning for an instruction. -/
inductive Refusal where
  /-- Raised by exec for an instruction without a meaning; SAFE. No arm of this model raises it. -/
  | notModelled (mnemonic : String)
deriving DecidableEq, Repr

/-- The outcome of one command or step. -/
abbrev Out := Host.Outcome State Fault Refusal

/-- The packer after reset (10_state.md R35). -/
def Packer.reset : Packer := { bits := [] }

/-- The unpacker after reset: as one constructed from an empty byte sequence (10_state.md R25, R35). -/
def Unpacker.reset : Unpacker := { buf := [], pos := 0 }

/-- The decoder after reset (10_state.md R35). -/
def Decoder.reset : Decoder :=
  { state := .idle, buf := [], pos := 0, nsym := 0, entry := 0, cursym := 0#8, curlen := 0#8, table := [],
    total := 0#32, emit := 0#32, scr := [], out := [], errk := 0#8, errs := 0#8 }

/-- The ports before anything has passed over them; the host drains both output ports. DESIGN CHOICE (log 1, 3, 4, 5). -/
def Ports.reset : Ports :=
  { cmd := [], v := [], n := [], uDin := [], dDin := [], pReady := true, dReady := true,
    pDout := [], dDout := [], resp := [] }

/-- The machine after power-on reset with the parameters `c` (10_state.md R35, 70_reset_and_hazards.md R320). -/
def State.resetWith (c : Config) : State :=
  { cfg := c, status := 0x0000#16, p := .reset, u := .reset, d := .reset, io := .reset, free := 0 }

/-- The machine after power-on reset with the default parameters of 00_scope.md R6 (log 6). -/
def State.reset : State := State.resetWith Config.default

end Sys2Proof.Machine
end

