-- ==== Sys2Proof/Machine/Flags.lean ====
section
/-! DEFINITION. JVZ-HDEC has no condition codes (10_state.md R32). What reports a condition is the status code of a
command; this file holds the codes of 60_exceptions.md R280, and the two encodings that registers show (10_state.md R26, R31). -/

namespace Sys2Proof.Machine

/-- KIND of an error (60_exceptions.md R280). -/
def errKind : Err → Byte
  | .valueTooWide => 0x01#8
  | .unpackShort => 0x02#8
  | .hdrTrunc => 0x04#8
  | .zeroLen => 0x04#8
  | .dupCode => 0x04#8
  | .payloadExhausted => 0x04#8
  | .noMatch => 0x04#8
  | .reservedOpcode => 0x05#8
  | .nonzeroField => 0x05#8
  | .reservedReg => 0x05#8
  | .badState => 0x05#8
  | .packFull => 0x06#8
  | .uloadTooBig => 0x06#8
  | .dloadTooBig => 0x06#8

/-- SUB of an error (60_exceptions.md R280). -/
def errSub : Err → Byte
  | .valueTooWide => 0x01#8
  | .unpackShort => 0x01#8
  | .hdrTrunc => 0x01#8
  | .zeroLen => 0x02#8
  | .dupCode => 0x03#8
  | .payloadExhausted => 0x04#8
  | .noMatch => 0x05#8
  | .reservedOpcode => 0x01#8
  | .nonzeroField => 0x02#8
  | .reservedReg => 0x03#8
  | .badState => 0x04#8
  | .packFull => 0x01#8
  | .uloadTooBig => 0x02#8
  | .dloadTooBig => 0x03#8

/-- The status OK (60_exceptions.md R280). -/
def statusOk : Status := 0x0000#16

/-- "The 16-bit value of a status is SUB·256 + KIND" (60_exceptions.md R280). -/
def statusOf (e : Err) : Status := errSub e ++ errKind e

/-- The code of D_STATE shown in D_STAT[3:0] (10_state.md R26). -/
def phaseCode : Phase → BitVec 4
  | .idle => 0#4
  | .hdrCount => 1#4
  | .hdrSym => 2#4
  | .hdrLen => 3#4
  | .hdrCode => 4#4
  | .total => 5#4
  | .payload => 6#4
  | .done => 7#4
  | .error => 8#4

/-- The phases in which no step can be made: DSTEP and DRUN raise BAD_STATE (43_decoder.md R202, R209). -/
def phaseAtRest : Phase → Bool
  | .idle => true
  | .hdrCount => false
  | .hdrSym => false
  | .hdrLen => false
  | .hdrCode => false
  | .total => false
  | .payload => false
  | .done => true
  | .error => true

end Sys2Proof.Machine
end

