-- ==== Sys2Proof/Machine/Ops.lean ====
section
/-! DEFINITION. The shared operations: bit strings and byte buffers (00_scope.md R7, 20_memory.md R61 to R63), the
response of a command, raising an error (60_exceptions.md R284, R285), emitting bytes (20_memory.md R71), and reset. -/

namespace Sys2Proof.Machine

/-! ## Bit strings -/

/-- val(s): the unsigned value of a bit string, most significant bit first (00_scope.md R7). -/
def bitsVal : Bits → Nat
  | [] => 0
  | b :: s => b.toNat * 2 ^ s.length + bitsVal s

/-- bits_w(v): the w-bit string whose value is v, for v < 2^w (00_scope.md R7). -/
def bitsOf : Nat → Nat → Bits
  | 0, _ => []
  | w + 1, v => v.testBit w :: bitsOf w v

/-- The pad of a length: the number of zero bits to the next multiple of 8, 0 to 7 (20_memory.md R66, 41_packer.md R143). -/
def padLen (len : Nat) : Nat := (8 - len % 8) % 8

/-- A bit string padded with zero bits to a whole number of bytes (41_packer.md R143). -/
def padBits (s : Bits) : Bits := s ++ List.replicate (padLen s.length) false

/-- BytesOf(t): byte k is val(t[8k..8k+8)), for |t| a multiple of 8 (20_memory.md R63). -/
def bytesOf (t : Bits) : List Byte :=
  (List.range (t.length / 8)).map fun k => BitVec.ofNat 8 (bitsVal ((t.drop (8 * k)).take 8))

/-! ## Byte buffers -/

/-- MemRead(addr, k): k bytes of a byte buffer from a byte address (20_memory.md R61). -/
def memRead (buf : List Byte) (addr k : Nat) : List Byte := (buf.drop addr).take k

/-- BitAt(buf, a): bit 7 - (a mod 8) of byte a div 8 (20_memory.md R62). It is used only with a < 8·|buf|; beyond, the
value below stands for nothing and no meaning reads it (log 15). -/
def bitAt (buf : List Byte) (a : Nat) : Bool :=
  ((memRead buf (a / 8) 1).headD 0#8).getLsbD (7 - a % 8)

/-- ReadBits(buf, pos, w): w bits from bit address pos, the first read at the head (20_memory.md R62). -/
def readBits (buf : List Byte) (pos : Nat) : Nat → Bits
  | 0 => []
  | w + 1 => bitAt buf pos :: readBits buf (pos + 1) w

/-! ## Updates of one component -/

/-- The command port after its head has been taken. -/
def State.setCmd (q : List HostAction) (s : State) : State := { s with io := { s.io with cmd := q } }

/-- What stands on V. -/
def State.setV (q : List Value) (s : State) : State := { s with io := { s.io with v := q } }

/-- What stands on N. -/
def State.setN (q : List Word) (s : State) : State := { s with io := { s.io with n := q } }

/-- What stands on U_DIN. -/
def State.setUDin (q : List Byte) (s : State) : State := { s with io := { s.io with uDin := q } }

/-- What stands on D_DIN. -/
def State.setDDin (q : List Byte) (s : State) : State := { s with io := { s.io with dDin := q } }

/-- `P_BITS <- bits` (00_scope.md R9). -/
def State.setPBits (bits : Bits) (s : State) : State := { s with p := { bits := bits } }

/-- `U_POS <- pos` (00_scope.md R9). -/
def State.setUPos (pos : Nat) (s : State) : State := { s with u := { s.u with pos := pos } }

/-- The whole unit U. -/
def State.setU (u : Unpacker) (s : State) : State := { s with u := u }

/-- The whole unit D. -/
def State.setD (d : Decoder) (s : State) : State := { s with d := d }

/-- emit_P: bytes placed on P_DOUT after those already there (20_memory.md R71). -/
def State.putP (bytes : List Byte) (s : State) : State := { s with io := { s.io with pDout := s.io.pDout ++ bytes } }

/-- emit_D: bytes placed on D_DOUT after those already there (20_memory.md R71). -/
def State.putD (bytes : List Byte) (s : State) : State := { s with io := { s.io with dDout := s.io.dDout ++ bytes } }

/-- The operands of a transaction stand on the ports, behind what stood there (20_memory.md R71). -/
def State.present (t : Transaction) (s : State) : State :=
  { s with io := { s.io with
      v := s.io.v ++ t.v
      n := s.io.n ++ t.n
      uDin := s.io.uDin ++ t.uDin
      dDin := s.io.dDin ++ t.dDin } }

/-- The end of a command: STATUS is written and the response given, with ST equal to it (60_exceptions.md R284,
30_encoding.md R98). -/
def State.respond (st : Status) (r : Value) (s : State) : State :=
  { s with status := st, io := { s.io with resp := s.io.resp ++ [⟨st, r⟩] } }

/-! ## Ending a command -/

/-- A command that completed: status OK and result r (30_encoding.md R98, 60_exceptions.md R284). -/
def succeed (r : Value) (s : State) : Out := .next (s.respond statusOk r)

/-- TAKING AN ERROR. `raise` ends the command: STATUS and ST get the code, R = 0, and nothing else changes
(60_exceptions.md R284, R285; 30_encoding.md R98). There is no vector, no saved point and no return (R285, R286): the
next command runs normally. A decoder failure has entered ERROR before it comes here (43_decoder.md R200). -/
def raise (e : Err) (s : State) : Out := .next (s.respond (statusOf e) 0#256)

/-! ## Emitting bytes -/

/-- Place bytes on P_DOUT and go on; stuck if there are bytes and the host does not accept them
(70_reset_and_hazards.md R324, obligation 3). -/
def emitP (bytes : List Byte) (s : State) (k : State → Out) : Out :=
  if bytes ≠ [] ∧ s.io.pReady = false then .fault .pDoutNotDrained else k (s.putP bytes)

/-- Place bytes on D_DOUT and go on; stuck if there are bytes and the host does not accept them
(70_reset_and_hazards.md R324, obligation 3). -/
def emitD (bytes : List Byte) (s : State) (k : State → Out) : Out :=
  if bytes ≠ [] ∧ s.io.dReady = false then .fault .dDoutNotDrained else k (s.putD bytes)

/-! ## Reset -/

/-- Every component of 10_state.md R22 at its value in R35: what SRESET and power-on reset do. The parameters and the
bytes already emitted are unchanged (44_control.md R261, 70_reset_and_hazards.md R320). -/
def State.resetUnits (s : State) : State :=
  { s with status := 0x0000#16, p := .reset, u := .reset, d := .reset }

/-- Power-on reset: the reset state, and no response (70_reset_and_hazards.md R320, R321). -/
def State.powerOnReset (s : State) : State := s.resetUnits

/-- The bytes that a command puts on an output port if it completes: what stands on the port after it and did not before. -/
def newBytes (port : Ports → List Byte) (o : Out) (s : State) : List Byte :=
  match o with
  | .next t => (port t.io).drop (port s.io).length
  | .fault _ => []
  | .refused _ => []

/-- A command cut off by power-on reset (70_reset_and_hazards.md R321): no response, the reset state, and the first bytes
it had emitted left on the output ports (R320), how many being a free value (log 10). `o` is what the command would have
done, uncut; `s` is the state before its operands were presented, so that none of them is left. -/
def State.cutByReset (o : Out) (s : State) : State :=
  { (((s.putP ((newBytes Ports.pDout o s).take (Config.bytesOutBeforeReset s.free))).putD
      ((newBytes Ports.dDout o s).take (Config.bytesOutBeforeReset s.free))).resetUnits) with free := s.free + 1 }

end Sys2Proof.Machine
end

