-- ==== Sys2Proof/Machine/Operands.lean ====
section
/-! DEFINITION. The operands of a command (30_encoding.md R95, R96): taking V, N and the byte streams from their ports,
what a command with a bad field still consumes, when the host has presented too much, the register map (10_state.md R31),
and the transactions a host issues. -/

namespace Sys2Proof.Machine

/-! ## Bus operands -/

/-- Take the value that stands on V; stuck if the host has presented none (30_encoding.md R95, R96;
70_reset_and_hazards.md R324, obligation 1). -/
def takeV (s : State) (k : Value → State → Out) : Out :=
  match s.io.v with
  | [] => .fault .vNotPresented
  | v :: q => k v (s.setV q)

/-- Take the count that stands on N; stuck if the host has presented none (30_encoding.md R95, R96). -/
def takeN (s : State) (k : Word → State → Out) : Out :=
  match s.io.n with
  | [] => .fault .nNotPresented
  | n :: q => k n (s.setN q)

/-- Take the next n bytes on U_DIN, in order; stuck if fewer stand there (30_encoding.md R95, 20_memory.md R71). -/
def takeUDin (n : Nat) (s : State) (k : List Byte → State → Out) : Out :=
  if s.io.uDin.length < n then .fault .uDinShort else k (s.io.uDin.take n) (s.setUDin (s.io.uDin.drop n))

/-- Take the next n bytes on D_DIN, in order; stuck if fewer stand there (30_encoding.md R95, 20_memory.md R71). -/
def takeDDin (n : Nat) (s : State) (k : List Byte → State → Out) : Out :=
  if s.io.dDin.length < n then .fault .dDinShort else k (s.io.dDin.take n) (s.setDDin (s.io.dDin.drop n))

/-- Consume the operands that an opcode requires and go on: "The block consumes all of them even if the command then
fails" (30_encoding.md R96). -/
def consumeOperands (op : Opcode) (s : State) (k : State → Out) : Out :=
  match op with
  | .pack => takeV s fun _ s1 => k s1
  | .uload => takeN s fun n s1 => takeUDin n.toNat s1 fun _ s2 => k s2
  | .dload => takeN s fun n s1 => takeDDin n.toNat s1 fun _ s2 => k s2
  | .nop => k s
  | .sreset => k s
  | .rdreg => k s
  | .flush => k s
  | .unpack => k s
  | .isempty => k s
  | .dstep => k s
  | .drun => k s

/-- What an opcode requires taken off the operand ports, as far as it stands there; a reserved opcode requires nothing
(30_encoding.md R94, R96). -/
def dropOperands (cmd : Word) (s : State) : State :=
  match opcodeOf (fieldOpc cmd) with
  | some .pack => s.setV (s.io.v.drop 1)
  | some .uload => (s.setUDin (s.io.uDin.drop (s.io.n.headD 0#32).toNat)).setN (s.io.n.drop 1)
  | some .dload => (s.setDDin (s.io.dDin.drop (s.io.n.headD 0#32).toNat)).setN (s.io.n.drop 1)
  | _ => s

/-- Nothing stands on the operand ports: so it is between commands (30_encoding.md R96). -/
abbrev State.PortsClear (s : State) : Prop := s.io.v = [] ∧ s.io.n = [] ∧ s.io.uDin = [] ∧ s.io.dDin = []

/-- More stands on the operand ports than the opcode requires: the host has not presented "exactly the operands the
opcode requires" (70_reset_and_hazards.md R324, obligation 1). -/
def surplusOperands (cmd : Word) (s : State) : Bool := !decide (dropOperands cmd s).PortsClear

/-- A command word that is no command completes with ILLEGAL_COMMAND (30_encoding.md R93, R94): a reserved opcode
consumes no operand, an assigned one consumes its own (R96). -/
def rejectWord (e : Reject) (s : State) : Out :=
  match e with
  | .reservedOpcode => raise .reservedOpcode s
  | .nonzeroField op => consumeOperands op s fun s1 => raise .nonzeroField s1

/-! ## The register map -/

/-- The register of an index; none for the reserved indices 0x10 to 0xFF (10_state.md R31). -/
def regOfIndex : Nat → Option Reg
  | 0x00 => some .id
  | 0x01 => some .status
  | 0x02 => some .pLen
  | 0x03 => some .uLen
  | 0x04 => some .uPos
  | 0x05 => some .dStat
  | 0x06 => some .dNsym
  | 0x07 => some .dEntry
  | 0x08 => some .dTotal
  | 0x09 => some .dEmit
  | 0x0A => some .dLen
  | 0x0B => some .dPos
  | 0x0C => some .dScrlen
  | 0x0D => some .pCap
  | 0x0E => some .uCap
  | 0x0F => some .dCap
  | _ => none

/-- D_STAT: STATE in [3:0], ERRK in [15:8], ERRS in [23:16], zeros elsewhere (10_state.md R31). -/
def dStatWord (d : Decoder) : Word := 0#8 ++ d.errs ++ d.errk ++ 0#4 ++ phaseCode d.state

/-- The value of a register, a function of the state (10_state.md R31). -/
def readReg (s : State) : Reg → Word
  | .id => Config.idValue
  | .status => s.status.setWidth 32
  | .pLen => BitVec.ofNat 32 s.p.bits.length
  | .uLen => BitVec.ofNat 32 (8 * s.u.buf.length)
  | .uPos => BitVec.ofNat 32 s.u.pos
  | .dStat => dStatWord s.d
  | .dNsym => BitVec.ofNat 32 s.d.nsym
  | .dEntry => BitVec.ofNat 32 s.d.entry
  | .dTotal => s.d.total
  | .dEmit => s.d.emit
  | .dLen => BitVec.ofNat 32 (8 * s.d.buf.length)
  | .dPos => BitVec.ofNat 32 s.d.pos
  | .dScrlen => BitVec.ofNat 32 s.d.scr.length
  | .pCap => BitVec.ofNat 32 s.cfg.pCapBits
  | .uCap => BitVec.ofNat 32 s.cfg.uCapBytes
  | .dCap => BitVec.ofNat 32 s.cfg.dCapBytes

/-! ## Transactions -/

/-- A command with no bus operand. -/
def plainTransaction (i : Instr) : Transaction := { cmd := encode i, v := [], n := [], uDin := [], dDin := [] }

/-- PACK with its value (30_encoding.md R96). -/
def packTransaction (w : Nat) (v : Value) : Transaction := { plainTransaction (.pack w) with v := [v] }

/-- ULOAD with its count and its bytes (30_encoding.md R96). -/
def uloadTransaction (bytes : List Byte) : Transaction :=
  { plainTransaction .uload with n := [BitVec.ofNat 32 bytes.length], uDin := bytes }

/-- DLOAD with its count and its bytes (30_encoding.md R96). -/
def dloadTransaction (bytes : List Byte) : Transaction :=
  { plainTransaction .dload with n := [BitVec.ofNat 32 bytes.length], dDin := bytes }

/-- A command word with operands of zero bits where its opcode requires operands: V = 0, or N = 0 and so no bytes
(30_encoding.md R96; log 16). -/
def zeroTransaction (cmd : Word) : Transaction :=
  match opcodeOf (fieldOpc cmd) with
  | some .pack => { cmd := cmd, v := [0#256], n := [], uDin := [], dDin := [] }
  | some .uload => { cmd := cmd, v := [], n := [0#32], uDin := [], dDin := [] }
  | some .dload => { cmd := cmd, v := [], n := [0#32], uDin := [], dDin := [] }
  | _ => { cmd := cmd, v := [], n := [], uDin := [], dDin := [] }

/-- The host issues a transaction after the actions it has to do before (20_memory.md R70). -/
def State.issue (t : Transaction) (s : State) : State := s.setCmd (s.io.cmd ++ [.command t])

/-- The host issues the transactions of a program, one after the other. -/
def State.issueAll (ts : List Transaction) (s : State) : State := ts.foldl (fun s1 t => s1.issue t) s

/-- The host issues a transaction before everything else, and nothing else stands on the operand ports. -/
def State.issueFirst (t : Transaction) (s : State) : State :=
  { s with io := { s.io with cmd := .command t :: s.io.cmd, v := [], n := [], uDin := [], dDin := [] } }

end Sys2Proof.Machine
end

