-- ==== Sys2Proof/Machine/Control.lean ====
section
/-! DEFINITION. Block control: NOP, SRESET, RDREG (44_control.md). The NONZERO_FIELD check of each command is made by the
decoder and completed by `rejectWord` (log 7). -/

namespace Sys2Proof.Machine

/-- NOP: nothing but STATUS <- OK (44_control.md R260). -/
def execNop (s : State) : Out := succeed 0#256 s

/-- SRESET: every component to its reset value, then STATUS <- OK (44_control.md R261). -/
def execSreset (s : State) : Out := succeed 0#256 s.resetUnits

/-- RDREG: the value of a register, from the state before this command; RESERVED_REG for an index of 0x10 or more
(44_control.md R262, R263). -/
def execRdreg (reg : Nat) (s : State) : Out :=
  match regOfIndex reg with
  | none => raise .reservedReg s
  | some x => succeed ((readReg s x).setWidth 256) s

end Sys2Proof.Machine
end

