-- ==== Sys2Proof/Machine/Decoder.lean ====
section
/-! DEFINITION. The Huffman bit-stream decoder: its reads, the lookup, the six steps, and DLOAD, DSTEP, DRUN
(43_decoder.md). -/

namespace Sys2Proof.Machine

/-! ## Primitives -/

/-- What decoder steps do: the decoder after them, the symbols emitted, and the error that ended them, if any. -/
structure StepOut where
  d : Decoder
  emitted : List Byte
  err : Option Err
deriving DecidableEq, Repr

/-- DRead(w): the next w bits of the blob as a number, and the decoder with D_POS advanced; none, with D_POS unchanged,
if fewer remain (43_decoder.md R200). -/
def dRead (w : Nat) (d : Decoder) : Option (Nat × Decoder) :=
  if 8 * d.buf.length - d.pos < w then none
  else some (bitsVal (readBits d.buf d.pos w), { d with pos := d.pos + w })

/-- DFail(sub): enter ERROR and record the code; what the step wrote before stays (43_decoder.md R200). -/
def dFail (e : Err) (d : Decoder) : StepOut :=
  { d := { d with state := .error, errk := errKind e, errs := errSub e }, emitted := [], err := some e }

/-- A step that neither emitted nor failed. -/
def dGoOn (d : Decoder) : StepOut := { d := d, emitted := [], err := none }

/-- An entry's code is the bit string s: length and value are both compared (43_decoder.md R212). -/
def entryMatches (s : Bits) (e : Entry) : Bool := e.len == s.length && e.val == bitsVal s

/-- Lookup(s): the symbol of the first entry whose code is s, of the last one under last_wins (43_decoder.md R212). -/
def lookup (policy : DupCodePolicy) (table : List Entry) (s : Bits) : Option Byte :=
  let m := table.filter (entryMatches s)
  match policy with
  | .lastWins => m.getLast?.map Entry.sym
  | .fault => m.head?.map Entry.sym
  | .firstWins => m.head?.map Entry.sym

/-! ## The steps -/

/-- HDR_COUNT: read symbol_count_minus_1 (43_decoder.md R203). -/
def stepHdrCount (d : Decoder) : StepOut :=
  match dRead 8 d with
  | none => dFail .hdrTrunc d
  | some (c, d1) => dGoOn { d1 with nsym := c + 1, entry := 0, table := [], state := .hdrSym }

/-- HDR_SYM: read the symbol of an entry (43_decoder.md R204). -/
def stepHdrSym (d : Decoder) : StepOut :=
  match dRead 8 d with
  | none => dFail .hdrTrunc d
  | some (x, d1) => dGoOn { d1 with cursym := BitVec.ofNat 8 x, state := .hdrLen }

/-- HDR_LEN: read code_length; 0 fails with ZERO_LEN, D_POS being past the field (43_decoder.md R205). -/
def stepHdrLen (d : Decoder) : StepOut :=
  match dRead 8 d with
  | none => dFail .hdrTrunc d
  | some (len, d1) =>
    if len = 0 then dFail .zeroLen d1 else dGoOn { d1 with curlen := BitVec.ofNat 8 len, state := .hdrCode }

/-- HDR_CODE: read code_value and add the entry; a duplicate code fails with DUP_CODE under the policy fault, D_POS
being past the field (43_decoder.md R206). -/
def stepHdrCode (policy : DupCodePolicy) (d : Decoder) : StepOut :=
  let len := d.curlen.toNat
  match dRead len d with
  | none => dFail .hdrTrunc d
  | some (v, d1) =>
    if policy = .fault ∧ d1.table.any (fun e => e.len == len && e.val == v) = true then dFail .dupCode d1
    else dGoOn
      { d1 with
        table := d1.table ++ [{ sym := d1.cursym, len := len, val := v }]
        entry := d1.entry + 1
        state := if d1.entry + 1 = d1.nsym then .total else .hdrSym }

/-- TOTAL: read total_symbols; 0 ends the decode at once (43_decoder.md R207). -/
def stepTotal (d : Decoder) : StepOut :=
  match dRead 32 d with
  | none => dFail .hdrTrunc d
  | some (t, d1) =>
    dGoOn { d1 with total := BitVec.ofNat 32 t, emit := 0#32, scr := [], state := if t = 0 then .done else .payload }

/-- The decoder after emitting a symbol: D_OUT, D_EMIT, D_SCR and, at the declared count, DONE (43_decoder.md R208). -/
def emitSym (x : Byte) (d : Decoder) : Decoder :=
  { d with
    out := d.out ++ [x]
    emit := d.emit + 1#32
    scr := []
    state := if d.emit + 1#32 = d.total then .done else d.state }

/-- PAYLOAD: read one bit, extend the scratch string, look it up; emit on a match, fail with NO_MATCH when more than
255 bits match nothing (43_decoder.md R208). -/
def stepPayload (policy : DupCodePolicy) (d : Decoder) : StepOut :=
  match dRead 1 d with
  | none => dFail .payloadExhausted d
  | some (b, d1) =>
    let scr := d1.scr ++ bitsOf 1 b
    match lookup policy d1.table scr with
    | some x => { d := emitSym x { d1 with scr := scr }, emitted := [x], err := none }
    | none =>
      if Config.maxCodeLen < scr.length then dFail .noMatch { d1 with scr := scr } else dGoOn { d1 with scr := scr }

/-- Step(): the step of the phase (43_decoder.md R202). It is never called in IDLE, DONE or ERROR, where there is no
step: DSTEP and DRUN raise BAD_STATE first. -/
def decoderStep (policy : DupCodePolicy) (d : Decoder) : StepOut :=
  match d.state with
  | .hdrCount => stepHdrCount d
  | .hdrSym => stepHdrSym d
  | .hdrLen => stepHdrLen d
  | .hdrCode => stepHdrCode policy d
  | .total => stepTotal d
  | .payload => stepPayload policy d
  | .idle => dGoOn d
  | .done => dGoOn d
  | .error => dGoOn d

/-- The loop of DRUN (43_decoder.md R209) with a bound on its steps: step until DONE or ERROR. -/
def decoderRun (policy : DupCodePolicy) : Nat → Decoder → StepOut
  | 0, d => dGoOn d
  | k + 1, d =>
    if phaseAtRest d.state then dGoOn d
    else
      let o := decoderStep policy d
      match o.err with
      | some _ => o
      | none =>
        let o' := decoderRun policy k o.d
        { d := o'.d, emitted := o.emitted ++ o'.emitted, err := o'.err }

/-- "A run ... performs at most 770 + 8·|D_BUF| steps" (43_decoder.md R210): the bound never cuts a run short (log 9). -/
def runBound (d : Decoder) : Nat := 770 + 8 * d.buf.length

/-- The end of DSTEP and DRUN: the decoder written, its symbols placed on D_DOUT, then the result or the error. -/
def finishDecode (o : StepOut) (r : Value) (s : State) : Out :=
  emitD o.emitted (s.setD o.d) fun s1 =>
    match o.err with
    | none => succeed r s1
    | some e => raise e s1

/-! ## The commands -/

/-- The decoder at the start of a decode: the blob, HDR_COUNT, and everything else empty or zero (43_decoder.md R201). -/
def freshDecoder (blob : List Byte) : Decoder :=
  { state := .hdrCount, buf := blob, pos := 0, nsym := 0, entry := 0, cursym := 0#8, curlen := 0#8, table := [],
    total := 0#32, emit := 0#32, scr := [], out := [], errk := 0#8, errs := 0#8 }

/-- DLOAD: load a blob and start a fresh decode; on DLOAD_TOO_BIG the decoder is unchanged (43_decoder.md R201). -/
def execDload (s : State) : Out :=
  takeN s fun n s1 => takeDDin n.toNat s1 fun bytes s2 =>
    if s2.cfg.dCapBytes < n.toNat then raise .dloadTooBig s2
    else succeed 0#256 (s2.setD (freshDecoder bytes))

/-- DSTEP: one decoder step; BAD_STATE in IDLE, DONE and ERROR (43_decoder.md R202). -/
def execDstep (s : State) : Out :=
  if phaseAtRest s.d.state then raise .badState s
  else finishDecode (decoderStep s.cfg.dupCodePolicy s.d) 0#256 s

/-- DRUN: steps until DONE or ERROR; R is D_EMIT; BAD_STATE in IDLE, DONE and ERROR (43_decoder.md R209). -/
def execDrun (s : State) : Out :=
  if phaseAtRest s.d.state then raise .badState s
  else
    let o := decoderRun s.cfg.dupCodePolicy (runBound s.d) s.d
    finishDecode o (o.d.emit.setWidth 256) s

end Sys2Proof.Machine
end

