-- ==== Sys2Proof/Machine/Packer.lean ====
section
/-! DEFINITION. The packer: PACK and FLUSH (41_packer.md). -/

namespace Sys2Proof.Machine

/-- PACK: append the low w bits of V, most significant first; VALUE_TOO_WIDE before PACK_FULL (41_packer.md R141,
60_exceptions.md R282). -/
def execPack (w : Nat) (s : State) : Out :=
  takeV s fun v s1 =>
    if 2 ^ w ≤ v.toNat then raise .valueTooWide s1
    else if s1.cfg.pCapBits < s1.p.bits.length + w then raise .packFull s1
    else succeed 0#256 (s1.setPBits (s1.p.bits ++ bitsOf w v.toNat))

/-- FLUSH: pad P_BITS with zero bits to whole bytes, emit them, empty the buffer; R is the number of bytes
(41_packer.md R143). -/
def execFlush (s : State) : Out :=
  let bytes := bytesOf (padBits s.p.bits)
  emitP bytes s fun s1 => succeed (BitVec.ofNat 256 bytes.length) (s1.setPBits [])

end Sys2Proof.Machine
end

