-- ==== Sys2Proof/Machine/Unpacker.lean ====
section
/-! DEFINITION. The unpacker: ULOAD, UNPACK and ISEMPTY (42_unpacker.md). -/

namespace Sys2Proof.Machine

/-- ULOAD: construct the stream from N bytes; on ULOAD_TOO_BIG the stream is kept and the bytes are discarded
(42_unpacker.md R170). -/
def execUload (s : State) : Out :=
  takeN s fun n s1 => takeUDin n.toNat s1 fun bytes s2 =>
    if s2.cfg.uCapBytes < n.toNat then raise .uloadTooBig s2
    else succeed 0#256 (s2.setU { buf := bytes, pos := 0 })

/-- UNPACK: read the next w bits, right-aligned in R, and advance U_POS; UNPACK_SHORT if fewer remain
(42_unpacker.md R172). -/
def execUnpack (w : Nat) (s : State) : Out :=
  if 8 * s.u.buf.length - s.u.pos < w then raise .unpackShort s
  else succeed (BitVec.ofNat 256 (bitsVal (readBits s.u.buf s.u.pos w))) (s.setUPos (s.u.pos + w))

/-- ISEMPTY: R = 1 if no unread bits remain, else 0 (42_unpacker.md R173). -/
def execIsempty (s : State) : Out :=
  succeed (if s.u.pos = 8 * s.u.buf.length then 1#256 else 0#256) s

end Sys2Proof.Machine
end

