-- ==== Sys2Proof/Machine/Dispatch.lean ====
section
/-! DEFINITION. One arm per command (30_encoding.md R92). -/

namespace Sys2Proof.Machine

def exec (i : Instr) (s : State) : Host.Outcome State Fault Refusal :=
  match i with
  | .nop => Sys2Proof.Machine.execNop s
  | .sreset => Sys2Proof.Machine.execSreset s
  | .rdreg reg => Sys2Proof.Machine.execRdreg reg s
  | .pack w => Sys2Proof.Machine.execPack w s
  | .flush => Sys2Proof.Machine.execFlush s
  | .uload => Sys2Proof.Machine.execUload s
  | .unpack w => Sys2Proof.Machine.execUnpack w s
  | .isempty => Sys2Proof.Machine.execIsempty s
  | .dload => Sys2Proof.Machine.execDload s
  | .dstep => Sys2Proof.Machine.execDstep s
  | .drun => Sys2Proof.Machine.execDrun s

end Sys2Proof.Machine
end

