-- ==== Sys2Proof/Machine/Run.lean ====
section
/-! DEFINITION. What the block does with one action of the host: the command of a transaction, or power-on reset
(30_encoding.md R90, R93, R94, R96; 70_reset_and_hazards.md R320, R321, R324). -/

namespace Sys2Proof.Machine

/-- Execute a command word whose operands stand on the ports: decode it and run it, or complete it with ILLEGAL_COMMAND
(30_encoding.md R93, R94). A host that has presented more than the operands of the opcode gets no step
(70_reset_and_hazards.md R324). -/
def runWord (cmd : Word) (s : State) : Out :=
  if surplusOperands cmd s then .fault .surplusOperands
  else
    match decode cmd with
    | .ok i => exec i s
    | .error e => rejectWord e s

/-- One transaction: its operands are presented and its word is executed. -/
def runTransaction (t : Transaction) (s : State) : Out := runWord t.cmd (s.present t)

/-- One action of the host, taken off the command port. A transaction with surplus operands has no step even when reset
cuts it off; one of which some operands were still to come is cut off like any other (log 10). -/
def runAction (a : HostAction) (s : State) : Out :=
  match a with
  | .command t => runTransaction t s
  | .commandBeforeResponse _ _ => .fault .commandBeforeResponse
  | .powerOnReset => .next s.powerOnReset
  | .commandCutByReset t =>
    if surplusOperands t.cmd (s.present t) then .fault .surplusOperands
    else .next (s.cutByReset (runTransaction t s))

end Sys2Proof.Machine
end

