-- ==== Sys2Proof/Machine/Step.lean ====
section
/-! DEFINITION. One step: the block takes the host's next action at the command port. One command is one step, indivisible
and in issue order (20_memory.md R68, R70). -/

namespace Sys2Proof.Machine

/-- One step. With nothing at the command port the block waits and holds its state (70_reset_and_hazards.md R321,
60_exceptions.md R294; log 2). -/
def step (s : State) : Host.Outcome State Fault Refusal :=
  match s.io.cmd with
  | [] => .next s
  | a :: q => runAction a (s.setCmd q)

/-- `s` with the command word of the table's bits placed where the next step takes it, and operands of zero bits where
its opcode requires operands (log 16). -/
def State.withFetchWord (s : State) (nbits w : Nat) : State := s.issueFirst (zeroTransaction (tableWord nbits w))

end Sys2Proof.Machine
end

