-- ==== Sys2Proof/Machine/Assembler.lean ====
section
/-! DEFINITION. The host's assembly language: lines and pseudo-instructions as terms, the assembler's checks, and the
transactions a line presents (30_encoding.md R105, R106). Their text stands in Machine/AsmText.lean. -/

namespace Sys2Proof.Machine

/-- One line of 30_encoding.md R105, or a pseudo-instruction of R106. -/
inductive AsmLine where
  | nop
  | sreset
  /-- RDREG with a number -/
  | rdreg (reg : Nat)
  /-- RDREG with a register name of 10_state.md R31 -/
  | rdregNamed (reg : Reg)
  | pack (w v : Nat)
  | flush
  | uload (bytes : List Nat)
  | unpack (w : Nat)
  | isempty
  | dload (bytes : List Nat)
  | dstep
  | drun
  /-- pseudo PACKS "<bits>" -/
  | packs (bits : Bits)
  /-- pseudo DECODE [<bytes>] -/
  | decode (bytes : List Nat)
  /-- pseudo CLRSTAT -/
  | clrstat
  /-- pseudo RDSTAT -/
  | rdstat
deriving DecidableEq, Repr

/-- The index of a register (10_state.md R31). -/
def regIndex : Reg → Nat
  | .id => 0x00
  | .status => 0x01
  | .pLen => 0x02
  | .uLen => 0x03
  | .uPos => 0x04
  | .dStat => 0x05
  | .dNsym => 0x06
  | .dEntry => 0x07
  | .dTotal => 0x08
  | .dEmit => 0x09
  | .dLen => 0x0A
  | .dPos => 0x0B
  | .dScrlen => 0x0C
  | .pCap => 0x0D
  | .uCap => 0x0E
  | .dCap => 0x0F

/-- A byte list of ULOAD or DLOAD: each item a byte, and the count a 32-bit N (30_encoding.md R95, R105). -/
def bytesOk (bytes : List Nat) : Bool := bytes.all (fun b => decide (b ≤ 255)) && decide (bytes.length < 2 ^ 32)

/-- "An assembler refuses a w or reg outside 0..255 and a v of 2^256 or more" (30_encoding.md R105). -/
def lineOk : AsmLine → Bool
  | .nop => true
  | .sreset => true
  | .rdreg reg => (Instr.rdreg reg).WellFormed
  | .rdregNamed _ => true
  | .pack w v => (Instr.pack w).WellFormed && decide (v < 2 ^ 256)
  | .flush => true
  | .uload bytes => bytesOk bytes
  | .unpack w => (Instr.unpack w).WellFormed
  | .isempty => true
  | .dload bytes => bytesOk bytes
  | .dstep => true
  | .drun => true
  | .packs bits => (Instr.pack bits.length).WellFormed
  | .decode bytes => bytesOk bytes
  | .clrstat => true
  | .rdstat => true

/-- The transactions of a line; a pseudo-instruction presents those of its expansion (30_encoding.md R105, R106). -/
def transactionsOf : AsmLine → List Transaction
  | .nop => [plainTransaction .nop]
  | .sreset => [plainTransaction .sreset]
  | .rdreg reg => [plainTransaction (.rdreg reg)]
  | .rdregNamed reg => [plainTransaction (.rdreg (regIndex reg))]
  | .pack w v => [packTransaction w (BitVec.ofNat 256 v)]
  | .flush => [plainTransaction .flush]
  | .uload bytes => [uloadTransaction (bytes.map (BitVec.ofNat 8))]
  | .unpack w => [plainTransaction (.unpack w)]
  | .isempty => [plainTransaction .isempty]
  | .dload bytes => [dloadTransaction (bytes.map (BitVec.ofNat 8))]
  | .dstep => [plainTransaction .dstep]
  | .drun => [plainTransaction .drun]
  | .packs bits => [packTransaction bits.length (BitVec.ofNat 256 (bitsVal bits))]
  | .decode bytes => [dloadTransaction (bytes.map (BitVec.ofNat 8)), plainTransaction .drun]
  | .clrstat => [plainTransaction .nop]
  | .rdstat => [plainTransaction (.rdreg 0x01)]

/-- The assembler: the transactions of an accepted line, none for a refused one (30_encoding.md R105). -/
def assemble (l : AsmLine) : Option (List Transaction) := if lineOk l then some (transactionsOf l) else none

end Sys2Proof.Machine
end

