-- ==== Sys2Proof/Machine/AsmText.lean ====
section
/-! DEFINITION. The text of the assembly language: from the characters of a line to the line (30_encoding.md R105, R106).
The block never sees text. Where spaces may stand, and that hexadecimal digits may be small or capital, is the model's
choice (log 19). -/

namespace Sys2Proof.Machine

/-! ## Characters, fields and numbers -/

/-- A character that separates a mnemonic from its operands and may stand around an operand. -/
def isBlank (c : Char) : Bool := c == ' ' || c == '\t'

/-- A text without the blanks at its two ends. -/
def trimBlanks (cs : List Char) : List Char := ((cs.dropWhile isBlank).reverse.dropWhile isBlank).reverse

/-- The operands of a line, "separated by commas" (30_encoding.md R105). -/
def commaFields : List Char → List (List Char)
  | [] => [[]]
  | c :: cs =>
    if c = ',' then [] :: commaFields cs
    else
      match commaFields cs with
      | [] => [[c]]
      | f :: fs => (c :: f) :: fs

/-- The value of a digit in a base; none if it is no digit of that base. -/
def digitVal (base : Nat) (c : Char) : Option Nat :=
  let n := c.toNat
  let d := if 48 ≤ n ∧ n ≤ 57 then n - 48 else if 65 ≤ n ∧ n ≤ 70 then n - 55 else if 97 ≤ n ∧ n ≤ 102 then n - 87 else base
  if d < base then some d else none

/-- The value of a non-empty string of digits, added behind those already read. -/
def digitsVal (base : Nat) : Nat → List Char → Option Nat
  | acc, [] => some acc
  | acc, c :: cs => (digitVal base c).bind fun d => digitsVal base (acc * base + d) cs

/-- A number without its prefix: at least one digit. -/
def numeralVal (base : Nat) (cs : List Char) : Option Nat := if cs = [] then none else digitsVal base 0 cs

/-- "Numbers may be decimal, 0x hexadecimal or 0b binary" (30_encoding.md R105). -/
def numberVal : List Char → Option Nat
  | '0' :: 'x' :: cs => numeralVal 16 cs
  | '0' :: 'b' :: cs => numeralVal 2 cs
  | cs => numeralVal 10 cs

/-- Every one of a list of answers, or none. -/
def allSome {α : Type} : List (Option α) → Option (List α)
  | [] => some []
  | none :: _ => none
  | some x :: xs => (allSome xs).map fun ys => x :: ys

/-- The text between an opening and a closing character; none if they are not the first and the last of the text. -/
def between (first last : Char) (cs : List Char) : Option (List Char) :=
  match cs with
  | [] => none
  | c :: rest =>
    match rest.reverse with
    | [] => none
    | e :: inner => if c = first ∧ e = last then some inner.reverse else none

/-! ## Operands -/

/-- The register names of 10_state.md R31. -/
def regNames : List (List Char × Reg) :=
  [("ID".toList, .id), ("STATUS".toList, .status), ("P_LEN".toList, .pLen),
   ("U_LEN".toList, .uLen), ("U_POS".toList, .uPos), ("D_STAT".toList, .dStat),
   ("D_NSYM".toList, .dNsym), ("D_ENTRY".toList, .dEntry),
   ("D_TOTAL".toList, .dTotal), ("D_EMIT".toList, .dEmit),
   ("D_LEN".toList, .dLen), ("D_POS".toList, .dPos),
   ("D_SCRLEN".toList, .dScrlen), ("P_CAP".toList, .pCap),
   ("U_CAP".toList, .uCap), ("D_CAP".toList, .dCap)]

/-- The register that a name of 10_state.md R31 stands for. -/
def regOfName (cs : List Char) : Option Reg := (regNames.find? fun x => x.1 == cs).map Prod.snd

/-- "[b0, b1, ...]": the numbers of a byte list; nothing between the brackets is the empty list (30_encoding.md R105). -/
def byteListVal (cs : List Char) : Option (List Nat) :=
  (between '[' ']' cs).bind fun inner =>
    if trimBlanks inner = [] then some [] else allSome ((commaFields inner).map fun f => numberVal (trimBlanks f))

/-- One bit of a bit string in quotes. -/
def bitOfChar (c : Char) : Option Bool := if c = '0' then some false else if c = '1' then some true else none

/-- A bit string in quotes, first bit first (30_encoding.md R106). -/
def quotedBits (cs : List Char) : Option Bits := (between '"' '"' cs).bind fun inner => allSome (inner.map bitOfChar)

/-! ## Lines -/

/-- A line without operands. -/
def plainLine (l : AsmLine) (ops : List Char) : Option AsmLine := if ops = [] then some l else none

/-- The operand of RDREG: "a number or a register name" (30_encoding.md R105). -/
def rdregLine (ops : List Char) : Option AsmLine :=
  match regOfName ops with
  | some x => some (.rdregNamed x)
  | none => (numberVal ops).map .rdreg

/-- The operands of PACK: a width and a value. -/
def packLine (ops : List Char) : Option AsmLine :=
  match commaFields ops with
  | [w, v] => (numberVal (trimBlanks w)).bind fun n => (numberVal (trimBlanks v)).map fun x => .pack n x
  | _ => none

/-- The mnemonics of 30_encoding.md R105 and R106, each with what reads its operands. -/
def lineReaders : List (List Char × (List Char → Option AsmLine)) :=
  [("NOP".toList, plainLine .nop), ("SRESET".toList, plainLine .sreset),
   ("RDREG".toList, rdregLine), ("PACK".toList, packLine),
   ("FLUSH".toList, plainLine .flush),
   ("ULOAD".toList, fun ops => (byteListVal ops).map .uload),
   ("UNPACK".toList, fun ops => (numberVal ops).map .unpack),
   ("ISEMPTY".toList, plainLine .isempty),
   ("DLOAD".toList, fun ops => (byteListVal ops).map .dload),
   ("DSTEP".toList, plainLine .dstep), ("DRUN".toList, plainLine .drun),
   ("PACKS".toList, fun ops => (quotedBits ops).map .packs),
   ("DECODE".toList, fun ops => (byteListVal ops).map .decode),
   ("CLRSTAT".toList, plainLine .clrstat), ("RDSTAT".toList, plainLine .rdstat)]

/-- The line that a text stands for: "a mnemonic and its operands" (30_encoding.md R105); none if it is no line of the
language. -/
def parseLine (cs : List Char) : Option AsmLine :=
  let t := trimBlanks cs
  let name := t.takeWhile fun c => !isBlank c
  (lineReaders.find? fun x => x.1 == name).bind fun x => x.2 (trimBlanks (t.drop name.length))

/-- A program, "one command per line" (30_encoding.md R105): the transactions of all its lines, or none if one line is
refused. -/
def assembleText (lines : List (List Char)) : Option (List Transaction) :=
  (allSome (lines.map fun cs => (parseLine cs).bind assemble)).map List.flatten

end Sys2Proof.Machine
end

