-- ==== Sys2Proof/Machine/Container.lean ====
section
/-! DEFINITION. The container format (30_encoding.md R99 to R103): a blob as a term and the bytes it is stored as. The
block never builds one; the decoder reads it. -/

namespace Sys2Proof.Machine

/-- A blob: the code table and the symbols that the payload encodes, in original input order (30_encoding.md R99). -/
structure Container where
  entries : List Entry
  symbols : List Byte
deriving DecidableEq, Repr

/-- The code of an entry: bits_L(code_value), leading zeros included (30_encoding.md R101). -/
def entryCode (e : Entry) : Bits := bitsOf e.len e.val

/-- The legal entries: code_length 1..255 and a code_value of that many bits (30_encoding.md R99, R103). -/
abbrev EntryInRange (e : Entry) : Prop := (1 ≤ e.len ∧ e.len ≤ 255) ∧ e.val < 2 ^ e.len

/-- The three fields of an entry: symbol, code_length, code_value (30_encoding.md R99). -/
def entryBits (e : Entry) : Bits := bitsOf 8 e.sym.toNat ++ bitsOf 8 e.len ++ bitsOf e.len e.val

/-- The header: symbol_count_minus_1, the entries, total_symbols (30_encoding.md R99). -/
def headerBits (c : Container) : Bits :=
  bitsOf 8 (c.entries.length - 1) ++ c.entries.flatMap entryBits ++ bitsOf 32 c.symbols.length

/-- The code of a symbol: that of the first entry that carries it; none if no entry does. DESIGN CHOICE (log 21): the spec
accepts a symbol in two entries (43_decoder.md R204) and does not say which of its codes a payload uses. -/
def codeOf (entries : List Entry) (x : Byte) : Option Bits := (entries.find? (fun e => e.sym == x)).map entryCode

/-- The payload: "concatenation of each original symbol's code, in original input order" (30_encoding.md R99). -/
def payloadBits (c : Container) : Bits := c.symbols.flatMap fun x => (codeOf c.entries x).getD []

/-- The blob: all fields as one bit stream, most significant bits first, zero-padded to bytes (30_encoding.md R99). -/
def containerBytes (c : Container) : List Byte := bytesOf (padBits (headerBits c ++ payloadBits c))

/-- The bit address o_i of entry i, and of total_symbols for i the number of entries (30_encoding.md R100). -/
def entryOffset (entries : List Entry) (i : Nat) : Nat := 8 + ((entries.take i).map fun e => 16 + e.len).sum

/-- "No code is a prefix of another" (00_scope.md R11; 30_encoding.md R103). -/
def PrefixFree (entries : List Entry) : Prop :=
  entries.Pairwise fun a b => ¬ entryCode a <+: entryCode b ∧ ¬ entryCode b <+: entryCode a

/-- A blob conforming to the format: 1 to 256 legal entries, fewer than 2^32 symbols, each of them coded
(30_encoding.md R99, R103). -/
structure ContainerInRange (c : Container) : Prop where
  count : 1 ≤ c.entries.length ∧ c.entries.length ≤ 256
  entries : ∀ e ∈ c.entries, EntryInRange e
  total : c.symbols.length < 2 ^ 32
  coded : ∀ x ∈ c.symbols, ∃ e ∈ c.entries, e.sym = x

end Sys2Proof.Machine
end

