-- ==== Sys2Proof/Machine/Trie.lean ====
section
/-! DEFINITION. The code trie, an allowed realisation of D_TABLE and the lookup (43_decoder.md R214, 10_state.md R34).
The step of the model does not use it: it is here so that its agreement with the table can be stated. -/

namespace Sys2Proof.Machine

/-- A binary trie: a node stands for a string of bits and may carry a symbol; `dead` has no node below it. -/
inductive Trie where
  | dead
  | node (sym : Option Byte) (zero one : Trie)
deriving DecidableEq, Repr

/-- The symbol a node carries. -/
def trieSym : Trie → Option Byte
  | .dead => none
  | .node x _ _ => x

/-- The node along the edge b; the dead state where there is no such edge (43_decoder.md R214). -/
def trieChild (b : Bool) : Trie → Trie
  | .dead => .dead
  | .node _ zero one => if b then one else zero

/-- The symbol of a node that a further entry reaches, chosen under DUP_CODE_POLICY (43_decoder.md R212, R214). -/
def triePlace (policy : DupCodePolicy) (old : Option Byte) (x : Byte) : Option Byte :=
  match policy with
  | .lastWins => some x
  | .fault => some (old.getD x)
  | .firstWins => some (old.getD x)

/-- Add a code with its symbol. -/
def trieInsert (policy : DupCodePolicy) (x : Byte) : Bits → Trie → Trie
  | [], t => .node (triePlace policy (trieSym t) x) (trieChild false t) (trieChild true t)
  | true :: s, t => .node (trieSym t) (trieChild false t) (trieInsert policy x s (trieChild true t))
  | false :: s, t => .node (trieSym t) (trieInsert policy x s (trieChild false t)) (trieChild true t)

/-- The trie of a code table, its entries added in table order. -/
def trieOfTable (policy : DupCodePolicy) (table : List Entry) : Trie :=
  table.foldl (fun t e => trieInsert policy e.sym (entryCode e) t) .dead

/-- The node reached from a node along a bit string. -/
def trieWalk (s : Bits) (t : Trie) : Trie := s.foldl (fun t b => trieChild b t) t

/-- What a trie decoder keeps in place of D_SCR: where it stands, and how many bits it has read since the last match. -/
structure TrieCursor where
  node : Trie
  depth : Nat
deriving DecidableEq, Repr

/-- A PAYLOAD step over the trie: one edge; emit and return to the root at a symbol; a dead state goes on counting until
256 bits (43_decoder.md R214). D_SCR itself is not used and not written. -/
def trieStep (root : Trie) (cur : TrieCursor) (d : Decoder) : TrieCursor × StepOut :=
  match dRead 1 d with
  | none => (cur, dFail .payloadExhausted d)
  | some (b, d1) =>
    let node := trieChild (b == 1) cur.node
    match trieSym node with
    | some x => ({ node := root, depth := 0 }, { d := { emitSym x d1 with scr := d1.scr }, emitted := [x], err := none })
    | none =>
      let cur1 := { node := node, depth := cur.depth + 1 }
      if Config.maxCodeLen < cur1.depth then (cur1, dFail .noMatch d1) else (cur1, dGoOn d1)

end Sys2Proof.Machine
end

