-- ==== Sys2Proof/Safety.lean ====
section
/-! DEFINITION. What a legal state is, and what a host that meets its obligations presents: the terms the statements use. -/

namespace Sys2Proof.Machine

/-- A status the block can produce: OK or a listed error (60_exceptions.md R280; 93_implementation_defined.md I14). -/
def KnownStatus (st : Status) : Prop := st = statusOk ∨ ∃ e : Err, st = statusOf e

/-- The errors of the kind MALFORMED_INPUT (60_exceptions.md R280). -/
def malformed (e : Err) : Bool := errKind e == 0x04#8

/-- The phases before total_symbols has been read (10_state.md R26). -/
def phaseInHeader : Phase → Bool
  | .hdrCount => true
  | .hdrSym => true
  | .hdrLen => true
  | .hdrCode => true
  | .total => true
  | .idle => false
  | .payload => false
  | .done => false
  | .error => false

/-- The legal states of the decoder under the parameters `c` (10_state.md R22, R26 to R30; 43_decoder.md R200, R208). -/
structure DecoderInv (c : Config) (d : Decoder) : Prop where
  bufFits : d.buf.length ≤ c.dCapBytes
  posInside : d.pos ≤ 8 * d.buf.length
  nsymBound : d.nsym ≤ 256
  entryBound : d.entry ≤ d.nsym
  tableCount : d.table.length = d.entry
  tableInRange : ∀ e ∈ d.table, EntryInRange e
  codesDistinct : c.dupCodePolicy = .fault → d.table.Pairwise fun a b => ¬ (a.len = b.len ∧ a.val = b.val)
  idleIsReset : d.state = .idle → d = Decoder.reset
  freshBlob : d.state = .hdrCount → d = freshDecoder d.buf
  entryOpen : d.state = .hdrSym ∨ d.state = .hdrLen ∨ d.state = .hdrCode → d.entry < d.nsym
  codeLenKnown : d.state = .hdrCode → d.curlen ≠ 0#8
  tableComplete : d.state = .total ∨ d.state = .payload ∨ d.state = .done → d.entry = d.nsym ∧ 1 ≤ d.nsym
  headerQuiet : phaseInHeader d.state = true → d.total = 0#32 ∧ d.emit = 0#32 ∧ d.scr = []
  payloadOpen : d.state = .payload → d.emit.toNat < d.total.toNat ∧ d.scr.length ≤ 255
  doneFull : d.state = .done → d.emit = d.total ∧ d.scr = []
  emitBound : d.emit.toNat ≤ d.total.toNat
  outCount : d.out.length = d.emit.toNat
  scrBound : d.scr.length ≤ 256
  errZero : d.state ≠ .error → d.errk = 0#8 ∧ d.errs = 0#8
  errKnown : d.state = .error → ∃ e, malformed e = true ∧ d.errk = errKind e ∧ d.errs = errSub e

/-- The legal states of the machine: parameters in range, every component of 10_state.md R22 within its type, no operand
left on a port (30_encoding.md R96), and every status and response one the block can give (R98, 60_exceptions.md R280). -/
structure StateInv (s : State) : Prop where
  cfgInRange : s.cfg.InRange
  packerFits : s.p.bits.length ≤ s.cfg.pCapBits
  unpackerFits : s.u.buf.length ≤ s.cfg.uCapBytes
  cursorInside : s.u.pos ≤ 8 * s.u.buf.length
  decoder : DecoderInv s.cfg s.d
  portsClear : s.PortsClear
  statusKnown : KnownStatus s.status
  responses : ∀ x ∈ s.io.resp, KnownStatus x.st ∧ (x.st ≠ statusOk → x.r = 0#256)

/-- Exactly the operands that the opcode of a command word requires stand on the ports, none for a reserved one
(30_encoding.md R94, R96; 70_reset_and_hazards.md R324, obligation 1). -/
def OperandsPresented (cmd : Word) (s : State) : Prop :=
  match opcodeOf (fieldOpc cmd) with
  | some .pack => (∃ v, s.io.v = [v]) ∧ s.io.n = [] ∧ s.io.uDin = [] ∧ s.io.dDin = []
  | some .uload => s.io.v = [] ∧ (∃ n, s.io.n = [n] ∧ s.io.uDin.length = n.toNat) ∧ s.io.dDin = []
  | some .dload => s.io.v = [] ∧ (∃ n, s.io.n = [n] ∧ s.io.dDin.length = n.toNat) ∧ s.io.uDin = []
  | _ => s.PortsClear

/-- The host meets its obligations for a transaction: exactly the operands of its opcode are presented, and both output
ports are drained (70_reset_and_hazards.md R324). -/
def HostMeetsObligations (t : Transaction) (s : State) : Prop :=
  OperandsPresented t.cmd (s.present t) ∧ s.io.pReady = true ∧ s.io.dReady = true

/-- A sequence of commands without operands, each executed in the state the one before it left; it stops at the first
fault or refusal (20_memory.md R70: sequential composition). -/
def execAll : List Instr → State → Out
  | [], s => .next s
  | i :: rest, s =>
    match exec i s with
    | .next t => execAll rest t
    | .fault f => .fault f
    | .refused r => .refused r

/-- A sequence of transactions, each run in the state the one before it left (20_memory.md R70). -/
def runAll : List Transaction → State → Out
  | [], s => .next s
  | t :: rest, s =>
    match runTransaction t s with
    | .next s1 => runAll rest s1
    | .fault f => .fault f
    | .refused r => .refused r

/-- No code of the table is a non-empty string that `scr` begins with: what the scratch string of a decode that has just
read `scr` without a match looks like (43_decoder.md R208, R213). -/
def NoCodeBegins (policy : DupCodePolicy) (table : List Entry) (scr : Bits) : Prop :=
  ∀ k, 1 ≤ k → k ≤ scr.length → lookup policy table (scr.take k) = none

end Sys2Proof.Machine
end

