-- ==== Sys2Proof/Certificates/Slice0/Obligations.lean ====
section
/-! DEFINITION. The statements about the model, each naming the rules of spec/ it formalises. `s.respond st r` is `s` with
STATUS = st and one more response (st, r); the other updates are those of Machine/Ops.lean. An equation
`exec i s = .next t` says that the command completes, what it changes, and that it changes nothing else. `runWord c s` is
what a step does with a command word once the operands presented with it stand on the ports (StepRunsDecodedCommand). -/

open Sys2Proof Sys2Proof.Machine

/-! ## Command words -/

/-- The eleven command words of 30_encoding.md R105, with fields where there are some, and the words of
95_test_vectors.md ("Command decoding") that are no command. -/
def Obligations.CommandWordsDecode : Prop :=
  decode 0x00000000#32 = .ok .nop ∧ decode 0x01000000#32 = .ok .sreset ∧ decode 0x02000400#32 = .ok (.rdreg 4) ∧
  decode 0x0200FF00#32 = .ok (.rdreg 255) ∧ decode 0x10FF0000#32 = .ok (.pack 255) ∧
  decode 0x10030000#32 = .ok (.pack 3) ∧ decode 0x11000000#32 = .ok .flush ∧ decode 0x20000000#32 = .ok .uload ∧
  decode 0x21200000#32 = .ok (.unpack 32) ∧ decode 0x22000000#32 = .ok .isempty ∧
  decode 0x30000000#32 = .ok .dload ∧ decode 0x31000000#32 = .ok .dstep ∧ decode 0x32000000#32 = .ok .drun ∧
  decode 0x00000001#32 = .error (.nonzeroField .nop) ∧ decode 0x03000000#32 = .error .reservedOpcode ∧
  decode 0xFF000000#32 = .error .reservedOpcode ∧ decode 0x33000000#32 = .error .reservedOpcode

/-- Decoding the word of a well-formed command gives it back, at every value of W and REG (30_encoding.md R91, R95). -/
def Obligations.DecodeOfEncode : Prop :=
  ∀ i : Instr, i.WellFormed = true → decode (encode i) = .ok i

/-- Each command word has one meaning: a word that decodes is the word of the command it decodes to, and that command is
well formed (30_encoding.md R93). -/
def Obligations.EncodeOfDecode : Prop :=
  ∀ (c : Word) (i : Instr), decode c = .ok i → i.WellFormed = true ∧ encode i = c

/-- 30_encoding.md R93: a word with an assigned opcode and a non-zero unused field or RSV is not executed. It completes
with ILLEGAL_COMMAND(NONZERO_FIELD) = 0x0205, and no unit, parameter or output port changes. A word with an assigned
opcode whose unused fields are zero is a command. -/
def Obligations.UnusedFieldsMustBeZero : Prop :=
  ∀ (c : Word) (op : Opcode), opcodeOf (c.extractLsb' 24 8) = some op →
    let bad : Prop := c.extractLsb' 0 8 ≠ 0#8 ∨ (op ≠ .pack ∧ op ≠ .unpack ∧ c.extractLsb' 16 8 ≠ 0#8) ∨
      (op ≠ .rdreg ∧ c.extractLsb' 8 8 ≠ 0#8)
    (¬ bad → ∃ i, decode c = .ok i) ∧
    (bad → ∀ s : State, OperandsPresented c s →
      ∃ t, runWord c s = .next t ∧ t.status = 0x0205#16 ∧ t.io.resp = s.io.resp ++ [⟨0x0205#16, 0#256⟩] ∧
        t.p = s.p ∧ t.u = s.u ∧ t.d = s.d ∧ t.cfg = s.cfg ∧ t.free = s.free ∧ t.io.cmd = s.io.cmd ∧
        t.io.pDout = s.io.pDout ∧ t.io.dDout = s.io.dDout)

/-- 30_encoding.md R94: 245 opcode values are reserved; a word with one completes with ILLEGAL_COMMAND(RESERVED_OPCODE)
= 0x0105, changes nothing but STATUS, and has no operand to consume. -/
def Obligations.ReservedOpcodeCompletes : Prop :=
  ((List.range 256).filter fun n => n ∉ [0x00, 0x01, 0x02, 0x10, 0x11, 0x20, 0x21, 0x22, 0x30, 0x31, 0x32]).length = 245 ∧
  ∀ (s : State) (c : Word), s.PortsClear →
    (c.extractLsb' 24 8).toNat ∉ [0x00, 0x01, 0x02, 0x10, 0x11, 0x20, 0x21, 0x22, 0x30, 0x31, 0x32] →
    runWord c s = .next (s.respond 0x0105#16 0#256)

/-! ## The step -/

/-- A step takes a transaction off the command port, puts its operands on their ports and runs its word; where exactly the
operands of the opcode are presented and the word decodes to a command, the step is that command. -/
def Obligations.StepRunsDecodedCommand : Prop :=
  ∀ (s : State) (x : Transaction) (q : List HostAction), s.io.cmd = .command x :: q →
    let s1 : State := { s with io := { s.io with
      cmd := q, v := s.io.v ++ x.v, n := s.io.n ++ x.n, uDin := s.io.uDin ++ x.uDin, dDin := s.io.dDin ++ x.dDin } }
    step s = runWord x.cmd s1 ∧
    (OperandsPresented x.cmd s1 → ∀ i, decode x.cmd = .ok i → step s = exec i s1)

/-- With no action of the host the block waits and holds its state: the model's reading of 70_reset_and_hazards.md R321
and 60_exceptions.md R294 (log 2). -/
def Obligations.WaitsWithoutCommand : Prop :=
  ∀ s : State, s.io.cmd = [] → step s = .next s

/-- 70_reset_and_hazards.md R320: power-on reset and SRESET both put every component at its value in 10_state.md R35, and
leave the parameters and the bytes already emitted unchanged. Power-on reset gives no response; SRESET responds OK. -/
def Obligations.BothResetsRestoreResetState : Prop :=
  ∀ s : State,
    let zero : State := { s with
      status := 0#16
      p := { bits := [] }
      u := { buf := [], pos := 0 }
      d := { state := .idle, buf := [], pos := 0, nsym := 0, entry := 0, cursym := 0#8, curlen := 0#8, table := [],
             total := 0#32, emit := 0#32, scr := [], out := [], errk := 0#8, errs := 0#8 } }
    (∀ q, s.io.cmd = .powerOnReset :: q → step s = .next (zero.setCmd q)) ∧
    exec .sreset s = .next (zero.respond 0#16 0#256)

/-- 70_reset_and_hazards.md R321: a power-on reset during a command transaction aborts it: no response, the reset state;
bytes already emitted stay (R320), and what the cut command adds to an output port is a beginning of what it would have
added uncut, and nothing where it would not have completed. How much is a free value of the model, that no operand is
left and that a transaction with surplus operands has no step are its choices (log 10), and the statement holds for each
value. -/
def Obligations.ResetCutsTransaction : Prop :=
  ∀ (s : State) (x : Transaction) (q : List HostAction), s.io.cmd = .commandCutByReset x :: q →
    surplusOperands x.cmd (s.present x) = false →
    let uncut := step { s with io := { s.io with cmd := .command x :: q } }
    ∃ t, step s = .next t ∧ t.status = 0#16 ∧ t.p = Packer.reset ∧ t.u = Unpacker.reset ∧ t.d = Decoder.reset ∧
      t.cfg = s.cfg ∧ t.io.cmd = q ∧ t.io.v = s.io.v ∧ t.io.n = s.io.n ∧ t.io.uDin = s.io.uDin ∧ t.io.dDin = s.io.dDin ∧
      t.io.resp = s.io.resp ∧ s.io.pDout <+: t.io.pDout ∧ s.io.dDout <+: t.io.dDout ∧
      (∀ u, uncut = .next u → t.io.pDout <+: u.io.pDout ∧ t.io.dDout <+: u.io.dDout) ∧
      ((∀ u, uncut ≠ .next u) → t.io.pDout = s.io.pDout ∧ t.io.dDout = s.io.dDout)

/-- No step changes a parameter (10_state.md R22), and no step takes back a byte or a response that was given: the output
ports only grow, in order (20_memory.md R71). -/
def Obligations.ConfigFixedAndOutputsGrow : Prop :=
  ∀ s t : State, step s = .next t →
    t.cfg = s.cfg ∧ s.io.pDout <+: t.io.pDout ∧ s.io.dDout <+: t.io.dDout ∧ s.io.resp <+: t.io.resp

/-- A command of a host that meets its obligations always completes (70_reset_and_hazards.md R324, R327), whatever the word
and whatever state the block is in. -/
def Obligations.CompletesWhenHostConforms : Prop :=
  ∀ (s : State) (x : Transaction) (q : List HostAction), s.io.cmd = .command x :: q → HostMeetsObligations x s →
    ∃ t, step s = .next t

/-- 70_reset_and_hazards.md R324: a run whose host breaks an obligation has no step. Each way to break one stops under its
own name (log 1, 3, 4): an operand that is not presented, for a command and for a malformed word of its opcode; an output
port that is not drained, for FLUSH, DSTEP and DRUN when they have a byte to emit; a command before the response. Surplus
operands have a statement of their own (SurplusOperandsStop). -/
def Obligations.StuckWhenHostBreaksObligation : Prop :=
  ∀ s : State,
    (∀ w, s.io.v = [] → exec (.pack w) s = .fault .vNotPresented) ∧
    (s.io.n = [] → exec .uload s = .fault .nNotPresented ∧ exec .dload s = .fault .nNotPresented) ∧
    (∀ n q, s.io.n = n :: q → s.io.uDin.length < n.toNat → exec .uload s = .fault .uDinShort) ∧
    (∀ n q, s.io.n = n :: q → s.io.dDin.length < n.toNat → exec .dload s = .fault .dDinShort) ∧
    (∀ c : Word, s.PortsClear →
      (c.extractLsb' 24 8 = 0x10#8 → runWord c s = .fault .vNotPresented) ∧
      (c.extractLsb' 24 8 = 0x20#8 ∨ c.extractLsb' 24 8 = 0x30#8 → runWord c s = .fault .nNotPresented)) ∧
    (∀ (c n : Word), s.io.v = [] → s.io.n = [n] →
      (c.extractLsb' 24 8 = 0x20#8 → s.io.uDin.length < n.toNat → s.io.dDin = [] → runWord c s = .fault .uDinShort) ∧
      (c.extractLsb' 24 8 = 0x30#8 → s.io.dDin.length < n.toNat → s.io.uDin = [] → runWord c s = .fault .dDinShort)) ∧
    (s.p.bits ≠ [] → s.io.pReady = false → exec .flush s = .fault .pDoutNotDrained) ∧
    (∀ x, s.io.dReady = false → s.d.state = .payload → s.d.pos + 1 ≤ 8 * s.d.buf.length →
      lookup s.cfg.dupCodePolicy s.d.table (s.d.scr ++ [bitAt s.d.buf s.d.pos]) = some x →
      exec .dstep s = .fault .dDoutNotDrained) ∧
    (∀ i t, (i = .dstep ∨ i = .drun) → exec i { s with io := { s.io with dReady := true } } = .next t →
      t.io.dDout ≠ s.io.dDout → s.io.dReady = false → exec i s = .fault .dDoutNotDrained) ∧
    (∀ x c q, s.io.cmd = .commandBeforeResponse x c :: q → step s = .fault .commandBeforeResponse)

/-- 30_encoding.md R96: the length of a transaction is fixed by OPC alone. A word that completes, with success or with any
error, had exactly the operands of its opcode on the ports (70_reset_and_hazards.md R324), and has consumed all of them. -/
def Obligations.OperandsConsumedByOpcodeAlone : Prop :=
  ∀ (c : Word) (s t : State), runWord c s = .next t →
    let opc := c.extractLsb' 24 8
    t.io.cmd = s.io.cmd ∧ t.io.v = [] ∧ t.io.n = [] ∧ t.io.uDin = [] ∧ t.io.dDin = [] ∧
    (opc = 0x10#8 → ∃ v, s.io.v = [v]) ∧ (opc ≠ 0x10#8 → s.io.v = []) ∧
    (opc = 0x20#8 → ∃ n, s.io.n = [n] ∧ s.io.uDin.length = n.toNat) ∧ (opc ≠ 0x20#8 → s.io.uDin = []) ∧
    (opc = 0x30#8 → ∃ n, s.io.n = [n] ∧ s.io.dDin.length = n.toNat) ∧ (opc ≠ 0x30#8 → s.io.dDin = []) ∧
    (opc ≠ 0x20#8 → opc ≠ 0x30#8 → s.io.n = [])

/-! ## Statuses and errors -/

/-- Every command word that completes gives one response, whose ST is the STATUS it wrote, a status of the table, and whose
R is 0 unless ST is OK (60_exceptions.md R284, 30_encoding.md R98). -/
def Obligations.EveryCommandResponds : Prop :=
  ∀ (c : Word) (s t : State), runWord c s = .next t →
    ∃ x : Response, t.io.resp = s.io.resp ++ [x] ∧ x.st = t.status ∧ KnownStatus x.st ∧ (x.st ≠ 0#16 → x.r = 0#256)

/-- 60_exceptions.md R285: a command word that fails changes no state but STATUS, except that a decoder step that fails
puts the decoder in ERROR with its own code, KIND 0x04, in D_ERRK and D_ERRS. -/
def Obligations.FailureChangesOnlyStatus : Prop :=
  ∀ (c : Word) (s t : State), runWord c s = .next t → t.status ≠ 0#16 →
    t.p = s.p ∧ t.u = s.u ∧ t.cfg = s.cfg ∧ t.io.pDout = s.io.pDout ∧
    (t.d = s.d ∧ t.io.dDout = s.io.dDout ∨
      (decode c = .ok .dstep ∨ decode c = .ok .drun) ∧ phaseAtRest s.d.state = false ∧ t.d.state = .error ∧
        t.d.errk = 0x04#8 ∧ t.status = t.d.errs ++ t.d.errk)

/-- 60_exceptions.md R286: "D_STATE = ERROR persists until DLOAD or SRESET": no other command changes anything of a decoder
in ERROR, its error code included, and DSTEP and DRUN fail with BAD_STATE. -/
def Obligations.ErrorPersistsUntilLoadOrReset : Prop :=
  ∀ (s : State), s.d.state = .error →
    (∀ i t, i ≠ .dload → i ≠ .sreset → exec i s = .next t → t.d = s.d) ∧
    exec .dstep s = .next (s.respond 0x0405#16 0#256) ∧ exec .drun s = .next (s.respond 0x0405#16 0#256)

/-- 60_exceptions.md R286: "The next command runs normally whatever STATUS holds, and writes STATUS again": but for
RDREG STATUS, whose result is STATUS, no command depends on it. -/
def Obligations.NextCommandIgnoresStatus : Prop :=
  ∀ (i : Instr) (s : State) (st : Status), i ≠ .rdreg 1 → exec i { s with status := st } = exec i s

/-- The three units share nothing but STATUS (10_state.md R22): what a packer command does to the packer and answers does
not depend on the other units, and it leaves them alone; the same of the unpacker and of the decoder. -/
def Obligations.UnitsAreIsolated : Prop :=
  ∀ (s t : State) (p : Packer) (u : Unpacker) (d : Decoder),
    (∀ i, (i = .flush ∨ ∃ w, i = .pack w) → exec i s = .next t →
      t.u = s.u ∧ t.d = s.d ∧ exec i { s with u := u, d := d } = .next { t with u := u, d := d }) ∧
    (∀ i, (i = .uload ∨ i = .isempty ∨ ∃ w, i = .unpack w) → exec i s = .next t →
      t.p = s.p ∧ t.d = s.d ∧ exec i { s with p := p, d := d } = .next { t with p := p, d := d }) ∧
    (∀ i, (i = .dload ∨ i = .dstep ∨ i = .drun) → exec i s = .next t →
      t.p = s.p ∧ t.u = s.u ∧ exec i { s with p := p, u := u } = .next { t with p := p, u := u })

/-! ## The invariant -/

/-- The machine after reset is legal, for all parameters in their ranges, the defaults among them (10_state.md R35,
00_scope.md R6). That the operand ports are clear and no response has been given after reset is the model's choice (log 3,
5). -/
def Obligations.ResetStateIsLegal : Prop :=
  StateInv State.reset ∧ ∀ c : Config, c.InRange → StateInv (State.resetWith c)

/-- Every step from a legal state leads to a legal state: every component stays within its type (10_state.md R22), the
cursors within their buffers, and no unlisted status or phase arises (93_implementation_defined.md I14). That operands stand on port lists, clear
between commands, is the model's choice (log 3), and that none is left of a transaction cut off by power-on reset another
(log 10). -/
def Obligations.StepKeepsStateLegal : Prop :=
  ∀ s t : State, StateInv s → step s = .next t → StateInv t

/-! ## Block control -/

/-- 44_control.md R260: NOP does nothing but set STATUS to OK; a malformed one gives NONZERO_FIELD. -/
def Obligations.NopSetsStatusOk : Prop :=
  ∀ s : State, exec .nop s = .next (s.respond 0x0000#16 0#256) ∧
    ∀ c : Word, s.PortsClear → c.extractLsb' 24 8 = 0x00#8 →
      c.extractLsb' 0 24 ≠ 0#24 → runWord c s = .next (s.respond 0x0205#16 0#256)

/-- 44_control.md R262 and the register map of 10_state.md R31: in a legal state RDREG returns the value of each of the
sixteen registers as the table gives it, in naturals, D_STATE by its code of R26, and changes nothing but STATUS; the
indices 0x10 to 0xFF give RESERVED_REG; a malformed RDREG gives NONZERO_FIELD. -/
def Obligations.RdregReadsRegisterMap : Prop :=
  ∀ s : State, StateInv s →
    let code : Phase → Nat := fun x => match x with
      | .idle => 0 | .hdrCount => 1 | .hdrSym => 2 | .hdrLen => 3 | .hdrCode => 4 | .total => 5 | .payload => 6
      | .done => 7 | .error => 8
    let reads := fun (reg value : Nat) => exec (.rdreg reg) s = .next (s.respond 0x0000#16 (BitVec.ofNat 256 value))
    (reads 0x00 0x4A5A4801 ∧ reads 0x01 s.status.toNat ∧ reads 0x02 s.p.bits.length ∧
     reads 0x03 (8 * s.u.buf.length) ∧ reads 0x04 s.u.pos ∧
     reads 0x05 (code s.d.state + 2 ^ 8 * s.d.errk.toNat + 2 ^ 16 * s.d.errs.toNat) ∧
     reads 0x06 s.d.nsym ∧ reads 0x07 s.d.entry ∧ reads 0x08 s.d.total.toNat ∧ reads 0x09 s.d.emit.toNat ∧
     reads 0x0A (8 * s.d.buf.length) ∧ reads 0x0B s.d.pos ∧ reads 0x0C s.d.scr.length ∧
     reads 0x0D s.cfg.pCapBits ∧ reads 0x0E s.cfg.uCapBytes ∧ reads 0x0F s.cfg.dCapBytes) ∧
    (∀ reg, 0x10 ≤ reg → reg ≤ 0xFF → exec (.rdreg reg) s = .next (s.respond 0x0305#16 0#256)) ∧
    ∀ c : Word, s.PortsClear → c.extractLsb' 24 8 = 0x02#8 →
      c.extractLsb' 16 8 ≠ 0#8 ∨ c.extractLsb' 0 8 ≠ 0#8 → runWord c s = .next (s.respond 0x0205#16 0#256)

/-- 44_control.md R263: RDREG STATUS returns the STATUS written by the command before it and then writes OK, so two in a row
return the previous status and then 0x0000; a failed RDREG writes its own status. -/
def Obligations.RdregStatusReadsStatusBefore : Prop :=
  ∀ s : State,
    execAll [.rdreg 1, .rdreg 1] s =
      .next ((s.respond 0x0000#16 (s.status.setWidth 256)).respond 0x0000#16 0#256) ∧
    ∀ reg, 0x10 ≤ reg → execAll [.rdreg reg, .rdreg 1] s =
      .next ((s.respond 0x0305#16 0#256).respond 0x0000#16 0x0305#256)

/-! ## Bit strings and byte buffers -/

/-- 00_scope.md R7: val reads most significant bit first, and bits_w is its inverse. -/
def Obligations.ValAndBitsAreInverse : Prop :=
  (∀ w v, v < 2 ^ w → (bitsOf w v).length = w ∧ bitsVal (bitsOf w v) = v) ∧
  (∀ s : Bits, bitsVal s < 2 ^ s.length ∧ bitsOf s.length (bitsVal s) = s) ∧
  ∀ (s : Bits) i, i < s.length → s[i]? = some ((bitsVal s).testBit (s.length - 1 - i))

/-- 20_memory.md R62: bit address a names bit 7 - (a mod 8) of byte a div 8, ReadBits reads w bits in address order, and it
inverts the write order of R63 for every bit string and pad. -/
def Obligations.ReadBitsNamesAddressedBits : Prop :=
  (∀ (buf : List Byte) (pos w : Nat), pos + w ≤ 8 * buf.length → (readBits buf pos w).length = w ∧
    ∀ i, i < w → (readBits buf pos w)[i]? = (buf[(pos + i) / 8]?).map fun b => b.getLsbD (7 - (pos + i) % 8)) ∧
  ∀ s : Bits, readBits (bytesOf (s ++ List.replicate ((8 - s.length % 8) % 8) false)) 0 s.length = s

/-- 20_memory.md R63: byte k of BytesOf(t) has bit t_(8k+j) as its bit 7 - j. -/
def Obligations.BytesOfPacksMostSignificantFirst : Prop :=
  ∀ t : Bits, 8 ∣ t.length → (bytesOf t).length = t.length / 8 ∧
    ∀ k j, k < t.length / 8 → j < 8 → ((bytesOf t)[k]?).map (fun b => b.getLsbD (7 - j)) = t[8 * k + j]?

/-- What 20_memory.md R65 derives: one w-bit read is two reads of w1 and w2 bits, and PACK v1
then PACK v2 appends the same bits as one PACK of v1·2^w2 + v2. -/
def Obligations.MixedWidthsCompose : Prop :=
  (∀ (buf : List Byte) (p w1 w2 : Nat), p + w1 + w2 ≤ 8 * buf.length →
    bitsVal (readBits buf p (w1 + w2)) = bitsVal (readBits buf p w1) * 2 ^ w2 + bitsVal (readBits buf (p + w1) w2)) ∧
  ∀ (s : State) (w1 w2 : Nat) (v1 v2 : Value), w1 + w2 ≤ 255 → v1.toNat < 2 ^ w1 → v2.toNat < 2 ^ w2 →
    s.p.bits.length + w1 + w2 ≤ s.cfg.pCapBits →
    ∃ t1 t t', exec (.pack w1) (s.setV [v1]) = .next t1 ∧ exec (.pack w2) (t1.setV [v2]) = .next t ∧
      exec (.pack (w1 + w2)) (s.setV [BitVec.ofNat 256 (v1.toNat * 2 ^ w2 + v2.toNat)]) = .next t' ∧ t1.status = 0#16 ∧
      t.status = 0#16 ∧ t'.status = 0#16 ∧ t.p = t'.p

/-! ## The packer -/

/-- 41_packer.md R141: PACK appends the low W bits of V, V[W-1] first; VALUE_TOO_WIDE is checked before PACK_FULL, and a
failing PACK leaves P_BITS unchanged; a malformed one gives NONZERO_FIELD and consumes V, as 30_encoding.md R96 has it of
every operand (log 7). -/
def Obligations.PackAppendsBits : Prop :=
  ∀ (w : Nat) (s : State) (v : Value) (q : List Value), w ≤ 255 → s.io.v = v :: q →
    (2 ^ w ≤ v.toNat → exec (.pack w) s = .next ((s.setV q).respond 0x0101#16 0#256)) ∧
    (v.toNat < 2 ^ w → s.cfg.pCapBits < s.p.bits.length + w →
      exec (.pack w) s = .next ((s.setV q).respond 0x0106#16 0#256)) ∧
    (v.toNat < 2 ^ w → s.p.bits.length + w ≤ s.cfg.pCapBits →
      ∃ bs : Bits, bs.length = w ∧ (∀ i, i < w → bs[i]? = some (v.getLsbD (w - 1 - i))) ∧
        exec (.pack w) s = .next (((s.setV q).setPBits (s.p.bits ++ bs)).respond 0x0000#16 0#256)) ∧
    ∀ c : Word, OperandsPresented c s → c.extractLsb' 24 8 = 0x10#8 →
      c.extractLsb' 0 16 ≠ 0#16 → runWord c s = .next ((s.setV q).respond 0x0205#16 0#256)

/-- 41_packer.md R143: FLUSH emits P_BITS padded with zero bits to whole bytes, byte 0 first and most significant bit
first, empties the buffer and returns the number of bytes; that an empty buffer needs no drained port is the model's choice
(log 4, under 70_reset_and_hazards.md R324); a malformed FLUSH gives NONZERO_FIELD. -/
def Obligations.FlushEmitsPaddedBytes : Prop :=
  ∀ s : State,
    (s.p.bits = [] ∨ s.io.pReady = true →
      ∃ bytes : List Byte, 8 * bytes.length = s.p.bits.length + (8 - s.p.bits.length % 8) % 8 ∧
        (∀ a, a < 8 * bytes.length →
          (bytes[a / 8]?).map (fun b => b.getLsbD (7 - a % 8)) = some (s.p.bits.getD a false)) ∧
        exec .flush s =
          .next (((s.putP bytes).setPBits []).respond 0x0000#16 (BitVec.ofNat 256 bytes.length))) ∧
    ∀ c : Word, s.PortsClear → c.extractLsb' 24 8 = 0x11#8 →
      c.extractLsb' 0 24 ≠ 0#24 → runWord c s = .next (s.respond 0x0205#16 0#256)

/-- What PACK and FLUSH leave unchanged: the other units, the parameters, every input port but V, and D_DOUT; FLUSH takes
no V, PACK emits nothing (41_packer.md R140). -/
def Obligations.PackerCommandsFrame : Prop :=
  ∀ (i : Instr) (s t : State), (i = .flush ∨ ∃ w, i = .pack w) → exec i s = .next t →
    t.u = s.u ∧ t.d = s.d ∧ t.cfg = s.cfg ∧ t.free = s.free ∧ t.io.cmd = s.io.cmd ∧ t.io.n = s.io.n ∧
    t.io.uDin = s.io.uDin ∧ t.io.dDin = s.io.dDin ∧ t.io.pReady = s.io.pReady ∧ t.io.dReady = s.io.dReady ∧
    t.io.dDout = s.io.dDout ∧ (i = .flush → t.io.v = s.io.v) ∧ (i ≠ .flush → t.io.pDout = s.io.pDout)

/-! ## The unpacker -/

/-- 42_unpacker.md R170: ULOAD replaces the stream by the N bytes and sets U_POS to 0; above U_CAP_BYTES it fails with the
stream kept and the bytes consumed; a malformed one consumes its operands too and gives NONZERO_FIELD. -/
def Obligations.UloadReplacesStream : Prop :=
  ∀ (s : State) (n : Word) (q : List Word), s.io.n = n :: q → n.toNat ≤ s.io.uDin.length →
    let s1 := (s.setN q).setUDin (s.io.uDin.drop n.toNat)
    (s.cfg.uCapBytes < n.toNat → exec .uload s = .next (s1.respond 0x0206#16 0#256)) ∧
    (n.toNat ≤ s.cfg.uCapBytes → exec .uload s =
      .next ((s1.setU { buf := s.io.uDin.take n.toNat, pos := 0 }).respond 0x0000#16 0#256)) ∧
    ∀ c : Word, OperandsPresented c s → c.extractLsb' 24 8 = 0x20#8 →
      c.extractLsb' 0 24 ≠ 0#24 → runWord c s = .next (s1.respond 0x0205#16 0#256)

/-- 42_unpacker.md R172: UNPACK returns the next W bits right-aligned, the first in R[W-1], and advances U_POS by W; with
fewer bits left it fails, U_POS unchanged and R = 0; a malformed one gives NONZERO_FIELD. The premise is U_POS <= U_LEN,
part of the invariant. -/
def Obligations.UnpackReadsNextBits : Prop :=
  ∀ (w : Nat) (s : State), w ≤ 255 → s.u.pos ≤ 8 * s.u.buf.length →
    (8 * s.u.buf.length < s.u.pos + w → exec (.unpack w) s = .next (s.respond 0x0102#16 0#256)) ∧
    (s.u.pos + w ≤ 8 * s.u.buf.length → ∃ r : Value,
      (∀ i, i < w → (s.u.buf[(s.u.pos + i) / 8]?).map (fun b => b.getLsbD (7 - (s.u.pos + i) % 8)) =
        some (r.getLsbD (w - 1 - i))) ∧
      (∀ i, w ≤ i → r.getLsbD i = false) ∧
      exec (.unpack w) s = .next ((s.setU { buf := s.u.buf, pos := s.u.pos + w }).respond 0x0000#16 r)) ∧
    ∀ c : Word, s.PortsClear → c.extractLsb' 24 8 = 0x21#8 →
      c.extractLsb' 0 16 ≠ 0#16 → runWord c s = .next (s.respond 0x0205#16 0#256)

/-- 42_unpacker.md R173: ISEMPTY returns 1 if U_POS = 8·|U_BUF| and 0 if not, and changes no unit; a malformed one gives
NONZERO_FIELD. -/
def Obligations.IsemptyReportsUnreadBits : Prop :=
  ∀ s : State,
    (s.u.pos = 8 * s.u.buf.length → exec .isempty s = .next (s.respond 0x0000#16 1#256)) ∧
    (s.u.pos ≠ 8 * s.u.buf.length → exec .isempty s = .next (s.respond 0x0000#16 0#256)) ∧
    ∀ c : Word, s.PortsClear → c.extractLsb' 24 8 = 0x22#8 →
      c.extractLsb' 0 24 ≠ 0#24 → runWord c s = .next (s.respond 0x0205#16 0#256)

/-- What ULOAD, UNPACK and ISEMPTY leave unchanged: the other units, the parameters, the output byte ports, and every input
port but N and U_DIN, which only ULOAD takes from; UNPACK and ISEMPTY leave U_BUF, and ISEMPTY leaves U_POS
(20_memory.md R68, R60). -/
def Obligations.UnpackerCommandsFrame : Prop :=
  ∀ (i : Instr) (s t : State), (i = .uload ∨ i = .isempty ∨ ∃ w, i = .unpack w) → exec i s = .next t →
    t.p = s.p ∧ t.d = s.d ∧ t.cfg = s.cfg ∧ t.free = s.free ∧ t.io.cmd = s.io.cmd ∧ t.io.v = s.io.v ∧
    t.io.dDin = s.io.dDin ∧ t.io.pReady = s.io.pReady ∧ t.io.dReady = s.io.dReady ∧
    t.io.pDout = s.io.pDout ∧ t.io.dDout = s.io.dDout ∧
    (i ≠ .uload → t.io.n = s.io.n ∧ t.io.uDin = s.io.uDin ∧ t.u.buf = s.u.buf) ∧ (i = .isempty → t.u = s.u)

/-- What 41_packer.md R144 derives: values packed on an empty buffer, flushed, and loaded into an unpacker come back in
order from UNPACKs of the same widths; exactly the pad remains unread, so ISEMPTY then returns 0 if there is a pad and 1
if not. -/
def Obligations.PackFlushUnpackRoundTrip : Prop :=
  ∀ (ws : List (Nat × Value)) (s s' : State), (∀ x ∈ ws, x.1 ≤ 255 ∧ x.2.toNat < 2 ^ x.1) →
    let total := (ws.map Prod.fst).sum
    let pad := (8 - total % 8) % 8
    s.PortsClear → s.p.bits = [] → total ≤ s.cfg.pCapBits → s.cfg.InRange → s.io.pReady = true →
    ∃ t bytes, runAll (ws.map (fun x => packTransaction x.1 x.2) ++ [plainTransaction .flush]) s = .next t ∧
      t.io.pDout = s.io.pDout ++ bytes ∧ 8 * bytes.length = total + pad ∧
      (s'.PortsClear → bytes.length ≤ s'.cfg.uCapBytes →
        ∃ t', runAll (uloadTransaction bytes :: ws.map (fun x => plainTransaction (.unpack x.1)) ++
            [plainTransaction .isempty]) s' = .next t' ∧
          t'.io.resp = s'.io.resp ++ [⟨0x0000#16, 0#256⟩] ++ ws.map (fun x => ⟨0x0000#16, x.2⟩) ++
            [⟨0x0000#16, if pad = 0 then 1#256 else 0#256⟩] ∧
          8 * t'.u.buf.length - t'.u.pos = pad)

/-! ## The decoder: loading and steps -/

/-- 43_decoder.md R201: DLOAD, legal in every D_STATE, loads the blob and starts a fresh decode in HDR_COUNT with every
other decoder component empty or zero; above D_CAP_BYTES the decoder is unchanged and the bytes are consumed; a malformed
one consumes its operands too and gives NONZERO_FIELD. -/
def Obligations.DloadStartsFreshDecode : Prop :=
  ∀ (s : State) (n : Word) (q : List Word), s.io.n = n :: q → n.toNat ≤ s.io.dDin.length →
    let s1 := (s.setN q).setDDin (s.io.dDin.drop n.toNat)
    (s.cfg.dCapBytes < n.toNat → exec .dload s = .next (s1.respond 0x0306#16 0#256)) ∧
    (n.toNat ≤ s.cfg.dCapBytes → exec .dload s = .next ((s1.setD
      { state := .hdrCount, buf := s.io.dDin.take n.toNat, pos := 0, nsym := 0, entry := 0, cursym := 0#8, curlen := 0#8,
        table := [], total := 0#32, emit := 0#32, scr := [], out := [], errk := 0#8, errs := 0#8 }).respond
        0x0000#16 0#256)) ∧
    ∀ c : Word, OperandsPresented c s → c.extractLsb' 24 8 = 0x30#8 →
      c.extractLsb' 0 24 ≠ 0#24 → runWord c s = .next (s1.respond 0x0205#16 0#256)

/-- DSTEP and DRUN fail with BAD_STATE and change nothing else in IDLE, DONE and ERROR (43_decoder.md R202, R209); with a
non-zero field they fail with NONZERO_FIELD in every phase. -/
def Obligations.RestPhasesRefuseToStep : Prop :=
  ∀ (s : State) (i : Instr), (i = .dstep ∨ i = .drun) →
    (s.d.state = .idle ∨ s.d.state = .done ∨ s.d.state = .error →
      exec i s = .next (s.respond 0x0405#16 0#256)) ∧
    ∀ c : Word, s.PortsClear →
      (c.extractLsb' 24 8 = 0x31#8 ∨ c.extractLsb' 24 8 = 0x32#8) → c.extractLsb' 0 24 ≠ 0#24 →
      runWord c s = .next (s.respond 0x0205#16 0#256)

/-- 43_decoder.md R203: the HDR_COUNT step. -/
def Obligations.DstepReadsSymbolCount : Prop :=
  ∀ s : State, s.d.state = .hdrCount →
    (8 * s.d.buf.length < s.d.pos + 8 → exec .dstep s =
      .next ((s.setD { s.d with state := .error, errk := 0x04#8, errs := 0x01#8 }).respond 0x0104#16 0#256)) ∧
    (s.d.pos + 8 ≤ 8 * s.d.buf.length → ∃ c, c = bitsVal (readBits s.d.buf s.d.pos 8) ∧ c ≤ 255 ∧ exec .dstep s =
      .next ((s.setD { s.d with pos := s.d.pos + 8, nsym := c + 1, entry := 0, table := [], state := .hdrSym }).respond
        0x0000#16 0#256))

/-- 43_decoder.md R204: the HDR_SYM step; every byte is accepted as a symbol. -/
def Obligations.DstepReadsSymbol : Prop :=
  ∀ s : State, s.d.state = .hdrSym →
    (8 * s.d.buf.length < s.d.pos + 8 → exec .dstep s =
      .next ((s.setD { s.d with state := .error, errk := 0x04#8, errs := 0x01#8 }).respond 0x0104#16 0#256)) ∧
    (s.d.pos + 8 ≤ 8 * s.d.buf.length → ∃ x : Byte, x.toNat = bitsVal (readBits s.d.buf s.d.pos 8) ∧ exec .dstep s =
      .next ((s.setD { s.d with pos := s.d.pos + 8, cursym := x, state := .hdrLen }).respond 0x0000#16 0#256))

/-- 43_decoder.md R205: the HDR_LEN step; a length of 0 fails with ZERO_LEN, D_POS being past the field. -/
def Obligations.DstepReadsCodeLength : Prop :=
  ∀ s : State, s.d.state = .hdrLen →
    (8 * s.d.buf.length < s.d.pos + 8 → exec .dstep s =
      .next ((s.setD { s.d with state := .error, errk := 0x04#8, errs := 0x01#8 }).respond 0x0104#16 0#256)) ∧
    (s.d.pos + 8 ≤ 8 * s.d.buf.length → bitsVal (readBits s.d.buf s.d.pos 8) = 0 → exec .dstep s =
      .next ((s.setD { s.d with pos := s.d.pos + 8, state := .error, errk := 0x04#8, errs := 0x02#8 }).respond
        0x0204#16 0#256)) ∧
    (s.d.pos + 8 ≤ 8 * s.d.buf.length → bitsVal (readBits s.d.buf s.d.pos 8) ≠ 0 →
      ∃ len : Byte, len.toNat = bitsVal (readBits s.d.buf s.d.pos 8) ∧ exec .dstep s =
        .next ((s.setD { s.d with pos := s.d.pos + 8, curlen := len, state := .hdrCode }).respond 0x0000#16 0#256))

/-- 43_decoder.md R206: the HDR_CODE step; a second entry with the same code fails with DUP_CODE under the policy fault,
D_POS being past the field, and is kept under the other two. The premise D_CURLEN ≠ 0 is part of the invariant. -/
def Obligations.DstepReadsCodeValue : Prop :=
  ∀ s : State, s.d.state = .hdrCode → s.d.curlen ≠ 0#8 →
    let len := s.d.curlen.toNat
    let v := bitsVal (readBits s.d.buf s.d.pos len)
    let dup : Prop := s.cfg.dupCodePolicy = .fault ∧ ∃ e ∈ s.d.table, e.len = len ∧ e.val = v
    (8 * s.d.buf.length < s.d.pos + len → exec .dstep s =
      .next ((s.setD { s.d with state := .error, errk := 0x04#8, errs := 0x01#8 }).respond 0x0104#16 0#256)) ∧
    (s.d.pos + len ≤ 8 * s.d.buf.length → dup → exec .dstep s =
      .next ((s.setD { s.d with pos := s.d.pos + len, state := .error, errk := 0x04#8, errs := 0x03#8 }).respond
        0x0304#16 0#256)) ∧
    (s.d.pos + len ≤ 8 * s.d.buf.length → ¬ dup → exec .dstep s =
      .next ((s.setD { s.d with
        pos := s.d.pos + len
        table := s.d.table ++ [{ sym := s.d.cursym, len := len, val := v }]
        entry := s.d.entry + 1
        state := if s.d.entry + 1 = s.d.nsym then .total else .hdrSym }).respond 0x0000#16 0#256))

/-- 43_decoder.md R207: the TOTAL step; total_symbols = 0 ends the decode at once. -/
def Obligations.DstepReadsTotalSymbols : Prop :=
  ∀ s : State, s.d.state = .total →
    (8 * s.d.buf.length < s.d.pos + 32 → exec .dstep s =
      .next ((s.setD { s.d with state := .error, errk := 0x04#8, errs := 0x01#8 }).respond 0x0104#16 0#256)) ∧
    (s.d.pos + 32 ≤ 8 * s.d.buf.length → ∃ n : Word, n.toNat = bitsVal (readBits s.d.buf s.d.pos 32) ∧ exec .dstep s =
      .next ((s.setD { s.d with
        pos := s.d.pos + 32
        total := n
        emit := 0#32
        scr := []
        state := if n = 0#32 then .done else .payload }).respond 0x0000#16 0#256))

/-- The PAYLOAD step of 43_decoder.md R208: one bit is read and looked up with the scratch string; a match emits one symbol
on D_DOUT and in D_OUT, and the last one ends the decode; without a match the 256th bit fails with NO_MATCH. A step that
emits needs D_DOUT drained (70_reset_and_hazards.md R324). The premise D_EMIT < D_TOTAL is part of the invariant. -/
def Obligations.DstepReadsPayloadBit : Prop :=
  ∀ s : State, s.d.state = .payload → s.d.emit.toNat < s.d.total.toNat →
    let scr := s.d.scr ++ [bitAt s.d.buf s.d.pos]
    let found := lookup s.cfg.dupCodePolicy s.d.table scr
    (8 * s.d.buf.length < s.d.pos + 1 → exec .dstep s =
      .next ((s.setD { s.d with state := .error, errk := 0x04#8, errs := 0x04#8 }).respond 0x0404#16 0#256)) ∧
    (s.d.pos + 1 ≤ 8 * s.d.buf.length → found = none → s.d.scr.length < 255 → exec .dstep s =
      .next ((s.setD { s.d with pos := s.d.pos + 1, scr := scr }).respond 0x0000#16 0#256)) ∧
    (s.d.pos + 1 ≤ 8 * s.d.buf.length → found = none → 255 ≤ s.d.scr.length → exec .dstep s =
      .next ((s.setD { s.d with pos := s.d.pos + 1, scr := scr, state := .error, errk := 0x04#8, errs := 0x05#8 }).respond
        0x0504#16 0#256)) ∧
    (∀ x, s.d.pos + 1 ≤ 8 * s.d.buf.length → found = some x → s.io.dReady = true → ∃ emit : Word,
      emit.toNat = s.d.emit.toNat + 1 ∧ exec .dstep s =
      .next (((s.setD { s.d with
        pos := s.d.pos + 1
        out := s.d.out ++ [x]
        emit := emit
        scr := []
        state := if s.d.emit.toNat + 1 = s.d.total.toNat then .done else .payload }).putD [x]).respond 0x0000#16 0#256))

/-! ## The decoder: whole decodes -/

/-- 43_decoder.md R210: from every state in which a decode runs, D_DOUT being drained (undrained, DRUN may be stuck: R324),
DRUN completes, in DONE or ERROR, and does what at most 770 + 8·|D_BUF| DSTEPs do one after the other: the same decoder, the
same bytes on D_DOUT, the same status. R210 says so of a run from HDR_COUNT; the other running phases are the model's
inference (log 9). -/
def Obligations.DrunEndsWithinBound : Prop :=
  ∀ s : State, phaseAtRest s.d.state = false → s.io.dReady = true →
    ∃ n t u, 1 ≤ n ∧ n ≤ 770 + 8 * s.d.buf.length ∧ exec .drun s = .next t ∧ (t.d.state = .done ∨ t.d.state = .error) ∧
      execAll (List.replicate n .dstep) s = .next u ∧ u.d = t.d ∧ u.io.dDout = t.io.dDout ∧ u.status = t.status

/-- 43_decoder.md R202: "Any sequence of DSTEPs that reaches DONE or ERROR gives the same state as one DRUN from the same
starting state", STATUS and responses apart. -/
def Obligations.DstepsReachWhatDrunReaches : Prop :=
  ∀ (n : Nat) (s t u : State), phaseAtRest s.d.state = false → execAll (List.replicate n .dstep) s = .next u →
    (u.d.state = .done ∨ u.d.state = .error) → exec .drun s = .next t →
    t.d = u.d ∧ t.io.dDout = u.io.dDout ∧ t.p = u.p ∧ t.u = u.u ∧ t.io.pDout = u.io.pDout

/-- 43_decoder.md R211 and R209: a DRUN from a legal running state ends OK exactly in DONE, with |D_OUT| = D_TOTAL and
R = D_TOTAL; otherwise it ends in ERROR with MALFORMED_INPUT, D_ERRS as the subcode, and R = 0. -/
def Obligations.DrunOutputValidOnlyInDone : Prop :=
  ∀ s t : State, StateInv s → phaseAtRest s.d.state = false → exec .drun s = .next t →
    (t.d.state = .done ∧ t.d.out.length = t.d.total.toNat ∧ t.status = 0x0000#16 ∧
      t.io.resp = s.io.resp ++ [⟨0x0000#16, BitVec.ofNat 256 t.d.total.toNat⟩]) ∨
    (t.d.state = .error ∧ t.d.errk = 0x04#8 ∧ t.status = t.d.errs ++ 0x04#8 ∧
      t.io.resp = s.io.resp ++ [⟨t.d.errs ++ 0x04#8, 0#256⟩])

/-- What DLOAD, DSTEP and DRUN leave unchanged: the other units, the parameters, P_DOUT, and every input port but N and
D_DIN, which only DLOAD takes from; DSTEP and DRUN leave the blob, and place on D_DOUT exactly the symbols they add to
D_OUT (10_state.md R30, 20_memory.md R71). -/
def Obligations.DecoderCommandsFrame : Prop :=
  ∀ (i : Instr) (s t : State), (i = .dload ∨ i = .dstep ∨ i = .drun) → exec i s = .next t →
    t.p = s.p ∧ t.u = s.u ∧ t.cfg = s.cfg ∧ t.free = s.free ∧ t.io.cmd = s.io.cmd ∧ t.io.v = s.io.v ∧
    t.io.uDin = s.io.uDin ∧ t.io.pReady = s.io.pReady ∧ t.io.dReady = s.io.dReady ∧ t.io.pDout = s.io.pDout ∧
    (i = .dload → t.io.dDout = s.io.dDout) ∧
    (i ≠ .dload → t.io.n = s.io.n ∧ t.io.dDin = s.io.dDin ∧ t.d.buf = s.d.buf ∧
      ∃ new, t.d.out = s.d.out ++ new ∧ t.io.dDout = s.io.dDout ++ new)

/-- 43_decoder.md R215, 30_encoding.md R104: the bits behind the end of the decode, padding bits of its last byte and bytes
behind it, are never examined. A DRUN that ends in DONE does the same on every blob, shorter, longer or of the same length,
that reaches D_POS and has the same bits between the two cursors; in particular on the blob with more bytes behind it.
Runs by DSTEP come under it through DstepsReachWhatDrunReaches. -/
def Obligations.TrailingBytesNeverRead : Prop :=
  ∀ (s t : State), exec .drun s = .next t → t.d.state = .done →
    let bit := fun (buf : List Byte) (a : Nat) => (buf[a / 8]?).map fun b => b.getLsbD (7 - a % 8)
    (∀ blob : List Byte, t.d.pos ≤ 8 * blob.length →
      (∀ a, s.d.pos ≤ a → a < t.d.pos → bit blob a = bit s.d.buf a) →
      exec .drun (s.setD { s.d with buf := blob }) = .next (t.setD { t.d with buf := blob })) ∧
    ∀ more : List Byte,
      exec .drun (s.setD { s.d with buf := s.d.buf ++ more }) = .next (t.setD { t.d with buf := t.d.buf ++ more })

/-- 43_decoder.md R216: a table of the one code "0" for x: a payload bit 0 emits x, and after a payload bit 1 nothing
matches: DRUN fails with NO_MATCH after 256 bits, or with PAYLOAD_EXHAUSTED when the blob has no 256th. -/
def Obligations.OneSymbolTableDecodes : Prop :=
  (∀ (policy : DupCodePolicy) (x : Byte) (scr : Bits),
    lookup policy [{ sym := x, len := 1, val := 0 }] scr = if scr = [false] then some x else none) ∧
  ∀ (s : State) (x : Byte), s.d.state = .payload → s.d.table = [{ sym := x, len := 1, val := 0 }] → s.d.scr = [] →
    s.d.pos < 8 * s.d.buf.length → bitAt s.d.buf s.d.pos = true →
    ∃ t, exec .drun s = .next t ∧ t.d.state = .error ∧ t.d.out = s.d.out ∧
      (s.d.pos + 256 ≤ 8 * s.d.buf.length →
        t.status = 0x0504#16 ∧ t.d.pos = s.d.pos + 256 ∧ t.d.scr.length = 256) ∧
      (8 * s.d.buf.length < s.d.pos + 256 →
        t.status = 0x0404#16 ∧ t.d.pos = 8 * s.d.buf.length ∧ t.d.scr.length = 8 * s.d.buf.length - s.d.pos)

/-! ## The lookup and the trie -/

/-- 43_decoder.md R212: Lookup answers none exactly when no entry has the string's length and value, and otherwise the
symbol of the first such entry in table order, of the last under last_wins; in a legal decoder under the policy fault there
is at most one. -/
def Obligations.LookupFindsCode : Prop :=
  (∀ (policy : DupCodePolicy) (table : List Entry) (s : Bits),
    let hit : Entry → Prop := fun e => e.len = s.length ∧ e.val = bitsVal s
    (lookup policy table s = none ↔ ∀ e ∈ table, ¬ hit e) ∧
    (policy ≠ .lastWins → ∀ x, lookup policy table s = some x ↔
      ∃ before e after, table = before ++ e :: after ∧ hit e ∧ e.sym = x ∧ ∀ e' ∈ before, ¬ hit e') ∧
    (∀ x, lookup .lastWins table s = some x ↔
      ∃ before e after, table = before ++ e :: after ∧ hit e ∧ e.sym = x ∧ ∀ e' ∈ after, ¬ hit e')) ∧
  ∀ (c : Config) (d : Decoder) (s : Bits), DecoderInv c d → c.dupCodePolicy = .fault →
    (d.table.filter (entryMatches s)).length ≤ 1

/-- 43_decoder.md R213: the shorter code always matches first. A TOTAL step starts with, and every PAYLOAD step keeps, a
scratch string of which no beginning is a code; so where one code of the table is a proper beginning of another, no
PAYLOAD step ever looks the longer one up. -/
def Obligations.ShorterCodeMatchesFirst : Prop :=
  ∀ (policy : DupCodePolicy) (d : Decoder),
    (d.state = .total → (decoderStep policy d).err = none →
      NoCodeBegins policy (decoderStep policy d).d.table (decoderStep policy d).d.scr) ∧
    (d.state = .payload → NoCodeBegins policy d.table d.scr →
      NoCodeBegins policy (decoderStep policy d).d.table (decoderStep policy d).d.scr) ∧
    (NoCodeBegins policy d.table d.scr → ∀ (a b : Entry) (bit : Bool), a ∈ d.table → EntryInRange a →
      entryCode a <+: entryCode b → a.len < b.len → d.scr ++ [bit] ≠ entryCode b)

/-- 43_decoder.md R214: the trie built from a table of legal entries carries at the node of a string exactly the symbol
that Lookup answers, under each policy. -/
def Obligations.TrieWalkAgreesWithLookup : Prop :=
  ∀ (policy : DupCodePolicy) (table : List Entry) (s : Bits), (∀ e ∈ table, EntryInRange e) →
    trieSym (trieWalk s (trieOfTable policy table)) = lookup policy table s

/-- 43_decoder.md R214: a trie decoder that stands at the node of D_SCR gives the same D_STATE, D_POS, D_EMIT, D_OUT,
|D_SCR|, D_ERRK and D_ERRS after a PAYLOAD step as the table, and stands at the node of the new D_SCR; in particular its
dead state reads on until 256 bits. -/
def Obligations.TrieStepConforms : Prop :=
  ∀ (policy : DupCodePolicy) (d : Decoder) (cur : TrieCursor), d.state = .payload → (∀ e ∈ d.table, EntryInRange e) →
    let root := trieOfTable policy d.table
    cur.node = trieWalk d.scr root → cur.depth = d.scr.length →
    let r := trieStep root cur d
    let o := decoderStep policy d
    r.1.node = trieWalk o.d.scr root ∧ r.1.depth = o.d.scr.length ∧ r.2.emitted = o.emitted ∧ r.2.err = o.err ∧
    r.2.d = { o.d with scr := d.scr }

/-! ## The container format -/

/-- 30_encoding.md R99 to R101: the fields of a blob stand at the bit addresses of R100, each most significant bit first, and
behind the payload stand zero bits to the end of the last byte, 0 to 7 of them. That the payload uses the first code of a
symbol that has several is the model's choice (log 21). -/
def Obligations.ContainerFieldsAtOffsets : Prop :=
  ∀ c : Container, ContainerInRange c →
    let b := containerBytes c
    let o := entryOffset c.entries
    bitsVal (readBits b 0 8) = c.entries.length - 1 ∧
    (∀ i e, c.entries[i]? = some e → bitsVal (readBits b (o i) 8) = e.sym.toNat ∧
      bitsVal (readBits b (o i + 8) 8) = e.len ∧ bitsVal (readBits b (o i + 16) e.len) = e.val ∧
      o (i + 1) = o i + 16 + e.len) ∧
    bitsVal (readBits b (o c.entries.length) 32) = c.symbols.length ∧
    readBits b (o c.entries.length + 32) (payloadBits c).length = payloadBits c ∧
    b.length = (o c.entries.length + 32 + (payloadBits c).length + 7) / 8 ∧
    8 * b.length < o c.entries.length + 32 + (payloadBits c).length + 8 ∧
    ∀ a, o c.entries.length + 32 + (payloadBits c).length ≤ a → a < 8 * b.length →
      (b[a / 8]?).map (fun x => x.getLsbD (7 - a % 8)) = some false

/-- The decoder inverts the container format: DLOAD and DRUN of the blob of a prefix-free table and any string of coded
symbols end in DONE with exactly those symbols in D_OUT and on D_DOUT, under each policy (43_decoder.md R208, R211, R212;
95_test_vectors.md W1). That the payload uses the first code of a symbol that has several is the model's choice (log 21). -/
def Obligations.ContainerDecodesToItsSymbols : Prop :=
  ∀ (c : Container) (s : State), ContainerInRange c → PrefixFree c.entries →
    let b := containerBytes c
    b.length < 2 ^ 32 → b.length ≤ s.cfg.dCapBytes → s.PortsClear → s.io.dReady = true →
    ∃ t, runAll [dloadTransaction b, plainTransaction .drun] s = .next t ∧ t.status = 0x0000#16 ∧ t.d.state = .done ∧
      t.d.out = c.symbols ∧ t.io.dDout = s.io.dDout ++ c.symbols ∧ t.d.table = c.entries ∧
      t.d.pos = entryOffset c.entries c.entries.length + 32 + (payloadBits c).length ∧
      t.io.resp = s.io.resp ++ [⟨0x0000#16, 0#256⟩, ⟨0x0000#16, BitVec.ofNat 256 c.symbols.length⟩]

/-! ## The assembly language -/

/-- 30_encoding.md R105: the assembler refuses a w or reg outside 0..255 and a v of 2^256 or more, and accepts the others;
each accepted line stands for the command word of the table and its operands; the pseudo-instructions of R106 stand for
their expansions, and are refused with them. That it refuses a byte list with an item above 255, or of 2^32 items or more, is the model's choice
(log 19). -/
def Obligations.AssemblerRefusesOutOfRange : Prop :=
  (∀ w v, (assemble (.pack w v)).isSome = true ↔ w ≤ 255 ∧ v < 2 ^ 256) ∧
  (∀ w, (assemble (.unpack w)).isSome = true ↔ w ≤ 255) ∧
  (∀ reg, (assemble (.rdreg reg)).isSome = true ↔ reg ≤ 255) ∧
  (∀ bytes, let ok : Prop := (∀ b ∈ bytes, b ≤ 255) ∧ bytes.length < 2 ^ 32
    ((assemble (.uload bytes)).isSome = true ↔ ok) ∧ ((assemble (.dload bytes)).isSome = true ↔ ok) ∧
    ((assemble (.decode bytes)).isSome = true ↔ ok)) ∧
  (∀ bits, (assemble (.packs bits)).isSome = true ↔ bits.length ≤ 255) ∧
  (let plain := fun (l : AsmLine) (c : Word) => assemble l = some [{ cmd := c, v := [], n := [], uDin := [], dDin := [] }]
   plain .nop 0x00000000#32 ∧ plain .sreset 0x01000000#32 ∧ plain .flush 0x11000000#32 ∧ plain .isempty 0x22000000#32 ∧
   plain .dstep 0x31000000#32 ∧ plain .drun 0x32000000#32 ∧
   (∀ reg, reg ≤ 255 → plain (.rdreg reg) (0x02000000#32 ||| BitVec.ofNat 32 reg <<< 8)) ∧
   (∀ w, w ≤ 255 → plain (.unpack w) (0x21000000#32 ||| BitVec.ofNat 32 w <<< 16)) ∧
   plain (.rdregNamed .id) 0x02000000#32 ∧ plain (.rdregNamed .status) 0x02000100#32 ∧
   plain (.rdregNamed .pLen) 0x02000200#32 ∧ plain (.rdregNamed .uLen) 0x02000300#32 ∧
   plain (.rdregNamed .uPos) 0x02000400#32 ∧ plain (.rdregNamed .dStat) 0x02000500#32 ∧
   plain (.rdregNamed .dNsym) 0x02000600#32 ∧ plain (.rdregNamed .dEntry) 0x02000700#32 ∧
   plain (.rdregNamed .dTotal) 0x02000800#32 ∧ plain (.rdregNamed .dEmit) 0x02000900#32 ∧
   plain (.rdregNamed .dLen) 0x02000A00#32 ∧ plain (.rdregNamed .dPos) 0x02000B00#32 ∧
   plain (.rdregNamed .dScrlen) 0x02000C00#32 ∧ plain (.rdregNamed .pCap) 0x02000D00#32 ∧
   plain (.rdregNamed .uCap) 0x02000E00#32 ∧ plain (.rdregNamed .dCap) 0x02000F00#32) ∧
  (∀ w v, w ≤ 255 → v < 2 ^ 256 → assemble (.pack w v) = some [{
    cmd := 0x10000000#32 ||| BitVec.ofNat 32 w <<< 16, v := [BitVec.ofNat 256 v], n := [], uDin := [], dDin := [] }]) ∧
  (∀ bytes, (∀ b ∈ bytes, b ≤ 255) → bytes.length < 2 ^ 32 →
    assemble (.uload bytes) = some [{
      cmd := 0x20000000#32, v := [], n := [BitVec.ofNat 32 bytes.length], uDin := bytes.map (BitVec.ofNat 8), dDin := [] }] ∧
    assemble (.dload bytes) = some [{
      cmd := 0x30000000#32, v := [], n := [BitVec.ofNat 32 bytes.length], uDin := [], dDin := bytes.map (BitVec.ofNat 8) }]) ∧
  (∀ bits, assemble (.packs bits) = assemble (.pack bits.length (bitsVal bits))) ∧
  (∀ bytes, assemble (.decode bytes) =
    (assemble (.dload bytes)).bind fun a => (assemble .drun).map fun b => a ++ b) ∧
  assemble .clrstat = assemble .nop ∧ assemble .rdstat = assemble (.rdregNamed .status)

/-- Every line the assembler accepts runs, in every state of the block: issued by a host that drains both output ports, on
clear command and operand ports, each of its transactions completes with one response, and nothing is left on the ports
(30_encoding.md R96, R105; 70_reset_and_hazards.md R322, R324). What the ports hold after reset is not used (log 1, 3, 4,
5): the premises say what is needed of them. -/
def Obligations.AssembledLinesComplete : Prop :=
  ∀ (l : AsmLine) (ts : List Transaction) (s : State), assemble l = some ts →
    s.io.cmd = [] → s.PortsClear → s.io.pReady = true → s.io.dReady = true →
    ∃ t, Host.Core.run Sys2Proof.core ts.length (s.issueAll ts) = .next t ∧
      t.io.resp.length = s.io.resp.length + ts.length ∧ s.io.resp <+: t.io.resp ∧ t.io.cmd = [] ∧ t.io.v = [] ∧
      t.io.n = [] ∧ t.io.uDin = [] ∧ t.io.dDin = []

/-- Numbers of 30_encoding.md R105: a non-empty string of digits reads as its value, in decimal, after 0x in hexadecimal,
after 0b in binary. A hexadecimal digit may be capital, as in the spec's own examples, or small; that small ones are read,
and that the prefixes are small, is the model's choice (log 19). -/
def Obligations.AssemblyNumbersRead : Prop :=
  let digit := fun (x : Nat × Bool) => if x.2 then (Nat.digitChar x.1).toUpper else Nat.digitChar x.1
  let reads := fun (base : Nat) (start : String) => ∀ ds : List (Nat × Bool), ds ≠ [] → (∀ x ∈ ds, x.1 < base) →
    numberVal (start.toList ++ ds.map digit) = some (Nat.ofDigits base (ds.map Prod.fst).reverse)
  reads 10 "" ∧ reads 16 "0x" ∧ reads 2 "0b"

/-- The lines of 30_encoding.md R105 and R106 as text: a mnemonic alone, or with operands separated by commas, byte lists in
brackets and bit strings in quotes; RDREG takes each of the sixteen names of 10_state.md R31. Where blanks may stand is the model's choice (log 19); here one stands after the
mnemonic and after each comma. -/
def Obligations.AssemblyTextStandsForLines : Prop :=
  (∀ (a b : List Char) (n v : Nat), numberVal a = some n → numberVal b = some v →
    parseLine ("PACK ".toList ++ a ++ ", ".toList ++ b) = some (.pack n v) ∧
    parseLine ("UNPACK ".toList ++ a) = some (.unpack n) ∧ parseLine ("RDREG ".toList ++ a) = some (.rdreg n)) ∧
  (∀ (texts : List (List Char)) (bytes : List Nat), texts.map numberVal = bytes.map some →
    let items := '[' :: List.intercalate ", ".toList texts ++ [']']
    parseLine ("ULOAD ".toList ++ items) = some (.uload bytes) ∧
    parseLine ("DLOAD ".toList ++ items) = some (.dload bytes) ∧
    parseLine ("DECODE ".toList ++ items) = some (.decode bytes)) ∧
  (∀ bits : Bits, parseLine ("PACKS ".toList ++ '"' :: bits.map (fun b => if b then '1' else '0') ++ ['"']) =
    some (.packs bits)) ∧
  (let names : List (String × Reg) :=
     [("ID", .id), ("STATUS", .status), ("P_LEN", .pLen), ("U_LEN", .uLen), ("U_POS", .uPos), ("D_STAT", .dStat),
      ("D_NSYM", .dNsym), ("D_ENTRY", .dEntry), ("D_TOTAL", .dTotal), ("D_EMIT", .dEmit), ("D_LEN", .dLen),
      ("D_POS", .dPos), ("D_SCRLEN", .dScrlen), ("P_CAP", .pCap), ("U_CAP", .uCap), ("D_CAP", .dCap)]
   ∀ x ∈ names, parseLine ("RDREG ".toList ++ x.1.toList) = some (.rdregNamed x.2)) ∧
  [parseLine "NOP".toList, parseLine "SRESET".toList, parseLine "FLUSH".toList, parseLine "ISEMPTY".toList,
    parseLine "DSTEP".toList, parseLine "DRUN".toList, parseLine "CLRSTAT".toList, parseLine "RDSTAT".toList] =
    [some .nop, some .sreset, some .flush, some .isempty, some .dstep, some .drun, some .clrstat, some .rdstat]

/-! ## Obligations of the host -/

/-- 70_reset_and_hazards.md R324, obligation 1: the host presents exactly the operands the opcode requires. A transaction
with more, a value, a count or a byte beyond them, has no step, whether its word is a command, malformed or reserved; the
model stops it under a name of its own (log 3), also where power-on reset cuts the transaction off (log 10). -/
def Obligations.SurplusOperandsStop : Prop :=
  let more : Word → State → Prop := fun c s =>
    let opc := c.extractLsb' 24 8
    (opc ≠ 0x10#8 ∧ s.io.v ≠ []) ∨ 1 < s.io.v.length ∨ (opc ≠ 0x20#8 ∧ opc ≠ 0x30#8 ∧ s.io.n ≠ []) ∨ 1 < s.io.n.length ∨
    (opc ≠ 0x20#8 ∧ s.io.uDin ≠ []) ∨ (opc ≠ 0x30#8 ∧ s.io.dDin ≠ []) ∨
    ∃ n ∈ s.io.n, (opc = 0x20#8 ∧ n.toNat < s.io.uDin.length) ∨ (opc = 0x30#8 ∧ n.toNat < s.io.dDin.length)
  ∀ s : State, (∀ c, more c s → runWord c s = .fault .surplusOperands) ∧
    ∀ (x : Transaction) (q : List HostAction), s.io.cmd = .command x :: q ∨ s.io.cmd = .commandCutByReset x :: q →
      more x.cmd (s.present x) → step s = .fault .surplusOperands
end

