-- ==== Sys2Proof/Laws/State.lean ====
section
/-! SUPPORT. One lemma per field and update of State, each true by rfl, so that no later proof unfolds a record update.
An update that leaves all ports alone has one lemma for `io`; an update of a port has one lemma per port. -/

namespace Sys2Proof.Machine.State

variable (s : State)

/-! ## setCmd -/

@[simp] theorem setCmd_cfg (q : List HostAction) : (s.setCmd q).cfg = s.cfg := rfl
@[simp] theorem setCmd_status (q : List HostAction) : (s.setCmd q).status = s.status := rfl
@[simp] theorem setCmd_p (q : List HostAction) : (s.setCmd q).p = s.p := rfl
@[simp] theorem setCmd_u (q : List HostAction) : (s.setCmd q).u = s.u := rfl
@[simp] theorem setCmd_d (q : List HostAction) : (s.setCmd q).d = s.d := rfl
@[simp] theorem setCmd_free (q : List HostAction) : (s.setCmd q).free = s.free := rfl
@[simp] theorem setCmd_cmd (q : List HostAction) : (s.setCmd q).io.cmd = q := rfl
@[simp] theorem setCmd_v (q : List HostAction) : (s.setCmd q).io.v = s.io.v := rfl
@[simp] theorem setCmd_n (q : List HostAction) : (s.setCmd q).io.n = s.io.n := rfl
@[simp] theorem setCmd_uDin (q : List HostAction) : (s.setCmd q).io.uDin = s.io.uDin := rfl
@[simp] theorem setCmd_dDin (q : List HostAction) : (s.setCmd q).io.dDin = s.io.dDin := rfl
@[simp] theorem setCmd_pReady (q : List HostAction) : (s.setCmd q).io.pReady = s.io.pReady := rfl
@[simp] theorem setCmd_dReady (q : List HostAction) : (s.setCmd q).io.dReady = s.io.dReady := rfl
@[simp] theorem setCmd_pDout (q : List HostAction) : (s.setCmd q).io.pDout = s.io.pDout := rfl
@[simp] theorem setCmd_dDout (q : List HostAction) : (s.setCmd q).io.dDout = s.io.dDout := rfl
@[simp] theorem setCmd_resp (q : List HostAction) : (s.setCmd q).io.resp = s.io.resp := rfl

/-! ## setV -/

@[simp] theorem setV_cfg (q : List Value) : (s.setV q).cfg = s.cfg := rfl
@[simp] theorem setV_status (q : List Value) : (s.setV q).status = s.status := rfl
@[simp] theorem setV_p (q : List Value) : (s.setV q).p = s.p := rfl
@[simp] theorem setV_u (q : List Value) : (s.setV q).u = s.u := rfl
@[simp] theorem setV_d (q : List Value) : (s.setV q).d = s.d := rfl
@[simp] theorem setV_free (q : List Value) : (s.setV q).free = s.free := rfl
@[simp] theorem setV_cmd (q : List Value) : (s.setV q).io.cmd = s.io.cmd := rfl
@[simp] theorem setV_v (q : List Value) : (s.setV q).io.v = q := rfl
@[simp] theorem setV_n (q : List Value) : (s.setV q).io.n = s.io.n := rfl
@[simp] theorem setV_uDin (q : List Value) : (s.setV q).io.uDin = s.io.uDin := rfl
@[simp] theorem setV_dDin (q : List Value) : (s.setV q).io.dDin = s.io.dDin := rfl
@[simp] theorem setV_pReady (q : List Value) : (s.setV q).io.pReady = s.io.pReady := rfl
@[simp] theorem setV_dReady (q : List Value) : (s.setV q).io.dReady = s.io.dReady := rfl
@[simp] theorem setV_pDout (q : List Value) : (s.setV q).io.pDout = s.io.pDout := rfl
@[simp] theorem setV_dDout (q : List Value) : (s.setV q).io.dDout = s.io.dDout := rfl
@[simp] theorem setV_resp (q : List Value) : (s.setV q).io.resp = s.io.resp := rfl

/-! ## setN -/

@[simp] theorem setN_cfg (q : List Word) : (s.setN q).cfg = s.cfg := rfl
@[simp] theorem setN_status (q : List Word) : (s.setN q).status = s.status := rfl
@[simp] theorem setN_p (q : List Word) : (s.setN q).p = s.p := rfl
@[simp] theorem setN_u (q : List Word) : (s.setN q).u = s.u := rfl
@[simp] theorem setN_d (q : List Word) : (s.setN q).d = s.d := rfl
@[simp] theorem setN_free (q : List Word) : (s.setN q).free = s.free := rfl
@[simp] theorem setN_cmd (q : List Word) : (s.setN q).io.cmd = s.io.cmd := rfl
@[simp] theorem setN_v (q : List Word) : (s.setN q).io.v = s.io.v := rfl
@[simp] theorem setN_n (q : List Word) : (s.setN q).io.n = q := rfl
@[simp] theorem setN_uDin (q : List Word) : (s.setN q).io.uDin = s.io.uDin := rfl
@[simp] theorem setN_dDin (q : List Word) : (s.setN q).io.dDin = s.io.dDin := rfl
@[simp] theorem setN_pReady (q : List Word) : (s.setN q).io.pReady = s.io.pReady := rfl
@[simp] theorem setN_dReady (q : List Word) : (s.setN q).io.dReady = s.io.dReady := rfl
@[simp] theorem setN_pDout (q : List Word) : (s.setN q).io.pDout = s.io.pDout := rfl
@[simp] theorem setN_dDout (q : List Word) : (s.setN q).io.dDout = s.io.dDout := rfl
@[simp] theorem setN_resp (q : List Word) : (s.setN q).io.resp = s.io.resp := rfl

/-! ## setUDin -/

@[simp] theorem setUDin_cfg (q : List Byte) : (s.setUDin q).cfg = s.cfg := rfl
@[simp] theorem setUDin_status (q : List Byte) : (s.setUDin q).status = s.status := rfl
@[simp] theorem setUDin_p (q : List Byte) : (s.setUDin q).p = s.p := rfl
@[simp] theorem setUDin_u (q : List Byte) : (s.setUDin q).u = s.u := rfl
@[simp] theorem setUDin_d (q : List Byte) : (s.setUDin q).d = s.d := rfl
@[simp] theorem setUDin_free (q : List Byte) : (s.setUDin q).free = s.free := rfl
@[simp] theorem setUDin_cmd (q : List Byte) : (s.setUDin q).io.cmd = s.io.cmd := rfl
@[simp] theorem setUDin_v (q : List Byte) : (s.setUDin q).io.v = s.io.v := rfl
@[simp] theorem setUDin_n (q : List Byte) : (s.setUDin q).io.n = s.io.n := rfl
@[simp] theorem setUDin_uDin (q : List Byte) : (s.setUDin q).io.uDin = q := rfl
@[simp] theorem setUDin_dDin (q : List Byte) : (s.setUDin q).io.dDin = s.io.dDin := rfl
@[simp] theorem setUDin_pReady (q : List Byte) : (s.setUDin q).io.pReady = s.io.pReady := rfl
@[simp] theorem setUDin_dReady (q : List Byte) : (s.setUDin q).io.dReady = s.io.dReady := rfl
@[simp] theorem setUDin_pDout (q : List Byte) : (s.setUDin q).io.pDout = s.io.pDout := rfl
@[simp] theorem setUDin_dDout (q : List Byte) : (s.setUDin q).io.dDout = s.io.dDout := rfl
@[simp] theorem setUDin_resp (q : List Byte) : (s.setUDin q).io.resp = s.io.resp := rfl

/-! ## setDDin -/

@[simp] theorem setDDin_cfg (q : List Byte) : (s.setDDin q).cfg = s.cfg := rfl
@[simp] theorem setDDin_status (q : List Byte) : (s.setDDin q).status = s.status := rfl
@[simp] theorem setDDin_p (q : List Byte) : (s.setDDin q).p = s.p := rfl
@[simp] theorem setDDin_u (q : List Byte) : (s.setDDin q).u = s.u := rfl
@[simp] theorem setDDin_d (q : List Byte) : (s.setDDin q).d = s.d := rfl
@[simp] theorem setDDin_free (q : List Byte) : (s.setDDin q).free = s.free := rfl
@[simp] theorem setDDin_cmd (q : List Byte) : (s.setDDin q).io.cmd = s.io.cmd := rfl
@[simp] theorem setDDin_v (q : List Byte) : (s.setDDin q).io.v = s.io.v := rfl
@[simp] theorem setDDin_n (q : List Byte) : (s.setDDin q).io.n = s.io.n := rfl
@[simp] theorem setDDin_uDin (q : List Byte) : (s.setDDin q).io.uDin = s.io.uDin := rfl
@[simp] theorem setDDin_dDin (q : List Byte) : (s.setDDin q).io.dDin = q := rfl
@[simp] theorem setDDin_pReady (q : List Byte) : (s.setDDin q).io.pReady = s.io.pReady := rfl
@[simp] theorem setDDin_dReady (q : List Byte) : (s.setDDin q).io.dReady = s.io.dReady := rfl
@[simp] theorem setDDin_pDout (q : List Byte) : (s.setDDin q).io.pDout = s.io.pDout := rfl
@[simp] theorem setDDin_dDout (q : List Byte) : (s.setDDin q).io.dDout = s.io.dDout := rfl
@[simp] theorem setDDin_resp (q : List Byte) : (s.setDDin q).io.resp = s.io.resp := rfl

/-! ## setPBits -/

@[simp] theorem setPBits_cfg (bits : Bits) : (s.setPBits bits).cfg = s.cfg := rfl
@[simp] theorem setPBits_status (bits : Bits) : (s.setPBits bits).status = s.status := rfl
@[simp] theorem setPBits_p (bits : Bits) : (s.setPBits bits).p = { bits := bits } := rfl
@[simp] theorem setPBits_u (bits : Bits) : (s.setPBits bits).u = s.u := rfl
@[simp] theorem setPBits_d (bits : Bits) : (s.setPBits bits).d = s.d := rfl
@[simp] theorem setPBits_free (bits : Bits) : (s.setPBits bits).free = s.free := rfl
@[simp] theorem setPBits_io (bits : Bits) : (s.setPBits bits).io = s.io := rfl

/-! ## setUPos -/

@[simp] theorem setUPos_cfg (pos : Nat) : (s.setUPos pos).cfg = s.cfg := rfl
@[simp] theorem setUPos_status (pos : Nat) : (s.setUPos pos).status = s.status := rfl
@[simp] theorem setUPos_p (pos : Nat) : (s.setUPos pos).p = s.p := rfl
@[simp] theorem setUPos_u (pos : Nat) : (s.setUPos pos).u = { s.u with pos := pos } := rfl
@[simp] theorem setUPos_d (pos : Nat) : (s.setUPos pos).d = s.d := rfl
@[simp] theorem setUPos_free (pos : Nat) : (s.setUPos pos).free = s.free := rfl
@[simp] theorem setUPos_io (pos : Nat) : (s.setUPos pos).io = s.io := rfl

/-! ## setU -/

@[simp] theorem setU_cfg (u : Unpacker) : (s.setU u).cfg = s.cfg := rfl
@[simp] theorem setU_status (u : Unpacker) : (s.setU u).status = s.status := rfl
@[simp] theorem setU_p (u : Unpacker) : (s.setU u).p = s.p := rfl
@[simp] theorem setU_u (u : Unpacker) : (s.setU u).u = u := rfl
@[simp] theorem setU_d (u : Unpacker) : (s.setU u).d = s.d := rfl
@[simp] theorem setU_free (u : Unpacker) : (s.setU u).free = s.free := rfl
@[simp] theorem setU_io (u : Unpacker) : (s.setU u).io = s.io := rfl

/-! ## setD -/

@[simp] theorem setD_cfg (d : Decoder) : (s.setD d).cfg = s.cfg := rfl
@[simp] theorem setD_status (d : Decoder) : (s.setD d).status = s.status := rfl
@[simp] theorem setD_p (d : Decoder) : (s.setD d).p = s.p := rfl
@[simp] theorem setD_u (d : Decoder) : (s.setD d).u = s.u := rfl
@[simp] theorem setD_d (d : Decoder) : (s.setD d).d = d := rfl
@[simp] theorem setD_free (d : Decoder) : (s.setD d).free = s.free := rfl
@[simp] theorem setD_io (d : Decoder) : (s.setD d).io = s.io := rfl

/-! ## putP -/

@[simp] theorem putP_cfg (bytes : List Byte) : (s.putP bytes).cfg = s.cfg := rfl
@[simp] theorem putP_status (bytes : List Byte) : (s.putP bytes).status = s.status := rfl
@[simp] theorem putP_p (bytes : List Byte) : (s.putP bytes).p = s.p := rfl
@[simp] theorem putP_u (bytes : List Byte) : (s.putP bytes).u = s.u := rfl
@[simp] theorem putP_d (bytes : List Byte) : (s.putP bytes).d = s.d := rfl
@[simp] theorem putP_free (bytes : List Byte) : (s.putP bytes).free = s.free := rfl
@[simp] theorem putP_cmd (bytes : List Byte) : (s.putP bytes).io.cmd = s.io.cmd := rfl
@[simp] theorem putP_v (bytes : List Byte) : (s.putP bytes).io.v = s.io.v := rfl
@[simp] theorem putP_n (bytes : List Byte) : (s.putP bytes).io.n = s.io.n := rfl
@[simp] theorem putP_uDin (bytes : List Byte) : (s.putP bytes).io.uDin = s.io.uDin := rfl
@[simp] theorem putP_dDin (bytes : List Byte) : (s.putP bytes).io.dDin = s.io.dDin := rfl
@[simp] theorem putP_pReady (bytes : List Byte) : (s.putP bytes).io.pReady = s.io.pReady := rfl
@[simp] theorem putP_dReady (bytes : List Byte) : (s.putP bytes).io.dReady = s.io.dReady := rfl
@[simp] theorem putP_pDout (bytes : List Byte) : (s.putP bytes).io.pDout = s.io.pDout ++ bytes := rfl
@[simp] theorem putP_dDout (bytes : List Byte) : (s.putP bytes).io.dDout = s.io.dDout := rfl
@[simp] theorem putP_resp (bytes : List Byte) : (s.putP bytes).io.resp = s.io.resp := rfl

/-! ## putD -/

@[simp] theorem putD_cfg (bytes : List Byte) : (s.putD bytes).cfg = s.cfg := rfl
@[simp] theorem putD_status (bytes : List Byte) : (s.putD bytes).status = s.status := rfl
@[simp] theorem putD_p (bytes : List Byte) : (s.putD bytes).p = s.p := rfl
@[simp] theorem putD_u (bytes : List Byte) : (s.putD bytes).u = s.u := rfl
@[simp] theorem putD_d (bytes : List Byte) : (s.putD bytes).d = s.d := rfl
@[simp] theorem putD_free (bytes : List Byte) : (s.putD bytes).free = s.free := rfl
@[simp] theorem putD_cmd (bytes : List Byte) : (s.putD bytes).io.cmd = s.io.cmd := rfl
@[simp] theorem putD_v (bytes : List Byte) : (s.putD bytes).io.v = s.io.v := rfl
@[simp] theorem putD_n (bytes : List Byte) : (s.putD bytes).io.n = s.io.n := rfl
@[simp] theorem putD_uDin (bytes : List Byte) : (s.putD bytes).io.uDin = s.io.uDin := rfl
@[simp] theorem putD_dDin (bytes : List Byte) : (s.putD bytes).io.dDin = s.io.dDin := rfl
@[simp] theorem putD_pReady (bytes : List Byte) : (s.putD bytes).io.pReady = s.io.pReady := rfl
@[simp] theorem putD_dReady (bytes : List Byte) : (s.putD bytes).io.dReady = s.io.dReady := rfl
@[simp] theorem putD_pDout (bytes : List Byte) : (s.putD bytes).io.pDout = s.io.pDout := rfl
@[simp] theorem putD_dDout (bytes : List Byte) : (s.putD bytes).io.dDout = s.io.dDout ++ bytes := rfl
@[simp] theorem putD_resp (bytes : List Byte) : (s.putD bytes).io.resp = s.io.resp := rfl

/-! ## present -/

@[simp] theorem present_cfg (x : Transaction) : (s.present x).cfg = s.cfg := rfl
@[simp] theorem present_status (x : Transaction) : (s.present x).status = s.status := rfl
@[simp] theorem present_p (x : Transaction) : (s.present x).p = s.p := rfl
@[simp] theorem present_u (x : Transaction) : (s.present x).u = s.u := rfl
@[simp] theorem present_d (x : Transaction) : (s.present x).d = s.d := rfl
@[simp] theorem present_free (x : Transaction) : (s.present x).free = s.free := rfl
@[simp] theorem present_cmd (x : Transaction) : (s.present x).io.cmd = s.io.cmd := rfl
@[simp] theorem present_pReady (x : Transaction) : (s.present x).io.pReady = s.io.pReady := rfl
@[simp] theorem present_dReady (x : Transaction) : (s.present x).io.dReady = s.io.dReady := rfl
@[simp] theorem present_pDout (x : Transaction) : (s.present x).io.pDout = s.io.pDout := rfl
@[simp] theorem present_dDout (x : Transaction) : (s.present x).io.dDout = s.io.dDout := rfl
@[simp] theorem present_resp (x : Transaction) : (s.present x).io.resp = s.io.resp := rfl
@[simp] theorem present_v (x : Transaction) : (s.present x).io.v = s.io.v ++ x.v := rfl
@[simp] theorem present_n (x : Transaction) : (s.present x).io.n = s.io.n ++ x.n := rfl
@[simp] theorem present_uDin (x : Transaction) : (s.present x).io.uDin = s.io.uDin ++ x.uDin := rfl
@[simp] theorem present_dDin (x : Transaction) : (s.present x).io.dDin = s.io.dDin ++ x.dDin := rfl

/-! ## respond -/

@[simp] theorem respond_cfg (st : Status) (r : Value) : (s.respond st r).cfg = s.cfg := rfl
@[simp] theorem respond_status (st : Status) (r : Value) : (s.respond st r).status = st := rfl
@[simp] theorem respond_p (st : Status) (r : Value) : (s.respond st r).p = s.p := rfl
@[simp] theorem respond_u (st : Status) (r : Value) : (s.respond st r).u = s.u := rfl
@[simp] theorem respond_d (st : Status) (r : Value) : (s.respond st r).d = s.d := rfl
@[simp] theorem respond_free (st : Status) (r : Value) : (s.respond st r).free = s.free := rfl
@[simp] theorem respond_cmd (st : Status) (r : Value) : (s.respond st r).io.cmd = s.io.cmd := rfl
@[simp] theorem respond_v (st : Status) (r : Value) : (s.respond st r).io.v = s.io.v := rfl
@[simp] theorem respond_n (st : Status) (r : Value) : (s.respond st r).io.n = s.io.n := rfl
@[simp] theorem respond_uDin (st : Status) (r : Value) : (s.respond st r).io.uDin = s.io.uDin := rfl
@[simp] theorem respond_dDin (st : Status) (r : Value) : (s.respond st r).io.dDin = s.io.dDin := rfl
@[simp] theorem respond_pReady (st : Status) (r : Value) : (s.respond st r).io.pReady = s.io.pReady := rfl
@[simp] theorem respond_dReady (st : Status) (r : Value) : (s.respond st r).io.dReady = s.io.dReady := rfl
@[simp] theorem respond_pDout (st : Status) (r : Value) : (s.respond st r).io.pDout = s.io.pDout := rfl
@[simp] theorem respond_dDout (st : Status) (r : Value) : (s.respond st r).io.dDout = s.io.dDout := rfl
@[simp] theorem respond_resp (st : Status) (r : Value) : (s.respond st r).io.resp = s.io.resp ++ [⟨st, r⟩] := rfl

/-! ## resetUnits -/

@[simp] theorem resetUnits_cfg : (s.resetUnits).cfg = s.cfg := rfl
@[simp] theorem resetUnits_status : (s.resetUnits).status = 0x0000#16 := rfl
@[simp] theorem resetUnits_p : (s.resetUnits).p = .reset := rfl
@[simp] theorem resetUnits_u : (s.resetUnits).u = .reset := rfl
@[simp] theorem resetUnits_d : (s.resetUnits).d = .reset := rfl
@[simp] theorem resetUnits_free : (s.resetUnits).free = s.free := rfl
@[simp] theorem resetUnits_io : (s.resetUnits).io = s.io := rfl

/-! ## reset -/

@[simp] theorem resetWith_cfg (c : Config) : (State.resetWith c).cfg = c := rfl
@[simp] theorem resetWith_status (c : Config) : (State.resetWith c).status = 0x0000#16 := rfl
@[simp] theorem resetWith_p (c : Config) : (State.resetWith c).p = .reset := rfl
@[simp] theorem resetWith_u (c : Config) : (State.resetWith c).u = .reset := rfl
@[simp] theorem resetWith_d (c : Config) : (State.resetWith c).d = .reset := rfl
@[simp] theorem resetWith_io (c : Config) : (State.resetWith c).io = .reset := rfl
@[simp] theorem resetWith_free (c : Config) : (State.resetWith c).free = 0 := rfl

/-! ## Emitting nothing -/

@[simp] theorem putP_nil : s.putP [] = s := by simp [State.putP]
@[simp] theorem putD_nil : s.putD [] = s := by simp [State.putD]

end Sys2Proof.Machine.State
end

