-- ==== Sys2Proof/Laws/Bits.lean ====
section
/-! SUPPORT. The laws of bit strings and byte buffers (00_scope.md R7, 20_memory.md R61 to R66). -/

namespace Sys2Proof.Machine

/-! ## val and bits_w -/

@[simp] theorem bitsVal_nil : bitsVal [] = 0 := rfl

theorem bitsVal_cons (b : Bool) (s : Bits) : bitsVal (b :: s) = b.toNat * 2 ^ s.length + bitsVal s := rfl

theorem bitsVal_lt (s : Bits) : bitsVal s < 2 ^ s.length := by
  induction s with
  | nil => simp
  | cons b s ih => cases b <;> simp [bitsVal_cons, pow_succ] <;> omega

theorem bitsVal_append (s t : Bits) : bitsVal (s ++ t) = bitsVal s * 2 ^ t.length + bitsVal t := by
  induction s with
  | nil => simp
  | cons b s ih => simp [bitsVal_cons, ih, pow_add]; ring

@[simp] theorem length_bitsOf (w v : Nat) : (bitsOf w v).length = w := by
  induction w with
  | zero => rfl
  | succ w ih => simp [bitsOf, ih]

theorem bitsVal_bitsOf_mod (w v : Nat) : bitsVal (bitsOf w v) = v % 2 ^ w := by
  induction w with
  | zero => simp [bitsOf, Nat.mod_one]
  | succ w ih =>
    rw [bitsOf, bitsVal_cons, ih, length_bitsOf, Nat.testBit_eq_decide_div_mod_eq, pow_succ, Nat.mod_mul]
    rcases Nat.mod_two_eq_zero_or_one (v / 2 ^ w) with h | h <;> simp [h, Nat.add_comm]

theorem bitsVal_bitsOf {w v : Nat} (h : v < 2 ^ w) : bitsVal (bitsOf w v) = v := by
  rw [bitsVal_bitsOf_mod, Nat.mod_eq_of_lt h]

theorem bitsVal_inj {s t : Bits} (hl : s.length = t.length) (hv : bitsVal s = bitsVal t) : s = t := by
  induction s generalizing t with
  | nil => exact (List.eq_nil_of_length_eq_zero hl.symm).symm
  | cons b s ih =>
    cases t with
    | nil => simp at hl
    | cons c t =>
      simp only [List.length_cons, Nat.add_right_cancel_iff] at hl
      have hs := bitsVal_lt s
      have ht := bitsVal_lt t
      rw [bitsVal_cons, bitsVal_cons, hl] at hv
      rw [hl] at hs
      have hbc : b = c := by cases b <;> cases c <;> simp at hv ⊢ <;> omega
      subst hbc
      rw [ih hl (by omega)]

theorem bitsOf_bitsVal (s : Bits) : bitsOf s.length (bitsVal s) = s :=
  bitsVal_inj (length_bitsOf _ _) (bitsVal_bitsOf (bitsVal_lt s))

theorem getElem?_bitsOf {w i : Nat} (v : Nat) (h : i < w) : (bitsOf w v)[i]? = some (v.testBit (w - 1 - i)) := by
  induction w generalizing i with
  | zero => omega
  | succ w ih =>
    cases i with
    | zero => simp [bitsOf]
    | succ i =>
      rw [bitsOf, List.getElem?_cons_succ, ih (by omega)]
      congr 2
      omega

theorem testBit_bitsVal {s : Bits} {i : Nat} (h : i < s.length) :
    (bitsVal s).testBit (s.length - 1 - i) = s.getD i false := by
  have := getElem?_bitsOf (bitsVal s) h
  rw [bitsOf_bitsVal] at this
  simp [List.getD_eq_getElem?_getD, this]

/-! ## Reading a byte buffer -/

theorem bitAt_eq (buf : List Byte) (a : Nat) : bitAt buf a = (buf.getD (a / 8) 0#8).getLsbD (7 - a % 8) := by
  simp [bitAt, memRead, List.headD_eq_head?_getD, List.head?_take, List.head?_drop, List.getD_eq_getElem?_getD]

theorem bitAt_append_left {buf : List Byte} (more : List Byte) {a : Nat} (h : a < 8 * buf.length) :
    bitAt (buf ++ more) a = bitAt buf a := by
  rw [bitAt_eq, bitAt_eq, List.getD_append _ _ _ _ (by omega)]

@[simp] theorem length_readBits (buf : List Byte) (p w : Nat) : (readBits buf p w).length = w := by
  induction w generalizing p with
  | zero => rfl
  | succ w ih => simp [readBits, ih]

theorem getElem?_readBits (buf : List Byte) (p : Nat) {w i : Nat} (h : i < w) :
    (readBits buf p w)[i]? = some (bitAt buf (p + i)) := by
  induction w generalizing p i with
  | zero => omega
  | succ w ih =>
    cases i with
    | zero => simp [readBits]
    | succ i =>
      rw [readBits, List.getElem?_cons_succ, ih (p + 1) (by omega)]
      congr 2
      omega

/-- A read of v + w bits is a read of v bits and then of w bits (20_memory.md R65). -/
theorem readBits_add (buf : List Byte) (p v w : Nat) :
    readBits buf p (v + w) = readBits buf p v ++ readBits buf (p + v) w := by
  induction v generalizing p with
  | zero => simp [readBits]
  | succ v ih =>
    rw [show v + 1 + w = (v + w) + 1 by omega, readBits, readBits, ih (p + 1), List.cons_append]
    congr 3
    omega

theorem readBits_append_left {buf : List Byte} (more : List Byte) {p w : Nat} (h : p + w ≤ 8 * buf.length) :
    readBits (buf ++ more) p w = readBits buf p w := by
  induction w generalizing p with
  | zero => rfl
  | succ w ih => rw [readBits, readBits, bitAt_append_left _ (by omega), ih (by omega)]

theorem bitsVal_readBits_lt (buf : List Byte) (p w : Nat) : bitsVal (readBits buf p w) < 2 ^ w := by
  simpa using bitsVal_lt (readBits buf p w)

/-- A read of one bit, put back as a bit string, is the bit (43_decoder.md R208). -/
@[simp] theorem bitsOf_readBits_one (buf : List Byte) (p : Nat) :
    bitsOf 1 (bitsVal (readBits buf p 1)) = [bitAt buf p] := by
  cases h : bitAt buf p <;> simp [readBits, bitsVal, bitsOf, h]

/-! ## Writing bytes -/

@[simp] theorem length_bytesOf (t : Bits) : (bytesOf t).length = t.length / 8 := by simp [bytesOf]

/-- Bit a of a bit string becomes the bit at bit address a of its bytes (20_memory.md R63). -/
theorem bitAt_bytesOf {t : Bits} (h8 : 8 ∣ t.length) {a : Nat} (h : a < t.length) :
    bitAt (bytesOf t) a = t.getD a false := by
  have hlen : ((t.drop (8 * (a / 8))).take 8).length = 8 := by simp; omega
  have hk : a / 8 < t.length / 8 := by omega
  have hb := testBit_bitsVal (s := (t.drop (8 * (a / 8))).take 8) (i := a % 8) (by omega)
  rw [hlen] at hb
  rw [bitAt_eq, List.getD_eq_getElem?_getD, bytesOf, List.getElem?_map, List.getElem?_range hk, Option.map_some,
    Option.getD_some, BitVec.getLsbD_ofNat, show 7 - a % 8 = 8 - 1 - a % 8 by omega, hb,
    List.getD_eq_getElem?_getD, List.getD_eq_getElem?_getD, List.getElem?_take_of_lt (by omega), List.getElem?_drop,
    show 8 * (a / 8) + a % 8 = a by omega]
  simp
  omega

/-- Reading what BytesOf wrote gives the bits back (20_memory.md R62). -/
theorem readBits_bytesOf {t : Bits} (h8 : 8 ∣ t.length) {p w : Nat} (h : p + w ≤ t.length) :
    readBits (bytesOf t) p w = (t.drop p).take w := by
  apply List.ext_getElem?
  intro i
  by_cases hi : i < w
  · rw [getElem?_readBits _ _ hi, bitAt_bytesOf h8 (by omega), List.getElem?_take_of_lt hi, List.getElem?_drop,
      List.getD_eq_getElem?_getD, List.getElem?_eq_getElem (by omega), Option.getD_some]
  · rw [List.getElem?_eq_none (by simpa using hi), List.getElem?_eq_none (by simp; omega)]

theorem padLen_lt (n : Nat) : padLen n < 8 := by unfold padLen; omega

theorem dvd_add_padLen (n : Nat) : 8 ∣ n + padLen n := by unfold padLen; omega

@[simp] theorem length_padBits (s : Bits) : (padBits s).length = s.length + padLen s.length := by simp [padBits]

theorem dvd_length_padBits (s : Bits) : 8 ∣ (padBits s).length := by simpa using dvd_add_padLen s.length

/-- Reading inside the unpadded part of padded bytes gives the string's own bits. -/
theorem readBits_bytesOf_padBits {s : Bits} {p w : Nat} (h : p + w ≤ s.length) :
    readBits (bytesOf (padBits s)) p w = (s.drop p).take w := by
  rw [readBits_bytesOf (dvd_length_padBits s) (by simp; omega), padBits, List.drop_append_of_le_length (by omega),
    List.take_append_of_le_length (by simp; omega)]

/-- The read order inverts the write order (20_memory.md R62). -/
theorem readBits_bytesOf_padBits_all (s : Bits) : readBits (bytesOf (padBits s)) 0 s.length = s := by
  rw [readBits_bytesOf_padBits (by omega)]; simp

theorem eight_mul_length_bytesOf_padBits (s : Bits) :
    8 * (bytesOf (padBits s)).length = s.length + padLen s.length := by
  have := dvd_add_padLen s.length
  simp; omega

end Sys2Proof.Machine
end

