-- ==== Sys2Proof/Laws/Ops.lean ====
section
/-! SUPPORT. For each shared operation, what it can do: if it answers a next state, then so; and when it answers one. -/

namespace Sys2Proof.Machine

variable {s t : State} {k : State → Out}

/-! ## Ending a command -/

@[simp] theorem succeed_next {r : Value} : succeed r s = .next t ↔ s.respond statusOk r = t := by simp [succeed]

@[simp] theorem raise_next {e : Err} : raise e s = .next t ↔ s.respond (statusOf e) 0#256 = t := by simp [raise]

theorem statusOf_ne_ok (e : Err) : statusOf e ≠ statusOk := by cases e <;> decide

/-! ## Operands -/

theorem takeV_next {k : Value → State → Out} (h : takeV s k = .next t) :
    ∃ v q, s.io.v = v :: q ∧ k v (s.setV q) = .next t := by
  unfold takeV at h
  split at h
  · cases h
  · exact ⟨_, _, ‹_›, h⟩

theorem takeV_cons {k : Value → State → Out} {v : Value} {q : List Value} (h : s.io.v = v :: q) :
    takeV s k = k v (s.setV q) := by simp [takeV, h]

theorem takeN_next {k : Word → State → Out} (h : takeN s k = .next t) :
    ∃ n q, s.io.n = n :: q ∧ k n (s.setN q) = .next t := by
  unfold takeN at h
  split at h
  · cases h
  · exact ⟨_, _, ‹_›, h⟩

theorem takeN_cons {k : Word → State → Out} {n : Word} {q : List Word} (h : s.io.n = n :: q) :
    takeN s k = k n (s.setN q) := by simp [takeN, h]

theorem takeUDin_next {n : Nat} {k : List Byte → State → Out} (h : takeUDin n s k = .next t) :
    n ≤ s.io.uDin.length ∧ k (s.io.uDin.take n) (s.setUDin (s.io.uDin.drop n)) = .next t := by
  unfold takeUDin at h
  split at h
  · cases h
  · exact ⟨by omega, h⟩

theorem takeUDin_of_le {n : Nat} {k : List Byte → State → Out} (h : n ≤ s.io.uDin.length) :
    takeUDin n s k = k (s.io.uDin.take n) (s.setUDin (s.io.uDin.drop n)) := by
  simp [takeUDin, Nat.not_lt.mpr h]

theorem takeDDin_next {n : Nat} {k : List Byte → State → Out} (h : takeDDin n s k = .next t) :
    n ≤ s.io.dDin.length ∧ k (s.io.dDin.take n) (s.setDDin (s.io.dDin.drop n)) = .next t := by
  unfold takeDDin at h
  split at h
  · cases h
  · exact ⟨by omega, h⟩

theorem takeDDin_of_le {n : Nat} {k : List Byte → State → Out} (h : n ≤ s.io.dDin.length) :
    takeDDin n s k = k (s.io.dDin.take n) (s.setDDin (s.io.dDin.drop n)) := by
  simp [takeDDin, Nat.not_lt.mpr h]

/-! ## Emitting -/

theorem emitP_next {bytes : List Byte} (h : emitP bytes s k = .next t) :
    (bytes = [] ∨ s.io.pReady = true) ∧ k (s.putP bytes) = .next t := by
  unfold emitP at h
  split at h
  · cases h
  · rename_i hn
    refine ⟨?_, h⟩
    by_cases hb : bytes = []
    · exact .inl hb
    · exact .inr (by simpa [hb] using hn)

theorem emitP_ready {bytes : List Byte} (h : bytes = [] ∨ s.io.pReady = true) : emitP bytes s k = k (s.putP bytes) := by
  rcases h with h | h <;> simp [emitP, h]

theorem emitD_next {bytes : List Byte} (h : emitD bytes s k = .next t) :
    (bytes = [] ∨ s.io.dReady = true) ∧ k (s.putD bytes) = .next t := by
  unfold emitD at h
  split at h
  · cases h
  · rename_i hn
    refine ⟨?_, h⟩
    by_cases hb : bytes = []
    · exact .inl hb
    · exact .inr (by simpa [hb] using hn)

theorem emitD_ready {bytes : List Byte} (h : bytes = [] ∨ s.io.dReady = true) : emitD bytes s k = k (s.putD bytes) := by
  rcases h with h | h <;> simp [emitD, h]

/-! ## The end of a decoder command -/

/-- The status of a decoder command: OK, or the code of the error that ended it. -/
def stepStatus (o : StepOut) : Status := match o.err with
  | none => statusOk
  | some e => statusOf e

/-- The result of a decoder command: 0 if it failed. -/
def stepResult (o : StepOut) (r : Value) : Value := match o.err with
  | none => r
  | some _ => 0#256

theorem finishDecode_ready {o : StepOut} {r : Value} (h : o.emitted = [] ∨ s.io.dReady = true) :
    finishDecode o r s = .next (((s.setD o.d).putD o.emitted).respond (stepStatus o) (stepResult o r)) := by
  unfold finishDecode
  rw [emitD_ready (by simpa using h)]
  cases he : o.err <;> simp [succeed, raise, stepStatus, stepResult, he]

theorem finishDecode_next {o : StepOut} {r : Value} (h : finishDecode o r s = .next t) :
    (o.emitted = [] ∨ s.io.dReady = true) ∧
      ((s.setD o.d).putD o.emitted).respond (stepStatus o) (stepResult o r) = t := by
  have h' := (emitD_next (by unfold finishDecode at h; exact h)).1
  simp only [State.setD_io] at h'
  rw [finishDecode_ready h'] at h
  exact ⟨h', by simpa using h⟩

/-! ## Decoder reads and failures -/

theorem dRead_some {w v : Nat} {d d1 : Decoder} (h : dRead w d = some (v, d1)) :
    w ≤ 8 * d.buf.length - d.pos ∧ v = bitsVal (readBits d.buf d.pos w) ∧ d1 = { d with pos := d.pos + w } := by
  unfold dRead at h
  split at h
  · cases h
  · simp only [Option.some.injEq, Prod.mk.injEq] at h
    exact ⟨by omega, h.1.symm, h.2.symm⟩

theorem dRead_of_le {w : Nat} {d : Decoder} (h : w ≤ 8 * d.buf.length - d.pos) :
    dRead w d = some (bitsVal (readBits d.buf d.pos w), { d with pos := d.pos + w }) := by
  simp [dRead, Nat.not_lt.mpr h]

theorem dRead_none {w : Nat} {d : Decoder} : dRead w d = none ↔ 8 * d.buf.length - d.pos < w := by
  unfold dRead; split <;> simp_all

theorem dRead_lt {w v : Nat} {d d1 : Decoder} (h : dRead w d = some (v, d1)) : v < 2 ^ w := by
  rw [(dRead_some h).2.1]; exact bitsVal_readBits_lt _ _ _

@[simp] theorem dFail_err (e : Err) (d : Decoder) : (dFail e d).err = some e := rfl
@[simp] theorem dFail_emitted (e : Err) (d : Decoder) : (dFail e d).emitted = [] := rfl
@[simp] theorem dFail_state (e : Err) (d : Decoder) : (dFail e d).d.state = .error := rfl
@[simp] theorem dFail_buf (e : Err) (d : Decoder) : (dFail e d).d.buf = d.buf := rfl
@[simp] theorem dFail_out (e : Err) (d : Decoder) : (dFail e d).d.out = d.out := rfl
@[simp] theorem dGoOn_err (d : Decoder) : (dGoOn d).err = none := rfl
@[simp] theorem dGoOn_emitted (d : Decoder) : (dGoOn d).emitted = [] := rfl
@[simp] theorem dGoOn_d (d : Decoder) : (dGoOn d).d = d := rfl

/-! ## Reset during a transaction -/

theorem newBytes_next {port : Ports → List Byte} {more : List Byte} (h : port t.io = port s.io ++ more) :
    newBytes port (.next t) s = more := by simp [newBytes, h]

/-- What a command cut off by power-on reset leaves, field by field. -/
theorem cutByReset_fields (o : Out) (s : State) :
    (s.cutByReset o).status = 0x0000#16 ∧ (s.cutByReset o).p = .reset ∧ (s.cutByReset o).u = .reset ∧
    (s.cutByReset o).d = .reset ∧ (s.cutByReset o).cfg = s.cfg ∧ (s.cutByReset o).free = s.free + 1 ∧
    (s.cutByReset o).io = { s.io with
      pDout := s.io.pDout ++ (newBytes Ports.pDout o s).take (Config.bytesOutBeforeReset s.free)
      dDout := s.io.dDout ++ (newBytes Ports.dDout o s).take (Config.bytesOutBeforeReset s.free) } := by
  simp [State.cutByReset]
  rfl

/-- A command that did not complete has emitted nothing. -/
@[simp] theorem newBytes_fault (port : Ports → List Byte) (f : Fault) (s : State) : newBytes port (.fault f) s = [] := rfl

/-! ## Transactions -/

/-- A word whose opcode has exactly its operands on the ports is run. -/
theorem runWord_of_not_surplus {c : Word} (h : surplusOperands c s = false) : runWord c s =
    match decode c with
    | .ok i => exec i s
    | .error e => rejectWord e s := by rw [runWord, h]; rfl

theorem runWord_surplus {c : Word} (h : surplusOperands c s = true) : runWord c s = .fault .surplusOperands := by
  simp [runWord, h]

/-- A word that completes had no more than its operands on the ports, and was run. -/
theorem runWord_next {c : Word} (h : runWord c s = .next t) : surplusOperands c s = false ∧
    ((∃ i, decode c = .ok i ∧ exec i s = .next t) ∨ ∃ e, decode c = .error e ∧ rejectWord e s = .next t) := by
  unfold runWord at h
  split at h
  · cases h
  · rename_i hs
    refine ⟨by simpa using hs, ?_⟩
    split at h
    · exact .inl ⟨_, ‹_›, h⟩
    · exact .inr ⟨_, ‹_›, h⟩

theorem surplusOperands_eq_false {c : Word} : surplusOperands c s = false ↔ (dropOperands c s).PortsClear := by
  simp [surplusOperands]

/-- Whether operands are surplus is a matter of the operand ports alone. -/
@[simp] theorem surplusOperands_setCmd (c : Word) (x : Transaction) (q : List HostAction) (s : State) :
    surplusOperands c ((s.setCmd q).present x) = surplusOperands c (s.present x) := by
  unfold surplusOperands dropOperands
  cases opcodeOf (fieldOpc c) with
  | none => rfl
  | some op => cases op <;> rfl

/-- A host that has presented exactly the operands has presented no more. -/
theorem surplusOperands_of_presented {c : Word} (h : OperandsPresented c s) : surplusOperands c s = false := by
  rw [surplusOperands_eq_false]
  unfold OperandsPresented at h
  unfold dropOperands
  cases ho : opcodeOf (fieldOpc c) with
  | none => rw [ho] at h; exact h
  | some op =>
    rw [ho] at h
    cases op with
    | pack =>
      obtain ⟨⟨v, hv⟩, h1, h2, h3⟩ := h
      simp [State.PortsClear, *]
    | uload =>
      obtain ⟨h1, ⟨n, hn, hl⟩, h2⟩ := h
      simp [State.PortsClear, *]
    | dload =>
      obtain ⟨h1, ⟨n, hn, hl⟩, h2⟩ := h
      simp [State.PortsClear, *]
    | _ => exact h

/-! ## Bad command words -/

/-- A command word with a bad field, its operands presented, completes with NONZERO_FIELD. -/
theorem consumeOperands_next {op : Opcode} (h : consumeOperands op s k = .next t) : ∃ s1, k s1 = .next t ∧
    s1.cfg = s.cfg ∧ s1.status = s.status ∧ s1.p = s.p ∧ s1.u = s.u ∧ s1.d = s.d ∧ s1.free = s.free ∧
    s1.io.cmd = s.io.cmd ∧ s1.io.pReady = s.io.pReady ∧ s1.io.dReady = s.io.dReady ∧
    s1.io.pDout = s.io.pDout ∧ s1.io.dDout = s.io.dDout ∧ s1.io.resp = s.io.resp := by
  cases op with
  | pack =>
    simp only [consumeOperands] at h
    obtain ⟨v, q, -, h⟩ := takeV_next h
    exact ⟨_, h, by simp⟩
  | uload =>
    simp only [consumeOperands] at h
    obtain ⟨n, q, -, h⟩ := takeN_next h
    have h := (takeUDin_next h).2
    exact ⟨_, h, by simp⟩
  | dload =>
    simp only [consumeOperands] at h
    obtain ⟨n, q, -, h⟩ := takeN_next h
    have h := (takeDDin_next h).2
    exact ⟨_, h, by simp⟩
  | _ => exact ⟨s, h, by simp⟩

end Sys2Proof.Machine
end

