-- ==== Sys2Proof/Laws/Exec.lean ====
section
/-! SUPPORT. For each command that can end in more than one way: what its next state is, once for all. -/

namespace Sys2Proof.Machine

variable {s t : State}

theorem execRdreg_next {reg : Nat} (h : execRdreg reg s = .next t) :
    ∃ st r, t = s.respond st r ∧ (st ≠ statusOk → r = 0#256) := by
  unfold execRdreg at h
  split at h
  · exact ⟨_, _, (raise_next.mp h).symm, fun _ => rfl⟩
  · exact ⟨_, _, (succeed_next.mp h).symm, fun hn => absurd rfl hn⟩

theorem execPack_next {w : Nat} (h : execPack w s = .next t) : ∃ v q, s.io.v = v :: q ∧
    ((∃ e, t = (s.setV q).respond (statusOf e) 0#256) ∨
      (v.toNat < 2 ^ w ∧ s.p.bits.length + w ≤ s.cfg.pCapBits ∧
        t = ((s.setV q).setPBits (s.p.bits ++ bitsOf w v.toNat)).respond statusOk 0#256)) := by
  obtain ⟨v, q, hv, h⟩ := takeV_next h
  refine ⟨v, q, hv, ?_⟩
  split at h
  · exact .inl ⟨_, (raise_next.mp h).symm⟩
  · split at h
    · exact .inl ⟨_, (raise_next.mp h).symm⟩
    · rename_i h1 h2
      simp only [State.setV_p, State.setV_cfg] at h2
      exact .inr ⟨by omega, by omega, (succeed_next.mp h).symm⟩

theorem execFlush_next (h : execFlush s = .next t) :
    t = ((s.putP (bytesOf (padBits s.p.bits))).setPBits []).respond statusOk
      (BitVec.ofNat 256 (bytesOf (padBits s.p.bits)).length) := by
  unfold execFlush at h
  have h := (emitP_next h).2
  exact (succeed_next.mp h).symm

theorem execUload_next (h : execUload s = .next t) : ∃ n q, s.io.n = n :: q ∧ n.toNat ≤ s.io.uDin.length ∧
    ((∃ e, t = ((s.setN q).setUDin (s.io.uDin.drop n.toNat)).respond (statusOf e) 0#256) ∨
      (n.toNat ≤ s.cfg.uCapBytes ∧ t = (((s.setN q).setUDin (s.io.uDin.drop n.toNat)).setU
        { buf := s.io.uDin.take n.toNat, pos := 0 }).respond statusOk 0#256)) := by
  obtain ⟨n, q, hn, h⟩ := takeN_next h
  obtain ⟨hl, h⟩ := takeUDin_next h
  refine ⟨n, q, hn, by simpa using hl, ?_⟩
  split at h
  · exact .inl ⟨_, (raise_next.mp h).symm⟩
  · rename_i h1
    simp only [State.setUDin_cfg, State.setN_cfg] at h1
    exact .inr ⟨by omega, (succeed_next.mp h).symm⟩

theorem execUnpack_next {w : Nat} (h : execUnpack w s = .next t) :
    (∃ e, t = s.respond (statusOf e) 0#256) ∨
      (w ≤ 8 * s.u.buf.length - s.u.pos ∧ ∃ r, t = (s.setUPos (s.u.pos + w)).respond statusOk r) := by
  unfold execUnpack at h
  split at h
  · exact .inl ⟨_, (raise_next.mp h).symm⟩
  · exact .inr ⟨by omega, _, (succeed_next.mp h).symm⟩

theorem execDload_next (h : execDload s = .next t) : ∃ n q, s.io.n = n :: q ∧ n.toNat ≤ s.io.dDin.length ∧
    ((∃ e, t = ((s.setN q).setDDin (s.io.dDin.drop n.toNat)).respond (statusOf e) 0#256) ∨
      (n.toNat ≤ s.cfg.dCapBytes ∧ t = (((s.setN q).setDDin (s.io.dDin.drop n.toNat)).setD
        (freshDecoder (s.io.dDin.take n.toNat))).respond statusOk 0#256)) := by
  obtain ⟨n, q, hn, h⟩ := takeN_next h
  obtain ⟨hl, h⟩ := takeDDin_next h
  refine ⟨n, q, hn, by simpa using hl, ?_⟩
  split at h
  · exact .inl ⟨_, (raise_next.mp h).symm⟩
  · rename_i h1
    simp only [State.setDDin_cfg, State.setN_cfg] at h1
    exact .inr ⟨by omega, (succeed_next.mp h).symm⟩

/-- DSTEP: BAD_STATE at rest, else one step of the decoder. -/
theorem execDstep_next (h : execDstep s = .next t) :
    (phaseAtRest s.d.state = true ∧ t = s.respond (statusOf .badState) 0#256) ∨
      (phaseAtRest s.d.state = false ∧ ∃ o, o = decoderStep s.cfg.dupCodePolicy s.d ∧
        (o.emitted = [] ∨ s.io.dReady = true) ∧
        t = ((s.setD o.d).putD o.emitted).respond (stepStatus o) (stepResult o 0#256)) := by
  unfold execDstep at h
  split at h
  · exact .inl ⟨‹_›, (raise_next.mp h).symm⟩
  · obtain ⟨h1, h2⟩ := finishDecode_next h
    exact .inr ⟨by simp_all, _, rfl, h1, h2.symm⟩

/-- DRUN: BAD_STATE at rest, else the decoder's run. -/
theorem execDrun_next (h : execDrun s = .next t) :
    (phaseAtRest s.d.state = true ∧ t = s.respond (statusOf .badState) 0#256) ∨
      (phaseAtRest s.d.state = false ∧ ∃ o, o = decoderRun s.cfg.dupCodePolicy (runBound s.d) s.d ∧
        (o.emitted = [] ∨ s.io.dReady = true) ∧
        t = ((s.setD o.d).putD o.emitted).respond (stepStatus o) (stepResult o (o.d.emit.setWidth 256))) := by
  unfold execDrun at h
  split at h
  · exact .inl ⟨‹_›, (raise_next.mp h).symm⟩
  · obtain ⟨h1, h2⟩ := finishDecode_next h
    exact .inr ⟨by simp_all, _, rfl, h1, h2.symm⟩

/-- DSTEP in a running phase answers a next state, if what it emits is accepted. -/
theorem execDstep_ready (h : phaseAtRest s.d.state = false)
    (hr : (decoderStep s.cfg.dupCodePolicy s.d).emitted = [] ∨ s.io.dReady = true) :
    let o := decoderStep s.cfg.dupCodePolicy s.d
    execDstep s = .next (((s.setD o.d).putD o.emitted).respond (stepStatus o) (stepResult o 0#256)) := by
  simpa [execDstep, h] using finishDecode_ready (r := 0#256) hr

/-- DRUN in a running phase answers a next state, if what it emits is accepted. -/
theorem execDrun_ready (h : phaseAtRest s.d.state = false)
    (hr : (decoderRun s.cfg.dupCodePolicy (runBound s.d) s.d).emitted = [] ∨ s.io.dReady = true) :
    let o := decoderRun s.cfg.dupCodePolicy (runBound s.d) s.d
    execDrun s =
      .next (((s.setD o.d).putD o.emitted).respond (stepStatus o) (stepResult o (o.d.emit.setWidth 256))) := by
  simpa [execDrun, h] using
    finishDecode_ready (r := (decoderRun s.cfg.dupCodePolicy (runBound s.d) s.d).d.emit.setWidth 256) hr

end Sys2Proof.Machine
end

