-- ==== Sys2Proof/Laws/Decoder.lean ====
section
/-! SUPPORT. What a decoder step can do, phase by phase, and what a run of steps is (43_decoder.md R203 to R210). -/

namespace Sys2Proof.Machine

variable (policy : DupCodePolicy) (d : Decoder)

/-- The unread bits of the blob. -/
def bitsLeft : Nat := 8 * d.buf.length - d.pos

/-! ## Each step, in its two or three outcomes -/

theorem stepHdrCount_cases :
    (bitsLeft d < 8 ∧ stepHdrCount d = dFail .hdrTrunc d) ∨
    (8 ≤ bitsLeft d ∧ bitsVal (readBits d.buf d.pos 8) < 2 ^ 8 ∧ stepHdrCount d = dGoOn { d with
      pos := d.pos + 8, nsym := bitsVal (readBits d.buf d.pos 8) + 1, entry := 0, table := [], state := .hdrSym }) := by
  by_cases h : 8 ≤ bitsLeft d
  · exact .inr ⟨h, bitsVal_readBits_lt _ _ _, by simp [stepHdrCount, dRead_of_le h]⟩
  · exact .inl ⟨by omega, by simp [stepHdrCount, dRead_none.mpr (Nat.not_le.mp h)]⟩

theorem stepHdrSym_cases :
    (bitsLeft d < 8 ∧ stepHdrSym d = dFail .hdrTrunc d) ∨
    (8 ≤ bitsLeft d ∧ stepHdrSym d = dGoOn { d with
      pos := d.pos + 8, cursym := BitVec.ofNat 8 (bitsVal (readBits d.buf d.pos 8)), state := .hdrLen }) := by
  by_cases h : 8 ≤ bitsLeft d
  · exact .inr ⟨h, by simp [stepHdrSym, dRead_of_le h]⟩
  · exact .inl ⟨by omega, by simp [stepHdrSym, dRead_none.mpr (Nat.not_le.mp h)]⟩

theorem stepHdrLen_cases :
    (bitsLeft d < 8 ∧ stepHdrLen d = dFail .hdrTrunc d) ∨
    (8 ≤ bitsLeft d ∧ bitsVal (readBits d.buf d.pos 8) = 0 ∧
      stepHdrLen d = dFail .zeroLen { d with pos := d.pos + 8 }) ∨
    (8 ≤ bitsLeft d ∧ bitsVal (readBits d.buf d.pos 8) ≠ 0 ∧ bitsVal (readBits d.buf d.pos 8) < 2 ^ 8 ∧
      stepHdrLen d = dGoOn { d with
        pos := d.pos + 8, curlen := BitVec.ofNat 8 (bitsVal (readBits d.buf d.pos 8)), state := .hdrCode }) := by
  by_cases h : 8 ≤ bitsLeft d
  · by_cases h0 : bitsVal (readBits d.buf d.pos 8) = 0
    · exact .inr (.inl ⟨h, h0, by simp [stepHdrLen, dRead_of_le h, h0]⟩)
    · exact .inr (.inr ⟨h, h0, bitsVal_readBits_lt _ _ _, by simp [stepHdrLen, dRead_of_le h, h0]⟩)
  · exact .inl ⟨by omega, by simp [stepHdrLen, dRead_none.mpr (Nat.not_le.mp h)]⟩

/-- The code that the HDR_CODE step reads is already in the table, and the policy makes that an error. -/
def dupFound : Prop :=
  policy = .fault ∧ ∃ e ∈ d.table, e.len = d.curlen.toNat ∧ e.val = bitsVal (readBits d.buf d.pos d.curlen.toNat)

theorem stepHdrCode_cases :
    (bitsLeft d < d.curlen.toNat ∧ stepHdrCode policy d = dFail .hdrTrunc d) ∨
    (d.curlen.toNat ≤ bitsLeft d ∧ dupFound policy d ∧
      stepHdrCode policy d = dFail .dupCode { d with pos := d.pos + d.curlen.toNat }) ∨
    (d.curlen.toNat ≤ bitsLeft d ∧ ¬ dupFound policy d ∧ stepHdrCode policy d = dGoOn { d with
      pos := d.pos + d.curlen.toNat
      table := d.table ++ [⟨d.cursym, d.curlen.toNat, bitsVal (readBits d.buf d.pos d.curlen.toNat)⟩]
      entry := d.entry + 1
      state := if d.entry + 1 = d.nsym then .total else .hdrSym }) := by
  by_cases h : d.curlen.toNat ≤ bitsLeft d
  · by_cases hd : dupFound policy d
    · refine .inr (.inl ⟨h, hd, ?_⟩)
      simp only [stepHdrCode, dRead_of_le h]
      rw [if_pos]
      simpa [dupFound] using hd
    · refine .inr (.inr ⟨h, hd, ?_⟩)
      simp only [stepHdrCode, dRead_of_le h]
      rw [if_neg]
      simpa [dupFound] using hd
  · exact .inl ⟨by omega, by simp [stepHdrCode, dRead_none.mpr (Nat.not_le.mp h)]⟩

theorem stepTotal_cases :
    (bitsLeft d < 32 ∧ stepTotal d = dFail .hdrTrunc d) ∨
    (32 ≤ bitsLeft d ∧ bitsVal (readBits d.buf d.pos 32) < 2 ^ 32 ∧ stepTotal d = dGoOn { d with
      pos := d.pos + 32, total := BitVec.ofNat 32 (bitsVal (readBits d.buf d.pos 32)), emit := 0#32, scr := []
      state := if bitsVal (readBits d.buf d.pos 32) = 0 then .done else .payload }) := by
  by_cases h : 32 ≤ bitsLeft d
  · exact .inr ⟨h, bitsVal_readBits_lt _ _ _, by simp [stepTotal, dRead_of_le h]⟩
  · exact .inl ⟨by omega, by simp [stepTotal, dRead_none.mpr (Nat.not_le.mp h)]⟩

theorem stepPayload_cases :
    (bitsLeft d < 1 ∧ stepPayload policy d = dFail .payloadExhausted d) ∨
    (1 ≤ bitsLeft d ∧ ∃ x, lookup policy d.table (d.scr ++ [bitAt d.buf d.pos]) = some x ∧
      stepPayload policy d = { d := { d with
        pos := d.pos + 1, out := d.out ++ [x], emit := d.emit + 1#32, scr := []
        state := if d.emit + 1#32 = d.total then .done else d.state }, emitted := [x], err := none }) ∨
    (1 ≤ bitsLeft d ∧ lookup policy d.table (d.scr ++ [bitAt d.buf d.pos]) = none ∧ 255 ≤ d.scr.length ∧
      stepPayload policy d = dFail .noMatch { d with pos := d.pos + 1, scr := d.scr ++ [bitAt d.buf d.pos] }) ∨
    (1 ≤ bitsLeft d ∧ lookup policy d.table (d.scr ++ [bitAt d.buf d.pos]) = none ∧ d.scr.length < 255 ∧
      stepPayload policy d = dGoOn { d with pos := d.pos + 1, scr := d.scr ++ [bitAt d.buf d.pos] }) := by
  by_cases h : 1 ≤ bitsLeft d
  · right
    cases hl : lookup policy d.table (d.scr ++ [bitAt d.buf d.pos]) with
    | some x => exact .inl ⟨h, x, rfl, by simp [stepPayload, dRead_of_le h, hl, emitSym]⟩
    | none =>
      right
      by_cases hs : 255 ≤ d.scr.length
      · exact .inl ⟨h, rfl, hs, by simp [stepPayload, dRead_of_le h, hl, Config.maxCodeLen]; omega⟩
      · exact .inr ⟨h, rfl, by omega, by simp [stepPayload, dRead_of_le h, hl, Config.maxCodeLen]; omega⟩
  · exact .inl ⟨by omega, by simp [stepPayload, dRead_none.mpr (Nat.not_le.mp h)]⟩

/-! ## Any step -/

/-- In any phase with a step, the step is a failure that has written at most D_POS and D_SCR, or it goes on: D_POS has
advanced within the blob, D_OUT has the emitted symbols, and the phase is not ERROR. -/
theorem decoderStep_cases (h : phaseAtRest d.state = false) :
    (∃ e d1, decoderStep policy d = dFail e d1 ∧ errKind e = 0x04#8 ∧ d1 = { d with pos := d1.pos, scr := d1.scr } ∧
      (d1.pos = d.pos ∨ d1.pos ≤ 8 * d.buf.length)) ∨
    (∃ d1 w, (decoderStep policy d).d = d1 ∧ (decoderStep policy d).err = none ∧ d1.state ≠ .error ∧
      d1.state ≠ .idle ∧ d1.buf = d.buf ∧ d1.pos = d.pos + w ∧ w ≤ bitsLeft d ∧ (d.state = .hdrCode ∨ 1 ≤ w) ∧
      (d1.state = .hdrCode → d.state = .hdrLen ∧ w = 8) ∧ d1.out = d.out ++ (decoderStep policy d).emitted) := by
  cases hs : d.state <;> simp only [hs, phaseAtRest, reduceCtorEq] at h <;> simp only [decoderStep, hs]
  · obtain ⟨h1, h2⟩ | ⟨h1, h2, h3⟩ := stepHdrCount_cases d
    · exact .inl ⟨_, _, h2, rfl, by rw [← hs], .inl rfl⟩
    · exact .inr ⟨_, 8, rfl, by simp [h3], by simp [h3], by simp [h3], by simp [h3], by simp [h3], h1, by simp,
        by simp [h3], by simp [h3]⟩
  · obtain ⟨h1, h2⟩ | ⟨h1, h3⟩ := stepHdrSym_cases d
    · exact .inl ⟨_, _, h2, rfl, by rw [← hs], .inl rfl⟩
    · exact .inr ⟨_, 8, rfl, by simp [h3], by simp [h3], by simp [h3], by simp [h3], by simp [h3], h1, by simp,
        by simp [h3], by simp [h3]⟩
  · obtain ⟨h1, h2⟩ | ⟨h1, -, h2⟩ | ⟨h1, -, h2, h3⟩ := stepHdrLen_cases d
    · exact .inl ⟨_, _, h2, rfl, by rw [← hs], .inl rfl⟩
    · exact .inl ⟨_, _, h2, rfl, by rw [← hs], .inr (by unfold bitsLeft at h1; simp; omega)⟩
    · exact .inr ⟨_, 8, rfl, by simp [h3], by simp [h3], by simp [h3], by simp [h3], by simp [h3], h1, by simp,
        by simp, by simp [h3]⟩
  · obtain ⟨h1, h2⟩ | ⟨h1, -, h2⟩ | ⟨h1, h2, h3⟩ := stepHdrCode_cases policy d
    · exact .inl ⟨_, _, h2, rfl, by rw [← hs], .inl rfl⟩
    · refine .inl ⟨_, _, h2, rfl, by rw [← hs], ?_⟩
      unfold bitsLeft at h1
      simp
      omega
    · refine .inr ⟨_, _, rfl, by simp [h3], ?_, ?_, by simp [h3], by simp [h3], h1, by simp, ?_, by simp [h3]⟩ <;>
        simp only [h3, dGoOn_d] <;> split <;> simp
  · obtain ⟨h1, h2⟩ | ⟨h1, h2, h3⟩ := stepTotal_cases d
    · exact .inl ⟨_, _, h2, rfl, by rw [← hs], .inl rfl⟩
    · refine .inr ⟨_, 32, rfl, by simp [h3], ?_, ?_, by simp [h3], by simp [h3], h1, by simp, ?_, by simp [h3]⟩ <;>
        simp only [h3, dGoOn_d] <;> split <;> simp
  · obtain ⟨h1, h2⟩ | ⟨h1, x, -, h3⟩ | ⟨h1, -, -, h2⟩ | ⟨h1, -, -, h3⟩ := stepPayload_cases policy d
    · exact .inl ⟨_, _, h2, rfl, by rw [← hs], .inl rfl⟩
    · refine .inr ⟨_, 1, rfl, by simp [h3], ?_, ?_, by simp [h3], by simp [h3], h1, by simp, ?_, by simp [h3]⟩ <;>
        simp only [h3, hs] <;> split <;> simp
    · exact .inl ⟨_, _, h2, rfl, by rw [← hs], .inr (by unfold bitsLeft at h1; simp; omega)⟩
    · exact .inr ⟨_, 1, rfl, by simp [h3], by simp [h3, hs], by simp [h3, hs], by simp [h3], by simp [h3], h1, by simp,
        by simp [h3, hs], by simp [h3]⟩

theorem decoderStep_atRest {d : Decoder} (h : phaseAtRest d.state = true) : decoderStep policy d = dGoOn d := by
  cases hs : d.state <;> simp [hs, phaseAtRest] at h <;> simp [decoderStep, hs]

@[simp] theorem decoderStep_buf : (decoderStep policy d).d.buf = d.buf := by
  by_cases h : phaseAtRest d.state = true
  · simp [decoderStep_atRest policy h]
  · obtain ⟨e, d1, h1, -, h2, -⟩ | ⟨d1, w, h1, -, -, -, h2, -⟩ := decoderStep_cases policy d (by simpa using h)
    · rw [h1, dFail_buf, h2]
    · rw [h1, h2]

theorem decoderStep_out : (decoderStep policy d).d.out = d.out ++ (decoderStep policy d).emitted := by
  by_cases h : phaseAtRest d.state = true
  · simp [decoderStep_atRest policy h]
  · obtain ⟨e, d1, h1, -, h2, -⟩ | ⟨d1, w, h1, -, -, -, -, -, -, -, -, h2⟩ :=
      decoderStep_cases policy d (by simpa using h)
    · rw [h1, dFail_out, dFail_emitted, List.append_nil, h2]
    · rw [h1, h2]

/-! ## Runs -/

theorem decoderRun_atRest {d : Decoder} (k : Nat) (h : phaseAtRest d.state = true) :
    decoderRun policy k d = dGoOn d := by
  cases k <;> simp [decoderRun, h]

/-- A run of one step more, from a phase with a step that does not fail. -/
theorem decoderRun_succ {d : Decoder} (k : Nat) (h : phaseAtRest d.state = false)
    (he : (decoderStep policy d).err = none) :
    decoderRun policy (k + 1) d =
      { d := (decoderRun policy k (decoderStep policy d).d).d
        emitted := (decoderStep policy d).emitted ++ (decoderRun policy k (decoderStep policy d).d).emitted
        err := (decoderRun policy k (decoderStep policy d).d).err } := by
  simp [decoderRun, h, he]

/-- A run of one step more, from a phase whose step fails. -/
theorem decoderRun_succ_err {d : Decoder} {e : Err} (k : Nat) (h : phaseAtRest d.state = false)
    (he : (decoderStep policy d).err = some e) : decoderRun policy (k + 1) d = decoderStep policy d := by
  simp [decoderRun, h, he]

/-- How many steps can be left: a step reads at least one bit, or comes from HDR_CODE, which only HDR_LEN leads to. -/
def stepsLeft : Nat := bitsLeft d + if d.state = .hdrCode then 1 else 0

theorem stepsLeft_decreases (h : phaseAtRest d.state = false) (he : (decoderStep policy d).err = none) :
    stepsLeft (decoderStep policy d).d < stepsLeft d := by
  obtain ⟨e, d1, h1, -⟩ | ⟨d1, w, h1, -, -, -, hb, hp, hw, hw1, hc, -⟩ := decoderStep_cases policy d h
  · simp [h1] at he
  · rw [h1]
    unfold stepsLeft bitsLeft at *
    rw [hb, hp]
    by_cases h2 : d1.state = .hdrCode
    · obtain ⟨h3, h4⟩ := hc h2
      simp [h2, h3]
      omega
    · rcases hw1 with h3 | h3
      · simp [h2, h3]; omega
      · simp only [h2, if_false]; omega

/-- A run with enough steps ends at rest, in DONE or in ERROR with its error. -/
theorem decoderRun_ends {k : Nat} (h : phaseAtRest d.state = false) (hk : stepsLeft d < k) :
    ((decoderRun policy k d).d.state = .done ∧ (decoderRun policy k d).err = none) ∨
      ((decoderRun policy k d).d.state = .error ∧ ∃ e, (decoderRun policy k d).err = some e ∧ errKind e = 0x04#8 ∧
        (decoderRun policy k d).d.errk = errKind e ∧ (decoderRun policy k d).d.errs = errSub e) := by
  induction k generalizing d with
  | zero => omega
  | succ k ih =>
    obtain ⟨e, d1, h1, hk4, -⟩ | ⟨d1, w, h1, he, hne, hni, -⟩ := decoderStep_cases policy d h
    · rw [decoderRun_succ_err policy k h (by rw [h1]; rfl), h1]
      exact .inr ⟨rfl, e, rfl, hk4, rfl, rfl⟩
    · rw [decoderRun_succ policy k h he]
      simp only
      by_cases hr : phaseAtRest (decoderStep policy d).d.state = true
      · rw [decoderRun_atRest policy k hr, h1]
        rw [h1] at hr
        refine .inl ⟨?_, rfl⟩
        cases hs : d1.state <;> simp_all [phaseAtRest]
      · exact ih _ (by simpa using hr) (by have := stepsLeft_decreases policy d h he; omega)

theorem stepsLeft_lt_runBound : stepsLeft d < runBound d := by
  unfold stepsLeft bitsLeft runBound
  split <;> omega

end Sys2Proof.Machine
end

