-- ==== Sys2Proof/Laws/Container.lean ====
section
/-! SUPPORT. How the decoder runs over the fields of a blob: an entry, a list of entries, a code, a list of codes
(43_decoder.md R203 to R208 over 30_encoding.md R99). -/

namespace Sys2Proof.Machine

variable {policy : DupCodePolicy} {d : Decoder}

/-- The unread part of the blob begins with `s`. -/
def Ahead (d : Decoder) (s : Bits) : Prop := s.length ≤ bitsLeft d ∧ readBits d.buf d.pos s.length = s

theorem Ahead.left {s t : Bits} (h : Ahead d (s ++ t)) : Ahead d s := by
  obtain ⟨h1, h2⟩ := h
  rw [List.length_append] at h1
  rw [List.length_append, readBits_add] at h2
  exact ⟨by omega, (List.append_inj h2 (by simp)).1⟩

theorem Ahead.right {s t : Bits} {d' : Decoder} (h : Ahead d (s ++ t)) (hb : d'.buf = d.buf)
    (hp : d'.pos = d.pos + s.length) : Ahead d' t := by
  obtain ⟨h1, h2⟩ := h
  rw [List.length_append] at h1
  rw [List.length_append, readBits_add] at h2
  refine ⟨by unfold bitsLeft at *; rw [hb, hp]; omega, ?_⟩
  rw [hb, hp]
  exact (List.append_inj h2 (by simp)).2

/-- The number that a field ahead holds. -/
theorem Ahead.val {w v : Nat} (h : Ahead d (bitsOf w v)) (hv : v < 2 ^ w) :
    w ≤ bitsLeft d ∧ bitsVal (readBits d.buf d.pos w) = v := by
  obtain ⟨h1, h2⟩ := h
  rw [length_bitsOf] at h1 h2
  exact ⟨h1, by rw [h2, bitsVal_bitsOf hv]⟩

/-- A blob has its own bits ahead at its start. -/
theorem ahead_bytes {s : Bits} (hb : d.buf = bytesOf (padBits s)) (hp : d.pos = 0) : Ahead d s := by
  refine ⟨?_, by rw [hb, hp, readBits_bytesOf_padBits_all]⟩
  have := eight_mul_length_bytesOf_padBits s
  unfold bitsLeft
  rw [hb, hp]
  omega

/-! ## One step of a run -/

theorem decoderRun_goOn {d' : Decoder} (k : Nat) (h : phaseAtRest d.state = false)
    (hs : decoderStep policy d = dGoOn d') : decoderRun policy (k + 1) d = decoderRun policy k d' := by
  rw [decoderRun_succ policy k h (by rw [hs]; rfl), hs]
  simp

/-! ## Entries -/

/-- A further entry may be added: under the policy fault its code is not in the table. -/
def Fresh (policy : DupCodePolicy) (table : List Entry) (e : Entry) : Prop :=
  policy = .fault → ∀ e' ∈ table, ¬ (e'.len = e.len ∧ e'.val = e.val)

/-- Three steps read one entry. -/
theorem run_entry {e : Entry} (k : Nat) (hs : d.state = .hdrSym) (ha : Ahead d (entryBits e)) (hr : EntryInRange e)
    (hf : Fresh policy d.table e) :
    decoderRun policy (k + 3) d = decoderRun policy k { d with
      pos := d.pos + (entryBits e).length, cursym := e.sym, curlen := BitVec.ofNat 8 e.len, table := d.table ++ [e]
      entry := d.entry + 1, state := if d.entry + 1 = d.nsym then .total else .hdrSym } := by
  obtain ⟨hr1, hr2⟩ := hr
  have hlen : (BitVec.ofNat 8 e.len).toNat = e.len := by simp; omega
  unfold entryBits at ha
  have hab := ha.left
  obtain ⟨h1, h2⟩ := hab.left.val e.sym.isLt
  rw [decoderRun_goOn (k + 2) (by simp [hs, phaseAtRest])
    (show decoderStep policy d = _ by
      obtain ⟨h, -⟩ | ⟨-, h⟩ := stepHdrSym_cases d
      · omega
      · simp only [decoderStep, hs]; exact h)]
  rw [h2]
  obtain ⟨h3, h4⟩ := (hab.right (d' := { d with
    pos := d.pos + 8, cursym := BitVec.ofNat 8 e.sym.toNat, state := .hdrLen }) rfl (by simp)).val
      (show e.len < 2 ^ 8 by omega)
  rw [decoderRun_goOn (k + 1) (by simp [phaseAtRest])
    (show decoderStep policy { d with pos := d.pos + 8, cursym := BitVec.ofNat 8 e.sym.toNat, state := .hdrLen } = _ by
      obtain ⟨h, -⟩ | ⟨-, h, -⟩ | ⟨-, -, -, h⟩ := stepHdrLen_cases { d with
        pos := d.pos + 8, cursym := BitVec.ofNat 8 e.sym.toNat, state := .hdrLen }
      · omega
      · omega
      · simp only [decoderStep]; exact h)]
  simp only [h4]
  obtain ⟨h5, h6⟩ := (ha.right (d' := { d with
    pos := d.pos + 8 + 8, cursym := BitVec.ofNat 8 e.sym.toNat, curlen := BitVec.ofNat 8 e.len, state := .hdrCode })
      rfl (by simp)).val hr2
  rw [decoderRun_goOn k (by simp [phaseAtRest])
    (show decoderStep policy { d with
        pos := d.pos + 8 + 8, cursym := BitVec.ofNat 8 e.sym.toNat, curlen := BitVec.ofNat 8 e.len, state := .hdrCode } = _ by
      obtain ⟨h, -⟩ | ⟨-, h, -⟩ | ⟨-, -, h⟩ := stepHdrCode_cases policy { d with
        pos := d.pos + 8 + 8, cursym := BitVec.ofNat 8 e.sym.toNat, curlen := BitVec.ofNat 8 e.len, state := .hdrCode }
      · simp only [hlen] at h; omega
      · simp only [dupFound, hlen] at h
        obtain ⟨hp, e', he', h7, h8⟩ := h
        rw [h6] at h8
        exact absurd ⟨h7, h8⟩ (hf hp e' he')
      · simp only [decoderStep]; exact h)]
  simp only [hlen] at h6 ⊢
  rw [h6]
  simp [entryBits, show d.pos + (8 + (8 + e.len)) = d.pos + 8 + 8 + e.len by omega]

/-- The steps of the remaining entries read them all and lead to TOTAL. -/
theorem run_entries {es : List Entry} (k : Nat) (hne : es ≠ []) (hs : d.state = .hdrSym)
    (ha : Ahead d (es.flatMap entryBits)) (hr : ∀ e ∈ es, EntryInRange e) (hn : d.entry + es.length = d.nsym)
    (hf : policy = .fault → (d.table ++ es).Pairwise fun a b => ¬ (a.len = b.len ∧ a.val = b.val)) :
    ∃ x l, decoderRun policy (k + 3 * es.length) d = decoderRun policy k { d with
      pos := d.pos + (es.flatMap entryBits).length, cursym := x, curlen := l, table := d.table ++ es
      entry := d.nsym, state := .total } := by
  induction es generalizing d with
  | nil => exact absurd rfl hne
  | cons e es ih =>
    rw [List.flatMap_cons] at ha
    have hfe : Fresh policy d.table e := fun hp e' he' => by
      have := hf hp
      rw [List.pairwise_append] at this
      exact this.2.2 e' he' e (by simp)
    rw [show k + 3 * (e :: es).length = (k + 3 * es.length) + 3 by simp; omega,
      run_entry _ hs ha.left (hr e (by simp)) hfe]
    by_cases hes : es = []
    · subst hes
      simp only [List.length_cons, List.length_nil] at hn
      refine ⟨e.sym, BitVec.ofNat 8 e.len, ?_⟩
      simp [show d.entry + 1 = d.nsym by omega]
    · have hpos : 0 < es.length := List.length_pos_iff.mpr hes
      simp only [List.length_cons] at hn
      rw [if_neg (by omega)]
      obtain ⟨x, l, h⟩ := ih (d := { d with
        pos := d.pos + (entryBits e).length, cursym := e.sym, curlen := BitVec.ofNat 8 e.len, table := d.table ++ [e]
        entry := d.entry + 1, state := .hdrSym }) hes rfl (ha.right rfl rfl)
        (fun e' he' => hr e' (by simp [he'])) (by simp; omega) (by simpa using hf)
      refine ⟨x, l, ?_⟩
      rw [h]
      simp [Nat.add_assoc]

/-! ## Codes -/

/-- The steps over the bits of a code: the symbol is emitted at its last bit, if no shorter string matches. -/
theorem run_code {c : Bits} {x : Byte} (k : Nat) (hne : c ≠ []) (hs : d.state = .payload) (ha : Ahead d c)
    (hl : d.scr.length + c.length ≤ 255)
    (hno : ∀ j, 1 ≤ j → j < c.length → lookup policy d.table (d.scr ++ c.take j) = none)
    (hx : lookup policy d.table (d.scr ++ c) = some x) :
    decoderRun policy (k + c.length) d =
      let o := decoderRun policy k { d with
        pos := d.pos + c.length, out := d.out ++ [x], emit := d.emit + 1#32, scr := []
        state := if d.emit + 1#32 = d.total then .done else .payload }
      { o with emitted := x :: o.emitted } := by
  induction c generalizing d with
  | nil => exact absurd rfl hne
  | cons b c ih =>
    rw [show b :: c = [b] ++ c from rfl] at ha
    have h1 := ha.left
    have hb : bitAt d.buf d.pos = b := by simpa [readBits] using h1.2
    have hle : 1 ≤ bitsLeft d := h1.1
    by_cases hc : c = []
    · subst hc
      have hstep : decoderStep policy d = { d := { d with
          pos := d.pos + 1, out := d.out ++ [x], emit := d.emit + 1#32, scr := []
          state := if d.emit + 1#32 = d.total then .done else d.state }, emitted := [x], err := none } := by
        simp only [decoderStep, hs]
        obtain ⟨h, -⟩ | ⟨-, y, hy, h⟩ | ⟨-, h, -⟩ | ⟨-, h, -⟩ := stepPayload_cases policy d
        · omega
        · rw [hb, hx] at hy
          rw [Option.some.inj hy]
          rw [h, hs]
        · rw [hb, hx] at h; cases h
        · rw [hb, hx] at h; cases h
      rw [show k + [b].length = k + 1 from rfl,
        decoderRun_succ policy k (by simp [hs, phaseAtRest]) (by rw [hstep]), hstep, hs]
      simp
    · have hpos : 0 < c.length := List.length_pos_iff.mpr hc
      simp only [List.length_cons] at hl
      have hstep : decoderStep policy d = dGoOn { d with pos := d.pos + 1, scr := d.scr ++ [b] } := by
        have h0 : lookup policy d.table (d.scr ++ [b]) = none := hno 1 (by omega) (by simp; omega)
        simp only [decoderStep, hs]
        obtain ⟨h, -⟩ | ⟨-, y, hy, -⟩ | ⟨-, -, h, -⟩ | ⟨-, -, -, h⟩ := stepPayload_cases policy d
        · omega
        · rw [hb, h0] at hy; cases hy
        · omega
        · rw [h, hb, hs]
      rw [show k + (b :: c).length = (k + c.length) + 1 by simp; omega,
        decoderRun_goOn _ (by simp [hs, phaseAtRest]) hstep]
      rw [ih (d := { d with pos := d.pos + 1, scr := d.scr ++ [b] }) hc hs (ha.right rfl rfl) (by simp; omega)
        (fun j h2 h3 => by simpa using hno (j + 1) (by omega) (by simp; omega)) (by simpa using hx)]
      rw [show d.pos + (b :: c).length = d.pos + 1 + c.length by simp; omega]

end Sys2Proof.Machine
end

