-- ==== Sys2Proof/Laws/Decode.lean ====
section
/-! SUPPORT. A command word and its four fields (30_encoding.md R91), and what decoding a word says of them (R93, R94). -/

namespace Sys2Proof

/-- CMD[7:0] (30_encoding.md R91). -/
def fieldRsv (c : Word) : BitVec 8 := c.extractLsb' 0 8

theorem append_inj {m n : Nat} {a a' : BitVec m} {b b' : BitVec n} : a ++ b = a' ++ b' ↔ a = a' ∧ b = b' := by
  refine ⟨fun h => ?_, fun ⟨h, h'⟩ => h ▸ h' ▸ rfl⟩
  have hh := congrArg (BitVec.extractLsb' n m) h
  have hl := congrArg (BitVec.extractLsb' 0 n) h
  simpa [BitVec.extractLsb'_append_eq_of_le, BitVec.extractLsb'_append_eq_of_add_le] using And.intro hh hl

/-- A command word is its fields. -/
theorem fields_append (c : Word) : fieldOpc c ++ fieldW c ++ fieldReg c ++ fieldRsv c = c := by
  unfold fieldOpc fieldW fieldReg fieldRsv
  rw [BitVec.extractLsb'_append_extractLsb'_eq_extractLsb' (by omega),
    BitVec.extractLsb'_append_extractLsb'_eq_extractLsb' (by omega),
    BitVec.extractLsb'_append_extractLsb'_eq_extractLsb' (by omega)]
  exact BitVec.extractLsb'_eq_self

/-- The fields of a word are those it was made of. -/
theorem fields_word (opc w reg rsv : Nat) :
    fieldOpc (word opc w reg rsv) = BitVec.ofNat 8 opc ∧ fieldW (word opc w reg rsv) = BitVec.ofNat 8 w ∧
      fieldReg (word opc w reg rsv) = BitVec.ofNat 8 reg ∧ fieldRsv (word opc w reg rsv) = BitVec.ofNat 8 rsv := by
  have h := fields_append (word opc w reg rsv)
  conv_rhs at h => unfold word
  have h1 := append_inj.mp h
  have h2 := append_inj.mp h1.1
  have h3 := append_inj.mp h2.1
  exact ⟨h3.1, h3.2, h2.2, h1.2⟩

/-- Masking a word field by field. -/
theorem and_fields_eq {c : Word} {m1 m2 m3 m4 p1 p2 p3 p4 : BitVec 8} :
    c &&& (m1 ++ m2 ++ m3 ++ m4) = p1 ++ p2 ++ p3 ++ p4 ↔
      fieldOpc c &&& m1 = p1 ∧ fieldW c &&& m2 = p2 ∧ fieldReg c &&& m3 = p3 ∧ fieldRsv c &&& m4 = p4 := by
  have e : c &&& (m1 ++ m2 ++ m3 ++ m4) =
      (fieldOpc c &&& m1) ++ (fieldW c &&& m2) ++ (fieldReg c &&& m3) ++ (fieldRsv c &&& m4) := by
    rw [← BitVec.and_append, ← BitVec.and_append, ← BitVec.and_append, fields_append]
  rw [e]
  exact (append_inj.trans (and_congr_left' (append_inj.trans (and_congr_left' append_inj)))).trans (by tauto)

/-- The mask of an opcode, field by field: 0xFF for a field that must match, 0 for one that the command uses. -/
def Opcode.wMask : Opcode → BitVec 8
  | .pack => 0#8
  | .unpack => 0#8
  | _ => 0xFF#8

/-- The mask of REG. -/
def Opcode.regMask : Opcode → BitVec 8
  | .rdreg => 0#8
  | _ => 0xFF#8

/-- The value of OPC. -/
def Opcode.opc (op : Opcode) : BitVec 8 := op.pattern.extractLsb' 24 8

theorem Opcode.mask_eq (op : Opcode) : op.mask = 0xFF#8 ++ op.wMask ++ op.regMask ++ 0xFF#8 := by
  cases op <;> decide

theorem Opcode.pattern_eq (op : Opcode) : op.pattern = op.opc ++ 0#8 ++ 0#8 ++ 0#8 := by
  cases op <;> decide

theorem opcodeOf_eq {opc : BitVec 8} {op : Opcode} : opcodeOf opc = some op ↔ opc = op.opc := by
  constructor
  · intro h
    unfold opcodeOf at h
    split at h <;> simp only [Option.some.injEq, reduceCtorEq] at h <;> subst h <;>
      (apply BitVec.eq_of_toNat_eq; rename_i hn; rw [hn]; decide)
  · rintro rfl
    cases op <;> decide

/-- A word matches its opcode's row exactly when the fields the command does not use, and RSV, are zero (R93). -/
theorem matches_iff {c : Word} {op : Opcode} (h : opcodeOf (fieldOpc c) = some op) :
    c &&& op.mask = op.pattern ↔
      fieldRsv c = 0#8 ∧ (op = .pack ∨ op = .unpack ∨ fieldW c = 0#8) ∧ (op = .rdreg ∨ fieldReg c = 0#8) := by
  rw [op.mask_eq, op.pattern_eq, and_fields_eq, opcodeOf_eq.mp h]
  have hff : ∀ x : BitVec 8, x &&& 0xFF#8 = x := fun x => BitVec.and_allOnes
  cases op <;> simp [Opcode.wMask, Opcode.regMask, hff, Opcode.opc] <;> tauto

theorem decode_of_opcodeOf {c : Word} {op : Opcode} (h : opcodeOf (fieldOpc c) = some op) :
    decode c = if c &&& op.mask = op.pattern then .ok (op.build c) else .error (.nonzeroField op) := by
  simp [decode, h]

/-- What a word that decodes says of its fields. -/
theorem decode_ok {c : Word} {i : Instr} (h : decode c = .ok i) :
    ∃ op, fieldOpc c = Opcode.opc op ∧ i = op.build c ∧ fieldRsv c = 0#8 ∧
      (op = .pack ∨ op = .unpack ∨ fieldW c = 0#8) ∧ (op = .rdreg ∨ fieldReg c = 0#8) := by
  unfold decode at h
  split at h
  · cases h
  · rename_i op ho
    split at h
    · rename_i hm
      simp only [Except.ok.injEq] at h
      exact ⟨op, opcodeOf_eq.mp ho, h.symm, (matches_iff ho).mp hm⟩
    · cases h

/-- What a rejected word says of its fields. -/
theorem decode_error {c : Word} {e : Reject} (h : decode c = .error e) :
    (e = .reservedOpcode ∧ opcodeOf (fieldOpc c) = none) ∨
      ∃ op, e = .nonzeroField op ∧ opcodeOf (fieldOpc c) = some op ∧ ¬ c &&& op.mask = op.pattern := by
  unfold decode at h
  split at h
  · simp only [Except.error.injEq] at h
    exact .inl ⟨h.symm, ‹_›⟩
  · split at h
    · cases h
    · simp only [Except.error.injEq] at h
      exact .inr ⟨_, h.symm, ‹_›, ‹_›⟩

end Sys2Proof
end

