-- ==== Sys2Proof/Laws/PerInstr.lean ====
section
/-! SUPPORT. Per command: its word is one of its own row of spec/opcode_table.json, at every field value, and its OPC is the
row's (30_encoding.md R92, R93). -/

namespace Sys2Proof.Laws.TableRow

/-- The row of a command. -/
def row : Instr → Opcode
  | .nop => .nop
  | .sreset => .sreset
  | .rdreg _ => .rdreg
  | .pack _ => .pack
  | .flush => .flush
  | .uload => .uload
  | .unpack _ => .unpack
  | .isempty => .isempty
  | .dload => .dload
  | .dstep => .dstep
  | .drun => .drun

/-- The command's word matches its row, and its OPC selects the row. -/
def Statement (i : Instr) : Prop :=
  encode i &&& (row i).mask = (row i).pattern ∧ opcodeOf (fieldOpc (encode i)) = some (row i)

theorem nop : Statement .nop := by unfold Statement; decide
theorem sreset : Statement .sreset := by unfold Statement; decide
theorem flush : Statement .flush := by unfold Statement; decide
theorem uload : Statement .uload := by unfold Statement; decide
theorem isempty : Statement .isempty := by unfold Statement; decide
theorem dload : Statement .dload := by unfold Statement; decide
theorem dstep : Statement .dstep := by unfold Statement; decide
theorem drun : Statement .drun := by unfold Statement; decide

theorem rdreg (reg : Nat) : Statement (.rdreg reg) := by
  obtain ⟨ho, hw, -, hr⟩ := fields_word 0x02 0 reg 0
  have h : opcodeOf (fieldOpc (encode (.rdreg reg))) = some (row (.rdreg reg)) := opcodeOf_eq.mpr (ho.trans (show 0x02#8 = Opcode.opc .rdreg by decide))
  exact ⟨(matches_iff h).mpr ⟨hr, .inr (.inr hw), .inl rfl⟩, h⟩

theorem pack (w : Nat) : Statement (.pack w) := by
  obtain ⟨ho, -, hg, hr⟩ := fields_word 0x10 w 0 0
  have h : opcodeOf (fieldOpc (encode (.pack w))) = some (row (.pack w)) := opcodeOf_eq.mpr (ho.trans (show 0x10#8 = Opcode.opc .pack by decide))
  exact ⟨(matches_iff h).mpr ⟨hr, .inl rfl, .inr hg⟩, h⟩

theorem unpack (w : Nat) : Statement (.unpack w) := by
  obtain ⟨ho, -, hg, hr⟩ := fields_word 0x21 w 0 0
  have h : opcodeOf (fieldOpc (encode (.unpack w))) = some (row (.unpack w)) := opcodeOf_eq.mpr (ho.trans (show 0x21#8 = Opcode.opc .unpack by decide))
  exact ⟨(matches_iff h).mpr ⟨hr, .inr (.inl rfl), .inr hg⟩, h⟩

end Sys2Proof.Laws.TableRow
end

