-- ==== Sys2Proof/Laws/Transactions.lean ====
section
/-! SUPPORT. What one transaction with exactly its operands runs: the command of its word, on the ports as the host has
filled them (30_encoding.md R96). -/

namespace Sys2Proof.Machine

variable {s : State}

/-- A transaction whose word decodes, with exactly its operands, is its command. -/
theorem runTransaction_of_decode {x : Transaction} {i : Instr} (hd : decode x.cmd = .ok i)
    (hp : OperandsPresented x.cmd (s.present x)) : runTransaction x s = exec i (s.present x) := by
  rw [runTransaction, runWord_of_not_surplus (surplusOperands_of_presented hp), hd]

/-- Presenting no operands changes nothing. -/
@[simp] theorem present_plain (i : Instr) : s.present (plainTransaction i) = s := by
  simp [State.present, plainTransaction]

/-- Presenting the value of a PACK. -/
theorem present_pack (hc : s.PortsClear) (w : Nat) (v : Value) : s.present (packTransaction w v) = s.setV [v] := by
  obtain ⟨h1, h2, h3, h4⟩ := hc
  simp [State.present, packTransaction, plainTransaction, State.setV, h1]

/-- Presenting the count and the bytes of a ULOAD. -/
theorem present_uload (hc : s.PortsClear) (bytes : List Byte) : s.present (uloadTransaction bytes) =
    (s.setN [BitVec.ofNat 32 bytes.length]).setUDin bytes := by
  obtain ⟨h1, h2, h3, h4⟩ := hc
  simp [State.present, uloadTransaction, plainTransaction, State.setN, State.setUDin, h2, h3]

/-- Presenting the count and the bytes of a DLOAD. -/
theorem present_dload (hc : s.PortsClear) (bytes : List Byte) : s.present (dloadTransaction bytes) =
    (s.setN [BitVec.ofNat 32 bytes.length]).setDDin bytes := by
  obtain ⟨h1, h2, h3, h4⟩ := hc
  simp [State.present, dloadTransaction, plainTransaction, State.setN, State.setDDin, h2, h4]

/-- The word of a PACK decodes to it. -/
theorem decode_packWord {w : Nat} (h : w ≤ 255) : decode (encode (.pack w)) = .ok (.pack w) := by
  obtain ⟨h1, h2, h3, h4⟩ := fields_word 0x10 w 0 0
  have ho : opcodeOf (fieldOpc (encode (.pack w))) = some .pack := opcodeOf_eq.mpr h1
  rw [decode_of_opcodeOf ho, if_pos ((matches_iff ho).mpr ⟨h4, .inl rfl, .inr h3⟩)]
  show Except.ok (Instr.pack (fieldW (word 0x10 w 0 0)).toNat) = _
  rw [h2, BitVec.toNat_ofNat, Nat.mod_eq_of_lt (by omega)]

/-- The word of an UNPACK decodes to it. -/
theorem decode_unpackWord {w : Nat} (h : w ≤ 255) : decode (encode (.unpack w)) = .ok (.unpack w) := by
  obtain ⟨h1, h2, h3, h4⟩ := fields_word 0x21 w 0 0
  have ho : opcodeOf (fieldOpc (encode (.unpack w))) = some .unpack := opcodeOf_eq.mpr h1
  rw [decode_of_opcodeOf ho, if_pos ((matches_iff ho).mpr ⟨h4, .inr (.inl rfl), .inr h3⟩)]
  show Except.ok (Instr.unpack (fieldW (word 0x21 w 0 0)).toNat) = _
  rw [h2, BitVec.toNat_ofNat, Nat.mod_eq_of_lt (by omega)]

/-- A command without operands, on clear ports. -/
theorem runTransaction_plain {i : Instr} {op : Opcode} (hd : decode (encode i) = .ok i)
    (ho : opcodeOf (fieldOpc (encode i)) = some op) (hop : op ≠ .pack ∧ op ≠ .uload ∧ op ≠ .dload) (hc : s.PortsClear) :
    runTransaction (plainTransaction i) s = exec i s := by
  have hp : OperandsPresented (encode i) s := by
    unfold OperandsPresented
    rw [ho]
    split
    · simp_all
    · simp_all
    · simp_all
    · exact hc
  have h := runTransaction_of_decode (s := s) (x := plainTransaction i) hd (by rw [present_plain]; exact hp)
  rwa [present_plain] at h

/-- A PACK, its width within the field. -/
theorem runTransaction_pack (hc : s.PortsClear) {w : Nat} (h : w ≤ 255) (v : Value) :
    runTransaction (packTransaction w v) s = exec (.pack w) (s.setV [v]) := by
  obtain ⟨h1, h2, h3, h4⟩ := hc
  rw [← present_pack ⟨h1, h2, h3, h4⟩ w v]
  refine runTransaction_of_decode (decode_packWord h) ?_
  have ho : opcodeOf (fieldOpc (packTransaction w v).cmd) = some .pack := opcodeOf_eq.mpr (fields_word 0x10 w 0 0).1
  rw [OperandsPresented, ho]
  simp [packTransaction, plainTransaction, h1, h2, h3, h4]

/-- An UNPACK, its width within the field. -/
theorem runTransaction_unpack (hc : s.PortsClear) {w : Nat} (h : w ≤ 255) :
    runTransaction (plainTransaction (.unpack w)) s = exec (.unpack w) s :=
  runTransaction_plain (op := .unpack) (decode_unpackWord h) (opcodeOf_eq.mpr (fields_word 0x21 w 0 0).1) (by decide) hc

theorem runTransaction_flush (hc : s.PortsClear) : runTransaction (plainTransaction .flush) s = exec .flush s :=
  runTransaction_plain (op := .flush) (by decide) (by decide) (by decide) hc

theorem runTransaction_isempty (hc : s.PortsClear) : runTransaction (plainTransaction .isempty) s = exec .isempty s :=
  runTransaction_plain (op := .isempty) (by decide) (by decide) (by decide) hc

theorem runTransaction_drun (hc : s.PortsClear) : runTransaction (plainTransaction .drun) s = exec .drun s :=
  runTransaction_plain (op := .drun) (by decide) (by decide) (by decide) hc

/-- A ULOAD, its count within 32 bits. -/
theorem runTransaction_uload (hc : s.PortsClear) {bytes : List Byte} (h : bytes.length < 2 ^ 32) :
    runTransaction (uloadTransaction bytes) s =
      exec .uload ((s.setN [BitVec.ofNat 32 bytes.length]).setUDin bytes) := by
  rw [← present_uload hc]
  refine runTransaction_of_decode (show decode (encode .uload) = _ by decide) ?_
  have ho : opcodeOf (fieldOpc (uloadTransaction bytes).cmd) = some .uload :=
    show opcodeOf (fieldOpc (encode .uload)) = _ by decide
  rw [present_uload hc, OperandsPresented, ho]
  exact ⟨hc.1, ⟨_, rfl, by simp; omega⟩, hc.2.2.2⟩

/-- A DLOAD, its count within 32 bits. -/
theorem runTransaction_dload (hc : s.PortsClear) {bytes : List Byte} (h : bytes.length < 2 ^ 32) :
    runTransaction (dloadTransaction bytes) s =
      exec .dload ((s.setN [BitVec.ofNat 32 bytes.length]).setDDin bytes) := by
  rw [← present_dload hc]
  refine runTransaction_of_decode (show decode (encode .dload) = _ by decide) ?_
  have ho : opcodeOf (fieldOpc (dloadTransaction bytes).cmd) = some .dload :=
    show opcodeOf (fieldOpc (encode .dload)) = _ by decide
  rw [present_dload hc, OperandsPresented, ho]
  exact ⟨hc.1, ⟨_, rfl, by simp; omega⟩, hc.2.2.1⟩

end Sys2Proof.Machine
end

