-- ==== Sys2Proof/Tests/Slice0.lean ====
section
/-! SUPPORT. The model's own tests. Every expected result is from spec/: the vectors of 95_test_vectors.md (T-P1 and so
on) or a rule worked by hand. A `witness_<Name>` shows states and operands that meet the hypotheses of
`Obligations.<Name>`, clause by clause at the ends of its ranges. -/

namespace Sys2Proof.Tests

open Sys2Proof.Machine

/-! ## Helpers -/

/-- The outcome is a next state of which `p` holds. -/
def nextIs (o : Out) (p : State → Bool) : Bool :=
  match o with
  | .next t => p t
  | .fault _ => false
  | .refused _ => false

/-- The outcome is a next state. -/
def isNext (o : Out) : Bool := nextIs o fun _ => true

/-- The outcome is the fault f. -/
def isFault (o : Out) (f : Fault) : Bool :=
  match o with
  | .next _ => false
  | .fault g => g == f
  | .refused _ => false

theorem exists_next {o : Out} {p : State → Bool} (h : nextIs o p = true) : ∃ t, o = .next t ∧ p t = true := by
  cases o with
  | next t => exact ⟨t, rfl, h⟩
  | fault _ => cases h
  | refused _ => cases h

/-- The last response has this status and this result. -/
def answers (st : Status) (r : Value) (t : State) : Bool :=
  t.status == st && t.io.resp.getLast? == some ⟨st, r⟩

/-- Reset, with a unit U that holds these bytes and this cursor. -/
def unpacker (buf : List Byte) (pos : Nat) : State := State.reset.setU { buf := buf, pos := pos }

/-- A decoder with a blob just loaded. -/
def loaded (blob : List Byte) : State := State.reset.setD (freshDecoder blob)

/-- The blob B1 of 95_test_vectors.md W7. -/
def blobB1 : List Byte :=
  [0x03#8, 0x41#8, 0x01#8, 0x21#8, 0x01#8, 0x48#8, 0x80#8, 0x79#8, 0x0C#8, 0x0F#8, 0x80#8, 0x00#8, 0x00#8, 0x07#8,
   0x02#8, 0xAB#8, 0xFF#8, 0xB0#8]

/-- The blob B2 of 95_test_vectors.md. -/
def blobB2 : List Byte := [0x00#8, 0x5A#8, 0x01#8, 0x00#8, 0x00#8, 0x00#8, 0x01#8, 0x80#8]

/-- Four entries and fourteen symbols: the container of 95_test_vectors.md W7. -/
def containerW7 : Container :=
  { entries := [⟨0x41#8, 1, 0⟩, ⟨0x42#8, 2, 2⟩, ⟨0x44#8, 3, 6⟩, ⟨0x43#8, 3, 7⟩]
    symbols := List.replicate 5 0x41#8 ++ List.replicate 4 0x42#8 ++ List.replicate 3 0x43#8 ++ List.replicate 2 0x44#8 }

/-- A decoder in PAYLOAD over the table A = "0", with this scratch string, blob and cursor. -/
def inPayload (blob : List Byte) (pos : Nat) (scr : Bits) : Decoder :=
  { state := .payload, buf := blob, pos := pos, nsym := 1, entry := 1, cursym := 0x41#8, curlen := 1#8,
    table := [⟨0x41#8, 1, 0⟩], total := 1#32, emit := 0#32, scr := scr, out := [], errk := 0#8, errs := 0#8 }

/-- A decoder in ERROR with PAYLOAD_EXHAUSTED. -/
def inError : Decoder := { inPayload [] 0 [] with state := .error, errk := 0x04#8, errs := 0x04#8 }

/-- A decoder of an empty blob in this phase, with this D_CURLEN. -/
def inPhase (x : Phase) (blob : List Byte) (pos : Nat) : Decoder :=
  { freshDecoder blob with state := x, pos := pos, nsym := 1, curlen := 1#8 }

/-! ## WellFormed refuses ill-formed terms (30_encoding.md R105) -/

theorem test_wf_pack_width : (Instr.pack 256).WellFormed = false ∧ (Instr.pack 255).WellFormed = true := by decide
theorem test_wf_unpack_width : (Instr.unpack 256).WellFormed = false ∧ (Instr.unpack 255).WellFormed = true := by decide
theorem test_wf_rdreg_index : (Instr.rdreg 256).WellFormed = false ∧ (Instr.rdreg 255).WellFormed = true := by decide
theorem test_wf_line_value : lineOk (.pack 255 (2 ^ 256)) = false ∧ lineOk (.pack 0 (2 ^ 256 - 1)) = true := by decide
theorem test_wf_line_byte : lineOk (.uload [256]) = false ∧ lineOk (.dload [0, 256]) = false := by decide
set_option maxRecDepth 4096 in
theorem test_wf_line_packs : lineOk (.packs (List.replicate 256 true)) = false := by decide

/-! ## Decoding: words written out bit by bit from 30_encoding.md R91, R92 -/

theorem test_decode_nop : decode 0b00000000000000000000000000000000#32 = .ok .nop := by decide
theorem test_decode_sreset : decode 0b00000001000000000000000000000000#32 = .ok .sreset := by decide
theorem test_decode_rdreg : decode 0b00000010000000001000000100000000#32 = .ok (.rdreg 0x81) := by decide
theorem test_decode_pack : decode 0b00010000100000010000000000000000#32 = .ok (.pack 0x81) := by decide
theorem test_decode_flush : decode 0b00010001000000000000000000000000#32 = .ok .flush := by decide
theorem test_decode_uload : decode 0b00100000000000000000000000000000#32 = .ok .uload := by decide
theorem test_decode_unpack : decode 0b00100001010000000000000000000000#32 = .ok (.unpack 0x40) := by decide
theorem test_decode_isempty : decode 0b00100010000000000000000000000000#32 = .ok .isempty := by decide
theorem test_decode_dload : decode 0b00110000000000000000000000000000#32 = .ok .dload := by decide
theorem test_decode_dstep : decode 0b00110001000000000000000000000000#32 = .ok .dstep := by decide
theorem test_decode_drun : decode 0b00110010000000000000000000000000#32 = .ok .drun := by decide

/-- RSV of a PACK (30_encoding.md R93), a REG of a PACK (T-P12), a W of RDREG (T-C9). -/
theorem test_reject_fields :
    decode 0x10FF0080#32 = .error (.nonzeroField .pack) ∧ decode 0x10000100#32 = .error (.nonzeroField .pack) ∧
    decode 0x02010100#32 = .error (.nonzeroField .rdreg) := by decide

/-- A reserved opcode comes before a non-zero field (60_exceptions.md R282). -/
theorem test_reject_priority : decode 0x33FFFFFF#32 = .error .reservedOpcode := by decide

theorem test_table_word : decodeTableWord 32 0x10FF0000 = some (.pack 255) ∧ decodeTableWord 32 0x10FF0001 = none := by
  decide

/-- PACK 3 placed by withFetchWord runs as the next step, with V = 0: it appends three zero bits. -/
theorem test_withFetchWord :
    nextIs (step (State.reset.withFetchWord 32 0x10030000))
      (fun t => answers 0x0000#16 0#256 t && t.p.bits == [false, false, false] && t.io == { Ports.reset with
        resp := [⟨0#16, 0#256⟩] }) = true := by decide

/-! ## Control -/

/-- T-C10 -/
theorem test_nop_clears_status :
    nextIs (exec .nop { State.reset with status := 0x0102#16 }) (answers 0x0000#16 0#256) = true := by decide

/-- T-C7: bits lost, nothing emitted; a decode returns to IDLE. -/
theorem test_sreset :
    nextIs (exec .sreset ((loaded blobB2).setPBits [true, false, true, true, true]))
      (fun t => t.p.bits == [] && t.d == Decoder.reset && t.io.pDout == [] && answers 0x0000#16 0#256 t) = true := by decide

/-- T-C2, T-C5 -/
theorem test_rdreg_status_and_dstat :
    nextIs (exec (.rdreg 1) { State.reset with status := 0x0102#16 }) (answers 0x0000#16 0x0102#256) = true ∧
    nextIs (exec (.rdreg 5) (State.reset.setD { Decoder.reset with state := .error, errk := 0x04#8, errs := 0x05#8 }))
      (answers 0x0000#16 0x00050408#256) = true := by decide

/-- T-C1, T-C6, T-C8 -/
theorem test_rdreg_constants :
    nextIs (exec (.rdreg 0) State.reset) (answers 0x0000#16 0x4A5A4801#256) = true ∧
    nextIs (exec (.rdreg 13) State.reset) (answers 0x0000#16 0x10000000#256) = true ∧
    nextIs (exec (.rdreg 16) State.reset) (answers 0x0305#16 0#256) = true := by decide

/-! ## Packer -/

/-- T-P1 after one bit, T-P4d: the bits go to the end, most significant first. -/
theorem test_pack_appends :
    nextIs (exec (.pack 3) ((State.reset.setPBits [true]).setV [1#256]))
      (fun t => t.p.bits == [true, false, false, true] && t.io.v == [] && answers 0x0000#16 0#256 t) = true := by decide

/-- T-P3, T-P4, T-P11 -/
theorem test_pack_too_wide :
    nextIs (exec (.pack 0) (State.reset.setV [1#256])) (answers 0x0101#16 0#256) = true ∧
    nextIs (exec (.pack 255) (State.reset.setV [BitVec.ofNat 256 (2 ^ 255)])) (answers 0x0101#16 0#256) = true ∧
    nextIs (exec (.pack 1) (((State.resetWith { Config.default with pCapBits := 255 }).setPBits
      (List.replicate 255 true)).setV [3#256])) (answers 0x0101#16 0#256) = true := by decide

/-- PR1: 101111111110 pads four zero bits and emits BF E0. -/
theorem test_flush_pads :
    nextIs (exec .flush (State.reset.setPBits
        [true, false, true, true, true, true, true, true, true, true, true, false]))
      (fun t => t.io.pDout == [0xBF#8, 0xE0#8] && t.p.bits == [] && answers 0x0000#16 2#256 t) = true := by decide

/-- T-P5, T-P7: an empty or aligned buffer gets no pad. -/
theorem test_flush_aligned :
    nextIs (exec .flush State.reset) (fun t => t.io.pDout == [] && answers 0x0000#16 0#256 t) = true ∧
    nextIs (exec .flush (State.reset.setPBits [true, false, true, false, true, false, true, true]))
      (fun t => t.io.pDout == [0xAB#8] && answers 0x0000#16 1#256 t) = true := by decide

/-! ## Unpacker -/

/-- As T-U9, with one byte. -/
theorem test_uload_replaces :
    nextIs (runTransaction (uloadTransaction [0x12#8]) (unpacker [0xBF#8, 0xE0#8] 5))
      (fun t => t.u == { buf := [0x12#8], pos := 0 } && t.io.uDin == [] && t.io.n == [] &&
        answers 0x0000#16 0#256 t) = true := by decide

/-- T-U8 -/
theorem test_uload_too_big :
    nextIs (exec .uload (((State.resetWith { Config.default with uCapBytes := 4 }).setN [5#32]).setUDin
        [1#8, 2#8, 3#8, 4#8, 5#8]))
      (fun t => t.u == Unpacker.reset && t.io.uDin == [] && answers 0x0206#16 0#256 t) = true := by decide

/-- T-U6 -/
theorem test_unpack_straddles_bytes :
    nextIs (exec (.unpack 32) (unpacker [0x12#8, 0x34#8, 0x56#8, 0x78#8, 0x9A#8] 4))
      (fun t => t.u.pos == 36 && answers 0x0000#16 0x23456789#256 t) = true := by decide

/-- T-U4, T-U3 -/
theorem test_unpack_short :
    nextIs (exec (.unpack 5) (unpacker [0xBF#8, 0xE0#8] 12))
      (fun t => t.u.pos == 12 && answers 0x0102#16 0#256 t) = true ∧
    nextIs (exec (.unpack 0) State.reset) (answers 0x0000#16 0#256) = true := by decide

/-- T-U1, T-U10 -/
theorem test_isempty :
    nextIs (exec .isempty State.reset) (answers 0x0000#16 1#256) = true ∧
    nextIs (exec .isempty (unpacker [0xBF#8, 0xE0#8] 12)) (answers 0x0000#16 0#256) = true := by decide

/-! ## Decoder -/

/-- DLOAD discards what was there, in every D_STATE (43_decoder.md R201). -/
theorem test_dload_restarts :
    nextIs (runTransaction (dloadTransaction blobB2) (State.reset.setD inError))
      (fun t => t.d == freshDecoder blobB2 && t.io.dDin == [] && answers 0x0000#16 0#256 t) = true := by decide

/-- T-D18 -/
theorem test_dload_too_big :
    nextIs (exec .dload (({ loaded blobB2 with cfg := { Config.default with dCapBytes := 8 } }.setN [9#32]).setDDin
        (List.replicate 9 0#8)))
      (fun t => t.d == freshDecoder blobB2 && t.io.dDin == [] && answers 0x0306#16 0#256 t) = true := by decide

/-- The step trace of B2, after its eight steps: DONE at bit 60. -/
theorem test_dstep_trace :
    nextIs (execAll (List.replicate 8 .dstep) (loaded blobB2))
      (fun t => t.d.state == .done && t.d.pos == 60 && t.d.out == [0x5A#8, 0x5A#8, 0x5A#8] &&
        t.io.dDout == [0x5A#8, 0x5A#8, 0x5A#8] && answers 0x0000#16 0#256 t) = true := by decide

/-- T-D16, and a ZERO_LEN step keeps its advance of D_POS (T-D8). -/
theorem test_dstep_fails :
    nextIs (exec .dstep State.reset) (fun t => t.d == Decoder.reset && answers 0x0405#16 0#256 t) = true ∧
    nextIs (exec .dstep (State.reset.setD (inPhase .hdrLen [0x00#8, 0x41#8, 0x00#8] 16)))
      (fun t => t.d.pos == 24 && t.d.state == .error && answers 0x0204#16 0#256 t) = true := by decide

/-- T-D1 -/
theorem test_drun_W7 :
    nextIs (exec .drun (loaded blobB1))
      (fun t => t.d.state == .done && t.d.pos == 141 && t.d.out == containerW7.symbols && t.d.nsym == 4 &&
        answers 0x0000#16 14#256 t) = true := by decide

/-- T-D9, T-D10, T-D11: the three policies on two entries with the code "0". -/
theorem test_drun_policies :
    let blob : List Byte := [0x01#8, 0x41#8, 0x01#8, 0x21#8, 0x00#8, 0x80#8, 0x00#8, 0x00#8, 0x00#8, 0x40#8]
    let run (x : DupCodePolicy) := exec .drun { loaded blob with cfg := { Config.default with dupCodePolicy := x } }
    nextIs (run .fault) (fun t => t.d.pos == 42 && t.d.entry == 1 && answers 0x0304#16 0#256 t) = true ∧
    nextIs (run .firstWins) (fun t => t.d.out == [0x41#8] && t.d.pos == 75 && answers 0x0000#16 1#256 t) = true ∧
    nextIs (run .lastWins) (fun t => t.d.out == [0x42#8] && t.d.pos == 75 && answers 0x0000#16 1#256 t) = true := by decide

set_option maxRecDepth 4096 in
/-- The bytes of W7. -/
theorem test_container_W7 : containerBytes containerW7 = blobB1 := by decide

/-! ## Reset and the assembler -/

/-- A PACK cut off by power-on reset: no response, its operand gone, nothing packed (70_reset_and_hazards.md R321). -/
theorem test_cut_by_reset :
    nextIs (step (State.reset.setCmd [.commandCutByReset (packTransaction 1 1#256)]))
      (fun t => t.p.bits == [] && t.io.resp == [] && t.io.v == [] && t.io.cmd == []) = true := by decide

/-- A NOP with a value on V, and a ULOAD with a byte more than N, have no step (70_reset_and_hazards.md R324). -/
theorem test_surplus :
    isFault (step (State.reset.setCmd [.command { plainTransaction .nop with v := [0#256] }])) .surplusOperands = true ∧
    isFault (step (State.reset.setCmd [.command { uloadTransaction [0x12#8] with uDin := [0x12#8, 0x34#8] }]))
      .surplusOperands = true := by decide

/-- DECODE stands for DLOAD and DRUN, PACKS "0110" for PACK 4, 6 (30_encoding.md R106). -/
theorem test_pseudo :
    assemble (.packs [false, true, true, false]) = assemble (.pack 4 6) ∧
    (assemble (.decode [0, 0x5A])).map (List.map Transaction.cmd) = some [0x30000000#32, 0x32000000#32] := by decide

/-- Text in the three notations of 30_encoding.md R105; a missing operand and an operand too many are refused. -/
theorem test_text :
    parseLine "PACK 3, 0b101".toList = some (.pack 3 5) ∧ parseLine "DLOAD [0x5A, 1]".toList = some (.dload [0x5A, 1]) ∧
    parseLine "PACK 3".toList = none ∧ parseLine "NOP 1".toList = none := by decide

/-! ## Witnesses -/

/-- A reset block with these actions at the command port. -/
def host (q : List HostAction) : State := State.reset.setCmd q

/-- A legal block with its decoder in PAYLOAD, one bit of the byte 40 read. -/
def payloadState : State := State.reset.setD (inPayload [0x40#8] 1 [])

/-- A block with its decoder in this phase over the blob [80], the cursor at bit `pos`. -/
def phaseState (x : Phase) (pos : Nat) : State := State.reset.setD (inPhase x [0x80#8] pos)

/-- A reset block on whose ports the operands of a PACK, of a ULOAD or of a DLOAD stand. -/
def servedV : State := State.reset.setV [1#256]
def servedU : State := (State.reset.setN [1#32]).setUDin [0x12#8]
def servedD : State := (State.reset.setN [1#32]).setDDin [0x34#8]

theorem witness_StateInv_loaded : StateInv (loaded blobB2) where
  cfgInRange := by decide
  packerFits := by decide
  unpackerFits := by decide
  cursorInside := by decide
  decoder := by
    constructor <;> first | decide | (intro h; cases h)
  statusKnown := .inl rfl
  portsClear := by decide
  responses := by
    intro x h
    cases h

theorem witness_StateInv_payload : StateInv payloadState where
  cfgInRange := by decide
  packerFits := by decide
  unpackerFits := by decide
  cursorInside := by decide
  decoder := by
    constructor <;> first | decide | (intro h; cases h)
  statusKnown := .inl rfl
  portsClear := by decide
  responses := by
    intro x h
    cases h

/-! ### Words and steps -/

theorem witness_DecodeOfEncode :
    (Instr.pack 0).WellFormed = true ∧ (Instr.pack 255).WellFormed = true ∧ (Instr.rdreg 255).WellFormed = true := by decide

theorem witness_EncodeOfDecode : decode 0x10FF0000#32 = .ok (.pack 255) := by decide

/-- A word with no bad field, and one with RSV, one with W, one with REG bad; the operand of the PACK is presented. -/
theorem witness_UnusedFieldsMustBeZero :
    opcodeOf ((0x10FF0000#32).extractLsb' 24 8) = some .pack ∧
    ¬ ((0x10FF0000#32).extractLsb' 0 8 ≠ 0#8 ∨ (0x10FF0000#32).extractLsb' 8 8 ≠ 0#8) ∧
    (opcodeOf ((0x10000001#32).extractLsb' 24 8) = some .pack ∧ (0x10000001#32).extractLsb' 0 8 ≠ 0#8) ∧
    (opcodeOf ((0x02010000#32).extractLsb' 24 8) = some .rdreg ∧ (0x02010000#32).extractLsb' 16 8 ≠ 0#8) ∧
    (opcodeOf ((0x10000100#32).extractLsb' 24 8) = some .pack ∧ (0x10000100#32).extractLsb' 8 8 ≠ 0#8) ∧
    OperandsPresented 0x10000001#32 servedV ∧ OperandsPresented 0x02010000#32 State.reset :=
  ⟨by decide, by decide, by decide, by decide, by decide, ⟨⟨_, rfl⟩, rfl, rfl, rfl⟩, ⟨rfl, rfl, rfl, rfl⟩⟩

/-- The reserved opcodes next to assigned ones. -/
theorem witness_ReservedOpcodeCompletes :
    State.reset.PortsClear ∧
    ((0xFF000000#32).extractLsb' 24 8).toNat ∉ [0x00, 0x01, 0x02, 0x10, 0x11, 0x20, 0x21, 0x22, 0x30, 0x31, 0x32] ∧
    ((0x03000000#32).extractLsb' 24 8).toNat ∉ [0x00, 0x01, 0x02, 0x10, 0x11, 0x20, 0x21, 0x22, 0x30, 0x31, 0x32] ∧
    ((0x33000000#32).extractLsb' 24 8).toNat ∉ [0x00, 0x01, 0x02, 0x10, 0x11, 0x20, 0x21, 0x22, 0x30, 0x31, 0x32] := by
  decide

theorem witness_StepRunsDecodedCommand :
    (host [.command (packTransaction 3 1#256)]).io.cmd = .command (packTransaction 3 1#256) :: [] ∧
    OperandsPresented (packTransaction 3 1#256).cmd (State.reset.present (packTransaction 3 1#256)) ∧
    decode (packTransaction 3 1#256).cmd = .ok (.pack 3) :=
  ⟨rfl, ⟨⟨_, rfl⟩, rfl, rfl, rfl⟩, by decide⟩

theorem witness_WaitsWithoutCommand : (loaded blobB2).io.cmd = [] := by decide

theorem witness_BothResetsRestoreResetState : (host [.powerOnReset]).io.cmd = .powerOnReset :: [] := by decide

/-- A FLUSH cut off by reset, which uncut would have emitted a byte, and a PACK whose value was still to come, which uncut
would not have completed. -/
theorem witness_ResetCutsTransaction :
    (let s := (host [.commandCutByReset (plainTransaction .flush)]).setPBits [true]
     s.io.cmd = .commandCutByReset (plainTransaction .flush) :: [] ∧
      surplusOperands (plainTransaction .flush).cmd (s.present (plainTransaction .flush)) = false ∧
      nextIs (step (s.setCmd [.command (plainTransaction .flush)])) (fun u => u.io.pDout == [0x80#8]) = true) ∧
    (let s := host [.commandCutByReset (plainTransaction (.pack 3))]
     surplusOperands (plainTransaction (.pack 3)).cmd (s.present (plainTransaction (.pack 3))) = false ∧
      isNext (step (s.setCmd [.command (plainTransaction (.pack 3))])) = false) := by decide

theorem witness_ConfigFixedAndOutputsGrow :
    ∃ t, step ((host [.command (plainTransaction .flush)]).setPBits [true]) = .next t ∧ decide (t.io.pDout = [0x80#8]) = true :=
  exists_next (by decide)

theorem witness_CompletesWhenHostConforms :
    (host [.command (uloadTransaction [0x12#8])]).io.cmd = .command (uloadTransaction [0x12#8]) :: [] ∧
    HostMeetsObligations (uloadTransaction [0x12#8]) (host [.command (uloadTransaction [0x12#8])]) :=
  ⟨rfl, ⟨rfl, ⟨_, rfl, rfl⟩, rfl⟩, rfl, rfl⟩

/-- Clause by clause: no V, no N, U_DIN and D_DIN one byte short (for commands and for malformed words), P_DOUT and D_DOUT
not drained, a command before the response. -/
theorem witness_StuckWhenHostBreaksObligation :
    State.reset.PortsClear ∧ (0x10000001#32).extractLsb' 24 8 = 0x10#8 ∧ (0x20000001#32).extractLsb' 24 8 = 0x20#8 ∧
    (0x30000001#32).extractLsb' 24 8 = 0x30#8 ∧
    ((servedU.setN [2#32]).io.n = 2#32 :: [] ∧ (servedU.setN [2#32]).io.uDin.length < (2#32).toNat ∧
      (servedU.setN [2#32]).io.v = [] ∧ (servedU.setN [2#32]).io.dDin = []) ∧
    ((servedD.setN [2#32]).io.n = 2#32 :: [] ∧ (servedD.setN [2#32]).io.dDin.length < (2#32).toNat ∧
      (servedD.setN [2#32]).io.v = [] ∧ (servedD.setN [2#32]).io.uDin = []) ∧
    (let s := { (State.reset.setPBits [true]) with io := { Ports.reset with pReady := false } }
     s.p.bits ≠ [] ∧ s.io.pReady = false) ∧
    (let s := { payloadState with d := inPayload [0x7F#8] 0 [], io := { Ports.reset with dReady := false } }
     s.io.dReady = false ∧ s.d.state = .payload ∧ s.d.pos + 1 ≤ 8 * s.d.buf.length ∧
      lookup s.cfg.dupCodePolicy s.d.table (s.d.scr ++ [bitAt s.d.buf s.d.pos]) = some 0x41#8 ∧
      nextIs (exec .drun { s with io := { s.io with dReady := true } }) (fun t => t.io.dDout != s.io.dDout) = true) ∧
    (host [.commandBeforeResponse (plainTransaction .drun) 0x00000000#32]).io.cmd =
      .commandBeforeResponse (plainTransaction .drun) 0x00000000#32 :: [] := by decide

/-- One completed word for each length of a transaction (30_encoding.md R96): CMD alone, with V, with N and bytes. -/
theorem witness_OperandsConsumedByOpcodeAlone :
    isNext (runWord 0x00000000#32 State.reset) = true ∧ isNext (runWord 0xFF000000#32 State.reset) = true ∧
    isNext (runWord 0x10010000#32 servedV) = true ∧ isNext (runWord 0x20000000#32 servedU) = true ∧
    isNext (runWord 0x30000000#32 servedD) = true ∧ isNext (runWord 0x30000001#32 servedD) = true := by decide

/-! ### Statuses and errors -/

/-- A word that fails, and one that succeeds. -/
theorem witness_EveryCommandResponds :
    (∃ t, runWord 0xFF000000#32 State.reset = .next t ∧ decide (t.status ≠ 0#16) = true) ∧
    ∃ t, runWord 0x00000000#32 State.reset = .next t ∧ decide (t.status = 0#16) = true :=
  ⟨exists_next (by decide), exists_next (by decide)⟩

/-- A failing word outside the decoder, and a failing decoder step. -/
theorem witness_FailureChangesOnlyStatus :
    (∃ t, runWord 0x21010000#32 State.reset = .next t ∧ decide (t.status ≠ 0#16) = true) ∧
    ∃ t, runWord 0x31000000#32 (phaseState .hdrSym 8) = .next t ∧ decide (t.status ≠ 0#16) = true :=
  ⟨exists_next (by decide), exists_next (by decide)⟩

theorem witness_ErrorPersistsUntilLoadOrReset :
    (State.reset.setD inError).d.state = .error ∧
    ∃ t, exec (.rdreg 5) (State.reset.setD inError) = .next t ∧ decide (Instr.rdreg 5 ≠ .dload ∧ Instr.rdreg 5 ≠ .sreset) = true :=
  ⟨rfl, exists_next (by decide)⟩

theorem witness_NextCommandIgnoresStatus : Instr.rdreg 0 ≠ .rdreg 1 ∧ Instr.flush ≠ .rdreg 1 := by decide

/-- One completed command of each unit. -/
theorem witness_UnitsAreIsolated :
    isNext (exec (.pack 1) servedV) = true ∧ isNext (exec .flush State.reset) = true ∧
    isNext (exec .uload servedU) = true ∧ isNext (exec (.unpack 0) State.reset) = true ∧
    isNext (exec .isempty State.reset) = true ∧ isNext (exec .dload servedD) = true ∧
    isNext (exec .dstep payloadState) = true ∧ isNext (exec .drun payloadState) = true := by decide

/-! ### The invariant -/

/-- The smallest parameters of 00_scope.md R6 and the largest. -/
theorem witness_ResetStateIsLegal :
    ({ pCapBits := 255, uCapBytes := 1, dCapBytes := 1, dupCodePolicy := .lastWins } : Config).InRange ∧
    ({ pCapBits := 2 ^ 32 - 1, uCapBytes := 2 ^ 29 - 1, dCapBytes := 2 ^ 29 - 1, dupCodePolicy := .fault } : Config).InRange := by
  decide

/-- The block waiting, and a command of a legal state. -/
theorem witness_StepKeepsStateLegal : StateInv (loaded blobB2) ∧ (∃ t, step (loaded blobB2) = .next t ∧ true = true) ∧
    ∃ t, step ((loaded blobB2).setCmd [.command (plainTransaction .dstep)]) = .next t ∧ decide (t.d.state = .hdrSym) = true :=
  ⟨witness_StateInv_loaded, exists_next (by decide), exists_next (by decide)⟩

/-! ### Block control -/

theorem witness_NopSetsStatusOk :
    State.reset.PortsClear ∧ (0x00000001#32).extractLsb' 24 8 = 0x00#8 ∧
    (0x00000001#32).extractLsb' 0 24 ≠ 0#24 := by decide

/-- The invariant, the ends of the reserved indices, and RDREG with W bad (T-C9). -/
theorem witness_RdregReadsRegisterMap :
    StateInv (loaded blobB2) ∧ (0x10 ≤ 0x10 ∧ 0x10 ≤ 0xFF) ∧ (0x10 ≤ 0xFF ∧ 0xFF ≤ 0xFF) ∧
    (loaded blobB2).PortsClear ∧
    (0x02010100#32).extractLsb' 24 8 = 0x02#8 ∧ (0x02010100#32).extractLsb' 16 8 ≠ 0#8 :=
  ⟨witness_StateInv_loaded, by decide, by decide, by decide, by decide, by decide⟩

theorem witness_RdregStatusReadsStatusBefore : 0x10 ≤ 0x10 := by decide

/-! ### Bit strings and buffers -/

theorem witness_ValAndBitsAreInverse : 0 < 2 ^ 0 ∧ 255 < 2 ^ 8 ∧ 0 < [true].length := by decide

theorem witness_ReadBitsNamesAddressedBits :
    12 + 4 ≤ 8 * [0xBF#8, 0xE0#8].length ∧ 0 + 0 ≤ 8 * ([] : List Byte).length ∧ 3 < 4 := by decide

theorem witness_BytesOfPacksMostSignificantFirst :
    8 ∣ ([] : Bits).length ∧ 8 ∣ [true, false, false, false, false, false, false, true].length ∧ 0 < 8 / 8 ∧ 7 < 8 := by decide

theorem witness_MixedWidthsCompose :
    0 + 3 + 13 ≤ 8 * [0xBF#8, 0xE0#8].length ∧ 254 + 1 ≤ 255 ∧ (1#256).toNat < 2 ^ 254 ∧ (1#256).toNat < 2 ^ 1 ∧
    State.reset.p.bits.length + 254 + 1 ≤ State.reset.cfg.pCapBits := by decide

/-! ### Packer and unpacker -/

set_option maxRecDepth 4096 in
/-- Too wide by one, a full buffer, a fit up to the last bit, and a malformed PACK (T-P12). -/
theorem witness_PackAppendsBits :
    (State.reset.setV [2#256]).io.v = 2#256 :: [] ∧ 2 ^ 1 ≤ (2#256).toNat ∧
    (let s := (State.resetWith { Config.default with pCapBits := 255 }).setPBits (List.replicate 255 true)
     (1#256).toNat < 2 ^ 1 ∧ s.cfg.pCapBits < s.p.bits.length + 1) ∧
    (let s := (State.resetWith { Config.default with pCapBits := 255 }).setPBits (List.replicate 254 true)
     (1#256).toNat < 2 ^ 1 ∧ s.p.bits.length + 1 ≤ s.cfg.pCapBits) ∧
    OperandsPresented 0x10000100#32 servedV ∧ (0x10000100#32).extractLsb' 24 8 = 0x10#8 ∧
    (0x10000100#32).extractLsb' 0 16 ≠ 0#16 :=
  ⟨by decide, by decide, by decide, by decide, ⟨⟨_, rfl⟩, rfl, rfl, rfl⟩, by decide, by decide⟩

/-- An empty buffer with the port not drained, a full one with it drained, and T-P13. -/
theorem witness_FlushEmitsPaddedBytes :
    ({ State.reset with io := { Ports.reset with pReady := false } }.p.bits = []) ∧ State.reset.io.pReady = true ∧
    State.reset.PortsClear ∧ (0x11010000#32).extractLsb' 24 8 = 0x11#8 ∧
    (0x11010000#32).extractLsb' 0 24 ≠ 0#24 := by decide

theorem witness_PackerCommandsFrame :
    isNext (exec .flush (State.reset.setPBits [true])) = true ∧ isNext (exec (.pack 1) servedV) = true ∧
    isNext (exec (.pack 0) servedV) = true := by decide

/-- N equal to the capacity, N above it, and a malformed ULOAD. -/
theorem witness_UloadReplacesStream :
    (let s := { servedU with cfg := { Config.default with uCapBytes := 1 } }
     s.io.n = 1#32 :: [] ∧ (1#32).toNat ≤ s.io.uDin.length ∧ (1#32).toNat ≤ s.cfg.uCapBytes) ∧
    (let s := { ((servedU.setN [2#32]).setUDin [0#8, 0#8]) with cfg := { Config.default with uCapBytes := 1 } }
     s.io.n = 2#32 :: [] ∧ (2#32).toNat ≤ s.io.uDin.length ∧ s.cfg.uCapBytes < (2#32).toNat) ∧
    OperandsPresented 0x20000001#32 servedU ∧ (0x20000001#32).extractLsb' 24 8 = 0x20#8 ∧
    (0x20000001#32).extractLsb' 0 24 ≠ 0#24 :=
  ⟨by decide, by decide, ⟨rfl, ⟨_, rfl, rfl⟩, rfl⟩, by decide, by decide⟩

/-- The last four bits, one bit too many (T-U5, T-U4), and a malformed UNPACK. -/
theorem witness_UnpackReadsNextBits :
    (unpacker [0xBF#8, 0xE0#8] 12).u.pos ≤ 8 * (unpacker [0xBF#8, 0xE0#8] 12).u.buf.length ∧
    (unpacker [0xBF#8, 0xE0#8] 12).u.pos + 4 ≤ 8 * (unpacker [0xBF#8, 0xE0#8] 12).u.buf.length ∧
    8 * (unpacker [0xBF#8, 0xE0#8] 12).u.buf.length < (unpacker [0xBF#8, 0xE0#8] 12).u.pos + 5 ∧
    State.reset.PortsClear ∧ (0x21040100#32).extractLsb' 24 8 = 0x21#8 ∧
    (0x21040100#32).extractLsb' 0 16 ≠ 0#16 := by decide

theorem witness_IsemptyReportsUnreadBits :
    (unpacker [0xBF#8, 0xE0#8] 16).u.pos = 8 * (unpacker [0xBF#8, 0xE0#8] 16).u.buf.length ∧
    (unpacker [0xBF#8, 0xE0#8] 15).u.pos ≠ 8 * (unpacker [0xBF#8, 0xE0#8] 15).u.buf.length ∧
    State.reset.PortsClear ∧ (0x22800000#32).extractLsb' 24 8 = 0x22#8 ∧
    (0x22800000#32).extractLsb' 0 24 ≠ 0#24 := by decide

theorem witness_UnpackerCommandsFrame :
    isNext (exec .uload servedU) = true ∧ isNext (exec .isempty State.reset) = true ∧
    isNext (exec (.unpack 4) (unpacker [0xBF#8, 0xE0#8] 12)) = true ∧
    isNext (exec (.unpack 5) (unpacker [0xBF#8, 0xE0#8] 12)) = true := by decide

/-- The widths 3, 8 and 1 of PR1, and the bytes BF E0 it emits. -/
theorem witness_PackFlushUnpackRoundTrip :
    let ws : List (Nat × Value) := [(3, 5#256), (8, 0xFF#256), (1, 0#256)]
    let s := State.reset
    (∀ x ∈ ws, x.1 ≤ 255 ∧ x.2.toNat < 2 ^ x.1) ∧ s.PortsClear ∧ s.p.bits = [] ∧
    (ws.map Prod.fst).sum ≤ s.cfg.pCapBits ∧ s.cfg.InRange ∧ s.io.pReady = true ∧
    [0xBF#8, 0xE0#8].length ≤ s.cfg.uCapBytes ∧
    nextIs (runAll (ws.map (fun x => packTransaction x.1 x.2) ++ [plainTransaction .flush]) s)
      (fun t => t.io.pDout == [0xBF#8, 0xE0#8]) = true := by decide

/-! ### The decoder -/

/-- N equal to the capacity, N above it, and a malformed DLOAD. -/
theorem witness_DloadStartsFreshDecode :
    (let s := { servedD with cfg := { Config.default with dCapBytes := 1 } }
     s.io.n = 1#32 :: [] ∧ (1#32).toNat ≤ s.io.dDin.length ∧ (1#32).toNat ≤ s.cfg.dCapBytes) ∧
    (let s := { ((servedD.setN [2#32]).setDDin [0#8, 0#8]) with cfg := { Config.default with dCapBytes := 1 } }
     s.io.n = 2#32 :: [] ∧ (2#32).toNat ≤ s.io.dDin.length ∧ s.cfg.dCapBytes < (2#32).toNat) ∧
    OperandsPresented 0x30000001#32 servedD ∧ (0x30000001#32).extractLsb' 24 8 = 0x30#8 ∧
    (0x30000001#32).extractLsb' 0 24 ≠ 0#24 :=
  ⟨by decide, by decide, ⟨rfl, ⟨_, rfl, rfl⟩, rfl⟩, by decide, by decide⟩

theorem witness_RestPhasesRefuseToStep :
    State.reset.d.state = .idle ∧ (phaseState .done 8).d.state = .done ∧ (State.reset.setD inError).d.state = .error ∧
    State.reset.PortsClear ∧ (0x32000001#32).extractLsb' 24 8 = 0x32#8 ∧
    (0x32000001#32).extractLsb' 0 24 ≠ 0#24 ∧ (0x31000001#32).extractLsb' 24 8 = 0x31#8 ∧
    (0x31000001#32).extractLsb' 0 24 ≠ 0#24 := by decide

/-- Eight bits left, and seven; the same of the next two statements. -/
theorem witness_DstepReadsSymbolCount :
    (phaseState .hdrCount 0).d.state = .hdrCount ∧
    (phaseState .hdrCount 0).d.pos + 8 ≤ 8 * (phaseState .hdrCount 0).d.buf.length ∧
    8 * (phaseState .hdrCount 1).d.buf.length < (phaseState .hdrCount 1).d.pos + 8 := by decide

theorem witness_DstepReadsSymbol :
    (phaseState .hdrSym 0).d.state = .hdrSym ∧
    (phaseState .hdrSym 0).d.pos + 8 ≤ 8 * (phaseState .hdrSym 0).d.buf.length ∧
    8 * (phaseState .hdrSym 1).d.buf.length < (phaseState .hdrSym 1).d.pos + 8 := by decide

/-- Also a length of 0, and one that is not. -/
theorem witness_DstepReadsCodeLength :
    (phaseState .hdrLen 0).d.state = .hdrLen ∧
    (phaseState .hdrLen 0).d.pos + 8 ≤ 8 * (phaseState .hdrLen 0).d.buf.length ∧
    bitsVal (readBits (phaseState .hdrLen 0).d.buf 0 8) ≠ 0 ∧
    8 * (phaseState .hdrLen 1).d.buf.length < (phaseState .hdrLen 1).d.pos + 8 ∧
    bitsVal (readBits (State.reset.setD (inPhase .hdrLen [0x00#8] 0)).d.buf 0 8) = 0 := by decide

/-- The last bit of the blob, none left, and a code already in the table. -/
theorem witness_DstepReadsCodeValue :
    (phaseState .hdrCode 7).d.state = .hdrCode ∧ (phaseState .hdrCode 7).d.curlen ≠ 0#8 ∧
    (phaseState .hdrCode 7).d.pos + 1 ≤ 8 * (phaseState .hdrCode 7).d.buf.length ∧
    8 * (phaseState .hdrCode 8).d.buf.length < (phaseState .hdrCode 8).d.pos + 1 ∧
    (let s := State.reset.setD { inPhase .hdrCode [0x80#8] 7 with table := [⟨0x41#8, 1, 0⟩] }
     s.d.state = .hdrCode ∧ s.cfg.dupCodePolicy = .fault ∧
      ∃ e ∈ s.d.table, e.len = 1 ∧ e.val = bitsVal (readBits s.d.buf s.d.pos 1)) := by decide

/-- Thirty-two bits left, and thirty-one. -/
theorem witness_DstepReadsTotalSymbols :
    let s := State.reset.setD (inPhase .total [0x80#8, 0x00#8, 0x00#8, 0x00#8] 0)
    let s' := State.reset.setD (inPhase .total [0x80#8, 0x00#8, 0x00#8, 0x00#8] 1)
    s.d.state = .total ∧ s.d.pos + 32 ≤ 8 * s.d.buf.length ∧ s'.d.state = .total ∧
    8 * s'.d.buf.length < s'.d.pos + 32 := by decide

set_option maxRecDepth 4096 in
/-- The blob read to its end; a bit that matches; one that does not, as the 255th bit and as the 256th. -/
theorem witness_DstepReadsPayloadBit :
    (inPayload [0x40#8] 8 []).emit.toNat < (inPayload [0x40#8] 8 []).total.toNat ∧
    8 * [0x40#8].length < 8 + 1 ∧
    lookup .fault (inPayload [0x40#8] 0 []).table [bitAt [0x40#8] 0] = some 0x41#8 ∧ State.reset.io.dReady = true ∧
    (let d := inPayload [0x40#8] 7 (List.replicate 254 false)
     lookup .fault d.table (d.scr ++ [bitAt d.buf d.pos]) = none ∧ d.scr.length < 255 ∧ d.pos + 1 ≤ 8 * d.buf.length) ∧
    (let d := inPayload [0x40#8] 7 (List.replicate 255 false)
     lookup .fault d.table (d.scr ++ [bitAt d.buf d.pos]) = none ∧ 255 ≤ d.scr.length) := by decide

theorem witness_DrunEndsWithinBound :
    phaseAtRest (loaded blobB2).d.state = false ∧ (loaded blobB2).io.dReady = true := by decide

theorem witness_DstepsReachWhatDrunReaches :
    phaseAtRest (loaded blobB2).d.state = false ∧
    (∃ u, execAll (List.replicate 8 .dstep) (loaded blobB2) = .next u ∧ decide (u.d.state = .done) = true) ∧
    ∃ t, exec .drun (loaded blobB2) = .next t ∧ true = true :=
  ⟨rfl, exists_next (by decide), exists_next (by decide)⟩

/-- A run that ends in DONE, and one that ends in ERROR. -/
theorem witness_DrunOutputValidOnlyInDone :
    StateInv (loaded blobB2) ∧ phaseAtRest (loaded blobB2).d.state = false ∧
    (∃ t, exec .drun (loaded blobB2) = .next t ∧ decide (t.d.state = .done) = true) ∧
    StateInv payloadState ∧ ∃ t, exec .drun payloadState = .next t ∧ decide (t.d.state = .error) = true :=
  ⟨witness_StateInv_loaded, rfl, exists_next (by decide), witness_StateInv_payload, exists_next (by decide)⟩

theorem witness_DecoderCommandsFrame :
    isNext (exec .dload servedD) = true ∧ isNext (exec .dstep (loaded blobB2)) = true ∧
    isNext (exec .drun (loaded blobB2)) = true := by decide

/-- B2 decodes to bit 60; a blob of the same length with its four padding bits set to ones has the same bits below 60. -/
theorem witness_TrailingBytesNeverRead :
    nextIs (exec .drun (loaded blobB2)) (fun t => t.d.state == .done && t.d.pos == 60) = true ∧
    (let blob : List Byte := [0x00#8, 0x5A#8, 0x01#8, 0x00#8, 0x00#8, 0x00#8, 0x01#8, 0x8F#8]
     60 ≤ 8 * blob.length ∧ blob ≠ blobB2 ∧ ∀ a, a < 60 → (blob[a / 8]?).map (fun b => b.getLsbD (7 - a % 8)) =
       (blobB2[a / 8]?).map (fun b => b.getLsbD (7 - a % 8))) := by decide

/-- A payload bit 1 with 256 bits left, and with fewer. -/
theorem witness_OneSymbolTableDecodes :
    (let s := State.reset.setD (inPayload (List.replicate 32 0x80#8) 0 [])
     s.d.state = .payload ∧ s.d.table = [⟨0x41#8, 1, 0⟩] ∧ s.d.scr = [] ∧ s.d.pos < 8 * s.d.buf.length ∧
      bitAt s.d.buf s.d.pos = true ∧ s.d.pos + 256 ≤ 8 * s.d.buf.length) ∧
    (let s := State.reset.setD (inPayload [0x01#8] 7 [])
     s.d.pos < 8 * s.d.buf.length ∧ bitAt s.d.buf s.d.pos = true ∧ 8 * s.d.buf.length < s.d.pos + 256) := by decide

/-- A policy that is not last_wins, and a legal decoder under the policy fault. -/
theorem witness_LookupFindsCode :
    DupCodePolicy.firstWins ≠ .lastWins ∧ DecoderInv payloadState.cfg payloadState.d ∧
    payloadState.cfg.dupCodePolicy = .fault :=
  ⟨by decide, witness_StateInv_payload.decoder, rfl⟩

/-- A TOTAL step that succeeds; a PAYLOAD state; and T-D12, where "0" begins "01". -/
theorem witness_ShorterCodeMatchesFirst :
    (let d := inPhase .total [0x00#8, 0x00#8, 0x00#8, 0x01#8] 0
     d.state = .total ∧ (decoderStep .fault d).err = none) ∧
    (payloadState.d.state = .payload ∧ NoCodeBegins .fault payloadState.d.table payloadState.d.scr) ∧
    (let a : Entry := ⟨0x41#8, 1, 0⟩
     let b : Entry := ⟨0x42#8, 2, 1⟩
     a ∈ [a, b] ∧ EntryInRange a ∧ entryCode a <+: entryCode b ∧ a.len < b.len) := by
  refine ⟨by decide, ⟨rfl, fun k h1 h2 => ?_⟩, by decide⟩
  have : payloadState.d.scr.length = 0 := rfl
  omega

theorem witness_TrieWalkAgreesWithLookup : ∀ e ∈ containerW7.entries, EntryInRange e := by decide

theorem witness_TrieStepConforms :
    let d := inPayload [0x40#8] 2 [true]
    let root := trieOfTable .fault d.table
    let cur : TrieCursor := { node := .dead, depth := 1 }
    d.state = .payload ∧ (∀ e ∈ d.table, EntryInRange e) ∧ cur.node = trieWalk d.scr root ∧ cur.depth = d.scr.length := by
  decide

/-! ### The container and the assembler -/

theorem witness_ContainerInRange : ContainerInRange containerW7 where
  count := by decide
  entries := by decide
  total := by decide
  coded := by decide

/-- The last entry, and the first padding bit of W7 (bit 141 of 144). -/
theorem witness_ContainerFieldsAtOffsets :
    ContainerInRange containerW7 ∧ containerW7.entries[3]? = some ⟨0x43#8, 3, 7⟩ ∧
    entryOffset containerW7.entries 4 + 32 + (payloadBits containerW7).length ≤ 141 ∧ 141 < 8 * 18 :=
  ⟨witness_ContainerInRange, rfl, by decide, by decide⟩

set_option maxRecDepth 4096 in
theorem witness_ContainerDecodesToItsSymbols :
    ContainerInRange containerW7 ∧ PrefixFree containerW7.entries ∧ (containerBytes containerW7).length < 2 ^ 32 ∧
    (containerBytes containerW7).length ≤ State.reset.cfg.dCapBytes ∧ State.reset.PortsClear ∧
    State.reset.io.dReady = true :=
  ⟨witness_ContainerInRange, by unfold PrefixFree; decide, by decide, by decide, by decide, by decide⟩

theorem witness_AssemblerRefusesOutOfRange :
    255 ≤ 255 ∧ 2 ^ 256 - 1 < 2 ^ 256 ∧ (∀ b ∈ [0, 255], b ≤ 255) ∧ [0, 255].length < 2 ^ 32 := by decide

/-- After reset, and in a state with a decode running. -/
theorem witness_AssembledLinesComplete :
    (assemble (.decode [0x00, 0x5A])).isSome = true ∧ (assemble (.pack 255 (2 ^ 256 - 1))).isSome = true ∧
    (State.reset.io.cmd = [] ∧ State.reset.PortsClear ∧ State.reset.io.pReady = true ∧ State.reset.io.dReady = true) ∧
    (payloadState.io.cmd = [] ∧ payloadState.PortsClear ∧ payloadState.io.pReady = true ∧
      payloadState.io.dReady = true) := by decide

theorem witness_AssemblyNumbersRead :
    (∀ x ∈ [(1, true), (0, false)], x.1 < 2) ∧ (∀ x ∈ [(9, true), (0, false)], x.1 < 10) ∧
    ∀ x ∈ [(15, true), (15, false), (0, true)], x.1 < 16 := by decide

theorem witness_AssemblyTextStandsForLines :
    numberVal "0xFF".toList = some 255 ∧ numberVal "0".toList = some 0 ∧
    ["0".toList, "0b1".toList].map numberVal = [0, 1].map some ∧
    ([] : List (List Char)).map numberVal = ([] : List Nat).map some := by decide

/-- One alternative after the other: V, then N, then a byte too many; and presented with a transaction, cut off or not. -/
theorem witness_SurplusOperandsStop :
    (0x00000000#32).extractLsb' 24 8 ≠ 0x10#8 ∧ servedV.io.v ≠ [] ∧ 1 < (servedV.setV [1#256, 2#256]).io.v.length ∧
    servedU.io.n ≠ [] ∧ 1 < (servedU.setN [1#32, 0#32]).io.n.length ∧ servedU.io.uDin ≠ [] ∧ servedD.io.dDin ≠ [] ∧
    (1#32 ∈ servedU.io.n ∧ (1#32).toNat < (servedU.setUDin [1#8, 2#8]).io.uDin.length) ∧
    (1#32 ∈ servedD.io.n ∧ (1#32).toNat < (servedD.setDDin [1#8, 2#8]).io.dDin.length) ∧
    (let x := { plainTransaction .nop with v := [0#256] }
     (host [.command x]).io.cmd = .command x :: [] ∧ (host [.commandCutByReset x]).io.cmd = .commandCutByReset x :: [] ∧
      (State.reset.present x).io.v ≠ []) := by decide

end Sys2Proof.Tests
end

section
/-! Proofs of the statements about 00_scope.md. -/

namespace Sys2Proof.Machine

/-! ## Bit strings -/

/-- Settles O24: `bitsOf w` and `bitsVal` are inverse on the numbers below 2^w and the strings of length w, so a bit of a
string is the bit of its value at the mirrored place. -/
theorem valAndBitsAreInverse : Obligations.ValAndBitsAreInverse := by
  refine ⟨fun w v hv => ⟨length_bitsOf w v, bitsVal_bitsOf hv⟩, fun s => ⟨bitsVal_lt s, bitsOf_bitsVal s⟩,
    fun s i hi => ?_⟩
  calc s[i]? = (bitsOf s.length (bitsVal s))[i]? := by rw [bitsOf_bitsVal]
    _ = some ((bitsVal s).testBit (s.length - 1 - i)) := getElem?_bitsOf _ hi

end Sys2Proof.Machine
end

section
/-! Proofs of the statements about 10_state.md. -/

namespace Sys2Proof.Machine

/-! ## The decoder's steps keep its invariant -/

section DecoderSteps

variable {c : Config} {d d' : Decoder}

/-- The clauses of the decoder's invariant that speak of the code table (10_state.md R27 to R29). -/
structure TableInv (c : Config) (nsym entry : Nat) (table : List Entry) : Prop where
  nsymBound : nsym ≤ 256
  entryBound : entry ≤ nsym
  tableCount : table.length = entry
  tableInRange : ∀ e ∈ table, EntryInRange e
  codesDistinct : c.dupCodePolicy = .fault → table.Pairwise fun a b => ¬ (a.len = b.len ∧ a.val = b.val)

theorem DecoderInv.tableInv (h : DecoderInv c d) : TableInv c d.nsym d.entry d.table := { h with }

/-- A failure of a running decoder: D_POS is inside the blob, D_SCR has at most 256 bits, and the code recorded is that
of a MALFORMED_INPUT error (43_decoder.md R200). -/
theorem DecoderInv.fail (h : DecoderInv c d) {e : Err} (he : malformed e = true)
    (hd : d' = { d with pos := d'.pos, scr := d'.scr }) (hp : d'.pos ≤ 8 * d.buf.length) (hs : d'.scr.length ≤ 256) :
    DecoderInv c (dFail e d').d := by
  rw [hd]
  exact { h with
    posInside := hp
    scrBound := hs
    idleIsReset := nofun
    freshBlob := nofun
    entryOpen := nofun
    codeLenKnown := nofun
    tableComplete := nofun
    headerQuiet := nofun
    payloadOpen := nofun
    doneFull := nofun
    errZero := fun hne => absurd rfl hne
    errKnown := fun _ => ⟨e, he, rfl, rfl⟩ }

/-- A header step that goes on writes nothing of the payload's components. -/
theorem DecoderInv.headerStep (h : DecoderInv c d) (hs : phaseInHeader d.state = true)
    (hd : d' = { d with
      state := d'.state, pos := d'.pos, nsym := d'.nsym, entry := d'.entry, cursym := d'.cursym, curlen := d'.curlen,
      table := d'.table })
    (hs' : phaseInHeader d'.state = true) (hc : d'.state ≠ .hdrCount) (hp : d'.pos ≤ 8 * d.buf.length)
    (ht : TableInv c d'.nsym d'.entry d'.table)
    (hopen : d'.state = .hdrSym ∨ d'.state = .hdrLen ∨ d'.state = .hdrCode → d'.entry < d'.nsym)
    (hlen : d'.state = .hdrCode → d'.curlen ≠ 0#8)
    (hall : d'.state = .total → d'.entry = d'.nsym ∧ 1 ≤ d'.nsym) : DecoderInv c d' := by
  have outside {x : Phase} (hx : phaseInHeader x = false) {p : Prop} (hn : d'.state = x) : p := by
    simp [hn, hx] at hs'
  rw [hd]
  exact { ht, h with
    posInside := hp
    idleIsReset := outside rfl
    freshBlob := fun hn => absurd hn hc
    entryOpen := hopen
    codeLenKnown := hlen
    tableComplete := fun hn => hn.elim hall fun hn => hn.elim (outside rfl) (outside rfl)
    headerQuiet := fun _ => h.headerQuiet hs
    payloadOpen := outside rfl
    doneFull := outside rfl
    errZero := fun _ => h.errZero fun hn => by simp [hn, phaseInHeader] at hs
    errKnown := outside rfl }

/-- A step into PAYLOAD or DONE writes nothing of the header's components. -/
theorem DecoderInv.payloadStep (h : DecoderInv c d) (hs : d.state = .total ∨ d.state = .payload)
    (hd : d' = { d with
      state := d'.state, pos := d'.pos, total := d'.total, emit := d'.emit, scr := d'.scr, out := d'.out })
    (hp : d'.pos ≤ 8 * d.buf.length) (ho : d'.out.length = d'.emit.toNat)
    (hx : d'.state = .payload ∧ d'.emit.toNat < d'.total.toNat ∧ d'.scr.length ≤ 255 ∨
      d'.state = .done ∧ d'.emit = d'.total ∧ d'.scr = []) : DecoderInv c d' := by
  have he : d.errk = 0#8 ∧ d.errs = 0#8 := h.errZero (by rcases hs with hs | hs <;> simp [hs])
  have ht : d.entry = d.nsym ∧ 1 ≤ d.nsym := h.tableComplete (hs.imp_right .inl)
  have hb : d'.emit.toNat ≤ d'.total.toNat ∧ d'.scr.length ≤ 256 := by
    rcases hx with ⟨-, h1, h2⟩ | ⟨-, h1, h2⟩
    · exact ⟨h1.le, by omega⟩
    · simp [h1, h2]
  have outside {x : Phase} (hx' : x ≠ .payload ∧ x ≠ .done) {p : Prop} (hn : d'.state = x) : p := by
    rcases hx with ⟨h1, -⟩ | ⟨h1, -⟩ <;> simp [← hn, h1] at hx'
  rw [hd]
  exact { h with
    posInside := hp
    idleIsReset := outside (by decide)
    freshBlob := outside (by decide)
    entryOpen := fun hn => hn.elim (outside (by decide)) fun hn => hn.elim (outside (by decide)) (outside (by decide))
    codeLenKnown := outside (by decide)
    tableComplete := fun _ => ht
    headerQuiet := fun hn => by rcases hx with ⟨h1, -⟩ | ⟨h1, -⟩ <;> simp [h1, phaseInHeader] at hn
    payloadOpen := fun (hn : d'.state = .payload) => by simpa [hn] using hx
    doneFull := fun (hn : d'.state = .done) => by simpa [hn] using hx
    emitBound := hb.1
    outCount := ho
    scrBound := hb.2
    errZero := fun _ => he
    errKnown := outside (by decide) }

/-- A table of decoded entries, with one more whose code the policy admits. -/
theorem TableInv.add {n k : Nat} {es : List Entry} (h : TableInv c n k es) (hk : k < n) {e : Entry}
    (he : EntryInRange e) (hnew : c.dupCodePolicy = .fault → ∀ a ∈ es, ¬ (a.len = e.len ∧ a.val = e.val)) :
    TableInv c n (k + 1) (es ++ [e]) where
  nsymBound := h.nsymBound
  entryBound := hk
  tableCount := by simp [h.tableCount]
  tableInRange := fun a ha => by
    rcases List.mem_append.mp ha with ha | ha
    · exact h.tableInRange a ha
    · exact List.mem_singleton.mp ha ▸ he
  codesDistinct := fun hf => List.pairwise_append.mpr
    ⟨h.codesDistinct hf, List.pairwise_singleton _ _, by simpa using hnew hf⟩

theorem pos_add_le {w : Nat} (hp : d.pos ≤ 8 * d.buf.length) (hw : w ≤ bitsLeft d) : d.pos + w ≤ 8 * d.buf.length := by
  unfold bitsLeft at hw
  omega

theorem stepHdrCount_inv (h : DecoderInv c d) (hs : d.state = .hdrCount) : DecoderInv c (stepHdrCount d).d := by
  obtain ⟨-, ho⟩ | ⟨hl, hv, ho⟩ := stepHdrCount_cases d <;> rw [ho]
  · exact h.fail rfl rfl h.posInside h.scrBound
  · have ht : TableInv c (bitsVal (readBits d.buf d.pos 8) + 1) 0 [] := ⟨hv, Nat.zero_le _, rfl, nofun, fun _ => .nil⟩
    exact h.headerStep (by rw [hs]; rfl) rfl rfl nofun (pos_add_le h.posInside hl) ht (fun _ => Nat.succ_pos _)
      nofun nofun

theorem stepHdrSym_inv (h : DecoderInv c d) (hs : d.state = .hdrSym) : DecoderInv c (stepHdrSym d).d := by
  obtain ⟨-, ho⟩ | ⟨hl, ho⟩ := stepHdrSym_cases d <;> rw [ho]
  · exact h.fail rfl rfl h.posInside h.scrBound
  · exact h.headerStep (by rw [hs]; rfl) rfl rfl nofun (pos_add_le h.posInside hl) h.tableInv
      (fun _ => h.entryOpen (.inl hs)) nofun nofun

theorem stepHdrLen_inv (h : DecoderInv c d) (hs : d.state = .hdrLen) : DecoderInv c (stepHdrLen d).d := by
  obtain ⟨-, ho⟩ | ⟨hl, -, ho⟩ | ⟨hl, h0, hv, ho⟩ := stepHdrLen_cases d <;> rw [ho]
  · exact h.fail rfl rfl h.posInside h.scrBound
  · exact h.fail rfl rfl (pos_add_le h.posInside hl) h.scrBound
  · have hne : BitVec.ofNat 8 (bitsVal (readBits d.buf d.pos 8)) ≠ 0#8 := fun hn => h0 <| by
      simpa [BitVec.toNat_ofNat, Nat.mod_eq_of_lt hv, -Nat.reducePow] using congrArg BitVec.toNat hn
    exact h.headerStep (by rw [hs]; rfl) rfl rfl nofun (pos_add_le h.posInside hl) h.tableInv
      (fun _ => h.entryOpen (.inr (.inl hs))) (fun _ => hne) nofun

theorem stepHdrCode_inv (h : DecoderInv c d) (hs : d.state = .hdrCode) :
    DecoderInv c (stepHdrCode c.dupCodePolicy d).d := by
  obtain ⟨-, ho⟩ | ⟨hl, -, ho⟩ | ⟨hl, hnew, ho⟩ := stepHdrCode_cases c.dupCodePolicy d <;> rw [ho]
  · exact h.fail rfl rfl h.posInside h.scrBound
  · exact h.fail rfl rfl (pos_add_le h.posInside hl) h.scrBound
  · have hopen : d.entry < d.nsym := h.entryOpen (.inr (.inr hs))
    have hlen : d.curlen.toNat ≠ 0 := fun hn => h.codeLenKnown hs (BitVec.eq_of_toNat_eq hn)
    have ht := h.tableInv.add hopen
      (e := ⟨d.cursym, d.curlen.toNat, bitsVal (readBits d.buf d.pos d.curlen.toNat)⟩)
      ⟨⟨Nat.pos_of_ne_zero hlen, Nat.le_of_lt_succ d.curlen.isLt⟩, bitsVal_readBits_lt _ _ _⟩
      fun hf a ha heq => hnew ⟨hf, a, ha, heq⟩
    by_cases hlast : d.entry + 1 = d.nsym
    · rw [if_pos hlast]
      exact h.headerStep (by rw [hs]; rfl) rfl rfl nofun (pos_add_le h.posInside hl) ht nofun nofun
        fun _ => ⟨hlast, Nat.one_le_of_lt hopen⟩
    · rw [if_neg hlast]
      exact h.headerStep (by rw [hs]; rfl) rfl rfl nofun (pos_add_le h.posInside hl) ht
        (fun _ => by simp; omega) nofun nofun

theorem stepTotal_inv (h : DecoderInv c d) (hs : d.state = .total) : DecoderInv c (stepTotal d).d := by
  obtain ⟨-, ho⟩ | ⟨hl, hv, ho⟩ := stepTotal_cases d <;> rw [ho]
  · exact h.fail rfl rfl h.posInside h.scrBound
  · have hout : d.out = [] := by simpa [(h.headerQuiet (by rw [hs]; rfl)).2.1] using h.outCount
    by_cases h0 : bitsVal (readBits d.buf d.pos 32) = 0
    · rw [if_pos h0, h0]
      exact h.payloadStep (.inl hs) rfl (pos_add_le h.posInside hl) (congrArg List.length hout) (.inr ⟨rfl, rfl, rfl⟩)
    · rw [if_neg h0]
      have hpos : 0 < (BitVec.ofNat 32 (bitsVal (readBits d.buf d.pos 32))).toNat := by
        rw [BitVec.toNat_ofNat, Nat.mod_eq_of_lt hv]
        exact Nat.pos_of_ne_zero h0
      exact h.payloadStep (.inl hs) rfl (pos_add_le h.posInside hl) (congrArg List.length hout)
        (.inl ⟨rfl, hpos, Nat.zero_le _⟩)

theorem stepPayload_inv (h : DecoderInv c d) (hs : d.state = .payload) :
    DecoderInv c (stepPayload c.dupCodePolicy d).d := by
  obtain ⟨hlt, hscr⟩ := h.payloadOpen hs
  obtain ⟨-, ho⟩ | ⟨hl, x, -, ho⟩ | ⟨hl, -, -, ho⟩ | ⟨hl, -, hscr', ho⟩ := stepPayload_cases c.dupCodePolicy d <;>
    rw [ho]
  · exact h.fail rfl rfl h.posInside h.scrBound
  · have hsucc : (d.emit + 1#32).toNat = d.emit.toNat + 1 := by bv_omega
    refine h.payloadStep (.inr hs) rfl (pos_add_le h.posInside hl) (by simp [hsucc, h.outCount]) ?_
    by_cases hlast : d.emit + 1#32 = d.total
    · exact .inr (by simp [hlast])
    · have hne : (d.emit + 1#32).toNat ≠ d.total.toNat := fun hn => hlast (BitVec.eq_of_toNat_eq hn)
      exact .inl ⟨by simp [hlast, hs], by simp only; omega, by simp⟩
  · exact h.fail rfl rfl (pos_add_le h.posInside hl) (by simp; omega)
  · exact h.payloadStep (.inr hs) rfl (pos_add_le h.posInside hl) h.outCount (.inl ⟨hs, hlt, by simp; omega⟩)

theorem decoderStep_inv (h : DecoderInv c d) : DecoderInv c (decoderStep c.dupCodePolicy d).d := by
  unfold decoderStep
  split
  next hs => exact stepHdrCount_inv h hs
  next hs => exact stepHdrSym_inv h hs
  next hs => exact stepHdrLen_inv h hs
  next hs => exact stepHdrCode_inv h hs
  next hs => exact stepTotal_inv h hs
  next hs => exact stepPayload_inv h hs
  all_goals exact h

/-- A run, whatever its bound, is a sequence of steps: what each step keeps, the run keeps. -/
theorem decoderRun_keeps {policy : DupCodePolicy} {P : Decoder → Prop}
    (hstep : ∀ d, P d → P (decoderStep policy d).d) (k : Nat) (h : P d) : P (decoderRun policy k d).d := by
  induction k generalizing d with
  | zero => exact h
  | succ k ih =>
    unfold decoderRun
    split
    · exact h
    · simp only
      split
      · exact hstep d h
      · exact ih (hstep d h)

end DecoderSteps

/-! ## What a step is -/

section Steps

variable {s t : State}

/-- A step waits, runs one transaction's word, resets, or cuts a transaction off. -/
theorem step_next (h : step s = .next t) :
    t = s ∨ (∃ q x, runWord x.cmd ((s.setCmd q).present x) = .next t) ∨
      (∃ q, t = (s.setCmd q).resetUnits) ∨ ∃ q o, t = (s.setCmd q).cutByReset o := by
  unfold step at h
  split at h
  next => exact .inl (by simpa using h.symm)
  next a q _ =>
    cases a with
    | command x => exact .inr (.inl ⟨q, x, h⟩)
    | commandBeforeResponse x c => cases h
    | powerOnReset => exact .inr (.inr (.inl ⟨q, by simpa [runAction, State.powerOnReset] using h.symm⟩))
    | commandCutByReset x =>
      simp only [runAction] at h
      split at h
      · cases h
      · exact .inr (.inr (.inr ⟨q, _, by simpa using h.symm⟩))

/-! ## What every command that completes does -/

/-- What every command that completes keeps and gives: the parameters stay, the output ports grow, and one response is
added, with the status written (60_exceptions.md R284, 30_encoding.md R98). -/
structure Completes (s t : State) : Prop where
  cfg : t.cfg = s.cfg
  pDout : s.io.pDout <+: t.io.pDout
  dDout : s.io.dDout <+: t.io.dDout
  status : KnownStatus t.status
  resp : ∃ r, t.io.resp = s.io.resp ++ [⟨t.status, r⟩] ∧ (t.status ≠ statusOk → r = 0#256)

/-- Updates that keep the parameters and the responses and take back no output byte, and then a response OK. -/
theorem completes_ok {s1 : State} (r : Value) (hc : s1.cfg = s.cfg) (hr : s1.io.resp = s.io.resp)
    (hp : s.io.pDout <+: s1.io.pDout) (hd : s.io.dDout <+: s1.io.dDout) : Completes s (s1.respond statusOk r) :=
  ⟨hc, hp, hd, .inl rfl, r, by simp [hr], fun hn => absurd rfl hn⟩

/-- Updates that keep the parameters, the responses and the outputs, and then an error's response. -/
theorem completes_error {s1 : State} (e : Err) (hc : s1.cfg = s.cfg) (hr : s1.io.resp = s.io.resp)
    (hp : s1.io.pDout = s.io.pDout) (hd : s1.io.dDout = s.io.dDout) :
    Completes s (s1.respond (statusOf e) 0#256) :=
  ⟨hc, by simp [hp], by simp [hd], .inr ⟨e, rfl⟩, 0#256, by simp [hr], fun _ => rfl⟩

theorem completes_decode (o : StepOut) (r : Value) :
    Completes s (((s.setD o.d).putD o.emitted).respond (stepStatus o) (stepResult o r)) where
  cfg := rfl
  pDout := by simp
  dDout := by simp
  status := by
    cases he : o.err with
    | none => exact .inl (by simp [stepStatus, he])
    | some e => exact .inr ⟨e, by simp [stepStatus, he]⟩
  resp := ⟨stepResult o r, by simp, by cases he : o.err <;> simp [stepStatus, stepResult, he]⟩

theorem exec_completes {i : Instr} (h : exec i s = .next t) : Completes s t := by
  cases i with
  | nop => exact succeed_next.mp h ▸ completes_ok _ rfl rfl (by simp) (by simp)
  | sreset => exact succeed_next.mp h ▸ completes_ok _ rfl rfl (by simp) (by simp)
  | rdreg reg =>
    simp only [exec, execRdreg] at h
    split at h
    · exact raise_next.mp h ▸ completes_error _ rfl rfl rfl rfl
    · exact succeed_next.mp h ▸ completes_ok _ rfl rfl (by simp) (by simp)
  | pack w =>
    obtain ⟨v, q, -, ⟨e, rfl⟩ | ⟨-, -, rfl⟩⟩ := execPack_next h
    · exact completes_error e rfl rfl rfl rfl
    · exact completes_ok _ rfl rfl (by simp) (by simp)
  | flush => exact execFlush_next h ▸ completes_ok _ rfl rfl (by simp) (by simp)
  | uload =>
    obtain ⟨n, q, -, -, ⟨e, rfl⟩ | ⟨-, rfl⟩⟩ := execUload_next h
    · exact completes_error e rfl rfl rfl rfl
    · exact completes_ok _ rfl rfl (by simp) (by simp)
  | unpack w =>
    obtain ⟨e, rfl⟩ | ⟨-, r, rfl⟩ := execUnpack_next h
    · exact completes_error e rfl rfl rfl rfl
    · exact completes_ok _ rfl rfl (by simp) (by simp)
  | isempty => exact succeed_next.mp h ▸ completes_ok _ rfl rfl (by simp) (by simp)
  | dload =>
    obtain ⟨n, q, -, -, ⟨e, rfl⟩ | ⟨-, rfl⟩⟩ := execDload_next h
    · exact completes_error e rfl rfl rfl rfl
    · exact completes_ok _ rfl rfl (by simp) (by simp)
  | dstep =>
    obtain ⟨-, rfl⟩ | ⟨-, o, -, -, rfl⟩ := execDstep_next h
    · exact completes_error _ rfl rfl rfl rfl
    · exact completes_decode o _
  | drun =>
    obtain ⟨-, rfl⟩ | ⟨-, o, -, -, rfl⟩ := execDrun_next h
    · exact completes_error _ rfl rfl rfl rfl
    · exact completes_decode o _

/-! ## Words that are no command -/

/-- Consuming the operands of a word's opcode is dropping them from the ports (30_encoding.md R96). -/
theorem consumeOperands_drop {c : Word} {op : Opcode} {k : State → Out} (ho : opcodeOf (fieldOpc c) = some op)
    (h : consumeOperands op s k = .next t) : k (dropOperands c s) = .next t := by
  unfold dropOperands
  rw [ho]
  cases op with
  | pack =>
    simp only [consumeOperands] at h
    obtain ⟨v, q, hv, h⟩ := takeV_next h
    rw [hv]
    exact h
  | uload =>
    simp only [consumeOperands] at h
    obtain ⟨n, q, hn, h⟩ := takeN_next h
    rw [hn]
    exact (takeUDin_next h).2
  | dload =>
    simp only [consumeOperands] at h
    obtain ⟨n, q, hn, h⟩ := takeN_next h
    rw [hn]
    exact (takeDDin_next h).2
  | _ => exact h

/-- A word that is no command drops the operands of its opcode and completes with an error (30_encoding.md R93, R94). -/
theorem rejectWord_next {c : Word} {x : Reject} (hc : decode c = .error x) (h : rejectWord x s = .next t) :
    ∃ e, t = (dropOperands c s).respond (statusOf e) 0#256 := by
  obtain ⟨rfl, ho⟩ | ⟨op, rfl, ho, -⟩ := decode_error hc
  · have hdrop : dropOperands c s = s := by simp [dropOperands, ho]
    exact ⟨.reservedOpcode, hdrop.symm ▸ (raise_next.mp h).symm⟩
  · exact ⟨_, (raise_next.mp (consumeOperands_drop ho h)).symm⟩

/-- Dropping operands touches nothing but the operand ports. -/
theorem dropOperands_frame (c : Word) (s : State) :
    (dropOperands c s).cfg = s.cfg ∧ (dropOperands c s).p = s.p ∧ (dropOperands c s).u = s.u ∧
    (dropOperands c s).d = s.d ∧ (dropOperands c s).io.pDout = s.io.pDout ∧
    (dropOperands c s).io.dDout = s.io.dDout ∧ (dropOperands c s).io.resp = s.io.resp := by
  unfold dropOperands
  split <;> simp

/-! ## Parameters and outputs -/

theorem runWord_completes {c : Word} (h : runWord c s = .next t) : Completes s t := by
  obtain ⟨i, -, hx⟩ | ⟨x, hx, hr⟩ := (runWord_next h).2
  · exact exec_completes hx
  · obtain ⟨e, rfl⟩ := rejectWord_next hx hr
    obtain ⟨hc, -, -, -, hp, hd, hr⟩ := dropOperands_frame c s
    exact completes_error e hc hr hp hd

/-- Settles O10: a word that completes only adds to the outputs (`Completes`), and a reset leaves what was given, with
the first bytes of a command cut off behind it. -/
theorem configFixedAndOutputsGrow : Obligations.ConfigFixedAndOutputsGrow := by
  intro s t h
  obtain rfl | ⟨q, x, hx⟩ | ⟨q, rfl⟩ | ⟨q, o, rfl⟩ := step_next h
  · simp
  · obtain ⟨hc, hp, hd, -, r, hr, -⟩ := runWord_completes hx
    exact ⟨hc, hp, hd, by simp [hr]⟩
  · simp
  · obtain ⟨-, -, -, -, hc, -, hio⟩ := cutByReset_fields o (s.setCmd q)
    simp [hc, hio]

end Steps

/-! ## The units' invariant -/

section Units

variable {s t : State} {c : Config}

/-- The clauses of `StateInv` that speak of the units under the parameters: those that hold during a command too. -/
structure UnitsInv (s : State) : Prop where
  cfgInRange : s.cfg.InRange
  packerFits : s.p.bits.length ≤ s.cfg.pCapBits
  unpackerFits : s.u.buf.length ≤ s.cfg.uCapBytes
  cursorInside : s.u.pos ≤ 8 * s.u.buf.length
  decoder : DecoderInv s.cfg s.d

theorem StateInv.unitsInv (h : StateInv s) : UnitsInv s := { h with }

/-- Where the parameters and the units are the same, so is the invariant. -/
theorem UnitsInv.congr (h : UnitsInv s) (hc : t.cfg = s.cfg) (hp : t.p = s.p) (hu : t.u = s.u) (hd : t.d = s.d) :
    UnitsInv t where
  cfgInRange := hc ▸ h.cfgInRange
  packerFits := hc ▸ hp ▸ h.packerFits
  unpackerFits := hc ▸ hu ▸ h.unpackerFits
  cursorInside := hu ▸ h.cursorInside
  decoder := hc ▸ hd ▸ h.decoder

/-- In IDLE every component is empty or zero (10_state.md R35). -/
theorem decoderReset_inv (c : Config) : DecoderInv c .reset := by
  constructor <;> simp [Decoder.reset, phaseInHeader]

/-- In HDR_COUNT every component but the blob is empty or zero (43_decoder.md R201). -/
theorem freshDecoder_inv {blob : List Byte} (h : blob.length ≤ c.dCapBytes) : DecoderInv c (freshDecoder blob) := by
  constructor <;> simp [freshDecoder, phaseInHeader, h]

theorem unitsInv_reset (hc : t.cfg.InRange) (hp : t.p = .reset) (hu : t.u = .reset) (hd : t.d = .reset) :
    UnitsInv t where
  cfgInRange := hc
  packerFits := by simp [hp, Packer.reset]
  unpackerFits := by simp [hu, Unpacker.reset]
  cursorInside := by simp [hu, Unpacker.reset]
  decoder := hd ▸ decoderReset_inv _

theorem exec_unitsInv {i : Instr} (h : UnitsInv s) (hx : exec i s = .next t) : UnitsInv t := by
  cases i with
  | nop => exact succeed_next.mp hx ▸ h.congr rfl rfl rfl rfl
  | sreset => exact succeed_next.mp hx ▸ unitsInv_reset h.cfgInRange rfl rfl rfl
  | rdreg reg =>
    obtain ⟨st, r, rfl, -⟩ := execRdreg_next hx
    exact h.congr rfl rfl rfl rfl
  | pack w =>
    obtain ⟨v, q, -, ⟨e, rfl⟩ | ⟨-, hw, rfl⟩⟩ := execPack_next hx
    · exact h.congr rfl rfl rfl rfl
    · exact { h with packerFits := by simpa using hw }
  | flush => exact execFlush_next hx ▸ { h with packerFits := Nat.zero_le _ }
  | uload =>
    obtain ⟨n, q, -, -, ⟨e, rfl⟩ | ⟨hn, rfl⟩⟩ := execUload_next hx
    · exact h.congr rfl rfl rfl rfl
    · exact { h with
        unpackerFits := (List.length_take_le _ _).trans hn
        cursorInside := Nat.zero_le _ }
  | unpack w =>
    obtain ⟨e, rfl⟩ | ⟨hw, r, rfl⟩ := execUnpack_next hx
    · exact h.congr rfl rfl rfl rfl
    · exact { h with cursorInside := by have := h.cursorInside; simp; omega }
  | isempty => exact succeed_next.mp hx ▸ h.congr rfl rfl rfl rfl
  | dload =>
    obtain ⟨n, q, -, -, ⟨e, rfl⟩ | ⟨hn, rfl⟩⟩ := execDload_next hx
    · exact h.congr rfl rfl rfl rfl
    · exact { h with decoder := freshDecoder_inv ((List.length_take_le _ _).trans hn) }
  | dstep =>
    obtain ⟨-, rfl⟩ | ⟨-, o, rfl, -, rfl⟩ := execDstep_next hx
    · exact h.congr rfl rfl rfl rfl
    · exact { h with decoder := decoderStep_inv h.decoder }
  | drun =>
    obtain ⟨-, rfl⟩ | ⟨-, o, rfl, -, rfl⟩ := execDrun_next hx
    · exact h.congr rfl rfl rfl rfl
    · exact { h with decoder := decoderRun_keeps (fun _ => decoderStep_inv) _ h.decoder }

theorem runWord_unitsInv {c : Word} (h : UnitsInv s) (hx : runWord c s = .next t) : UnitsInv t := by
  obtain ⟨i, -, hi⟩ | ⟨x, hd, hr⟩ := (runWord_next hx).2
  · exact exec_unitsInv h hi
  · obtain ⟨e, rfl⟩ := rejectWord_next hd hr
    obtain ⟨hc, hp, hu, hd, -⟩ := dropOperands_frame c s
    exact h.congr hc hp hu hd

/-! ## No operand is left -/

/-- The opcode of a word that decodes is that of its command's row (30_encoding.md R92). -/
theorem opcodeOf_of_decode {c : Word} {i : Instr} (h : decode c = .ok i) :
    opcodeOf (fieldOpc c) = some (Laws.TableRow.row i) := by
  obtain ⟨op, ho, rfl, -⟩ := decode_ok h
  rw [opcodeOf_eq.mpr ho]
  cases op <;> rfl

/-- A command takes exactly the operands of its opcode off the ports (30_encoding.md R96). -/
theorem exec_portsClear {c : Word} {i : Instr} (hd : decode c = .ok i) (hx : exec i s = .next t)
    (hclear : (dropOperands c s).PortsClear) : t.PortsClear := by
  unfold dropOperands at hclear
  rw [opcodeOf_of_decode hd] at hclear
  cases i with
  | nop => exact succeed_next.mp hx ▸ hclear
  | sreset => exact succeed_next.mp hx ▸ hclear
  | rdreg reg =>
    obtain ⟨st, r, rfl, -⟩ := execRdreg_next hx
    exact hclear
  | pack w =>
    obtain ⟨v, q, hv, ht⟩ := execPack_next hx
    simp only [Laws.TableRow.row, hv] at hclear
    rcases ht with ⟨e, rfl⟩ | ⟨-, -, rfl⟩ <;> exact hclear
  | flush => exact execFlush_next hx ▸ hclear
  | uload =>
    obtain ⟨n, q, hn, -, ht⟩ := execUload_next hx
    simp only [Laws.TableRow.row, hn] at hclear
    rcases ht with ⟨e, rfl⟩ | ⟨-, rfl⟩ <;> exact hclear
  | unpack w =>
    obtain ⟨e, rfl⟩ | ⟨-, r, rfl⟩ := execUnpack_next hx <;> exact hclear
  | isempty => exact succeed_next.mp hx ▸ hclear
  | dload =>
    obtain ⟨n, q, hn, -, ht⟩ := execDload_next hx
    simp only [Laws.TableRow.row, hn] at hclear
    rcases ht with ⟨e, rfl⟩ | ⟨-, rfl⟩ <;> exact hclear
  | dstep => obtain ⟨-, rfl⟩ | ⟨-, o, -, -, rfl⟩ := execDstep_next hx <;> exact hclear
  | drun => obtain ⟨-, rfl⟩ | ⟨-, o, -, -, rfl⟩ := execDrun_next hx <;> exact hclear

theorem runWord_portsClear {c : Word} (hx : runWord c s = .next t) : t.PortsClear := by
  obtain ⟨hs, ⟨i, hd, hi⟩ | ⟨x, hd, hr⟩⟩ := runWord_next hx
  · exact exec_portsClear hd hi (surplusOperands_eq_false.mp hs)
  · obtain ⟨e, rfl⟩ := rejectWord_next hd hr
    exact surplusOperands_eq_false.mp hs

/-! ## Legal states -/

theorem stateInv_resetWith (hc : c.InRange) : StateInv (State.resetWith c) :=
  { unitsInv_reset (t := State.resetWith c) hc rfl rfl rfl with
    portsClear := ⟨rfl, rfl, rfl, rfl⟩
    statusKnown := .inl rfl
    responses := nofun }

/-- Settles O19: every unit is empty, and the default parameters are in their ranges. -/
theorem resetStateIsLegal : Obligations.ResetStateIsLegal :=
  ⟨stateInv_resetWith (by decide), fun _ => stateInv_resetWith⟩

/-- A reset of the units, whatever it leaves on the output ports. -/
theorem StateInv.reset (h : StateInv s) (hc : t.cfg = s.cfg) (hst : t.status = 0x0000#16) (hp : t.p = .reset)
    (hu : t.u = .reset) (hd : t.d = .reset) (hclear : t.PortsClear) (hr : t.io.resp = s.io.resp) : StateInv t :=
  { unitsInv_reset (hc ▸ h.cfgInRange) hp hu hd with
    portsClear := hclear
    statusKnown := .inl hst
    responses := hr ▸ h.responses }

/-- A response of a completed command is a legal one, behind those given before. -/
theorem Completes.responses (h : Completes s t)
    (hs : ∀ x ∈ s.io.resp, KnownStatus x.st ∧ (x.st ≠ statusOk → x.r = 0#256)) :
    ∀ x ∈ t.io.resp, KnownStatus x.st ∧ (x.st ≠ statusOk → x.r = 0#256) := by
  obtain ⟨r, hr, hr0⟩ := h.resp
  intro x hx
  rw [hr] at hx
  rcases List.mem_append.mp hx with hx | hx
  · exact hs x hx
  · obtain rfl := List.mem_singleton.mp hx
    exact ⟨h.status, hr0⟩

/-- Settles O20: a word that completes keeps the units' invariant, clears the operand ports and gives a legal response;
a reset leaves the units empty and the operand ports as they were, clear. -/
theorem stepKeepsStateLegal : Obligations.StepKeepsStateLegal := by
  intro s t h hx
  obtain rfl | ⟨q, x, hx⟩ | ⟨q, rfl⟩ | ⟨q, o, rfl⟩ := step_next hx
  · exact h
  · have hunits : UnitsInv ((s.setCmd q).present x) := h.unitsInv.congr rfl rfl rfl rfl
    have hcomp := runWord_completes hx
    exact { runWord_unitsInv hunits hx with
      portsClear := runWord_portsClear hx
      statusKnown := hcomp.status
      responses := hcomp.responses h.responses }
  · exact h.reset rfl rfl rfl rfl rfl h.portsClear rfl
  · obtain ⟨hst, hp, hu, hd, hc, -, hio⟩ := cutByReset_fields o (s.setCmd q)
    have hclear : ((s.setCmd q).cutByReset o).PortsClear := by rw [State.PortsClear, hio]; exact h.portsClear
    exact h.reset hc hst hp hu hd hclear (hio ▸ rfl)

end Units

/-! ## The decoder's commands -/

section DecoderCommands

variable {s t : State}

/-- D_OUT gets the symbols of a run, in order (10_state.md R30). -/
theorem decoderRun_out (policy : DupCodePolicy) (k : Nat) (d : Decoder) :
    (decoderRun policy k d).d.out = d.out ++ (decoderRun policy k d).emitted := by
  induction k generalizing d with
  | zero => simp [decoderRun]
  | succ k ih =>
    by_cases hr : phaseAtRest d.state = true
    · simp [decoderRun_atRest policy _ hr]
    · have hr : phaseAtRest d.state = false := by simpa using hr
      cases he : (decoderStep policy d).err with
      | some e => rw [decoderRun_succ_err policy k hr he, decoderStep_out]
      | none => rw [decoderRun_succ policy k hr he, ih, decoderStep_out, List.append_assoc]

/-- DSTEP and DRUN fail with BAD_STATE, or write a decoder with the same blob and place on D_DOUT the symbols added to
D_OUT (43_decoder.md R202, R209). -/
theorem execDecode_next {i : Instr} (hi : i = .dstep ∨ i = .drun) (h : exec i s = .next t) :
    t = s.respond (statusOf .badState) 0#256 ∨ ∃ d new st r, d.buf = s.d.buf ∧ d.out = s.d.out ++ new ∧
      t = ((s.setD d).putD new).respond st r := by
  rcases hi with rfl | rfl
  · obtain ⟨-, ht⟩ | ⟨-, o, rfl, -, ht⟩ := execDstep_next h
    · exact .inl ht
    · exact .inr ⟨_, _, _, _, decoderStep_buf _ _, decoderStep_out _ _, ht⟩
  · obtain ⟨-, ht⟩ | ⟨-, o, rfl, -, ht⟩ := execDrun_next h
    · exact .inl ht
    · have hbuf : (decoderRun s.cfg.dupCodePolicy (runBound s.d) s.d).d.buf = s.d.buf :=
        decoderRun_keeps (P := fun d => d.buf = s.d.buf) (fun d hd => (decoderStep_buf _ d).trans hd) _ rfl
      exact .inr ⟨_, _, _, _, hbuf, decoderRun_out _ _ _, ht⟩

/-- Settles O47: DLOAD writes N, D_DIN and the decoder, DSTEP and DRUN the decoder and D_DOUT, and each of them its
response. -/
theorem decoderCommandsFrame : Obligations.DecoderCommandsFrame := by
  rintro i s t (rfl | hi) h
  · obtain ⟨n, q, -, -, ⟨e, rfl⟩ | ⟨-, rfl⟩⟩ := execDload_next h <;> simp
  · have hne : i ≠ .dload := by rcases hi with rfl | rfl <;> nofun
    obtain rfl | ⟨d, new, st, r, hb, ho, rfl⟩ := execDecode_next hi h
    · simp
    · simp [hne, hb, ho]

end DecoderCommands

/-! ## The units are isolated -/

section Isolation

/-- A change of the next state of an outcome. -/
def mapNext (f : State → State) : Out → Out
  | .next t => .next (f t)
  | .fault r => .fault r
  | .refused r => .refused r

/-- Changing the state before `k` is changing the next state after it. -/
def Commutes (f : State → State) (k : State → Out) : Prop := ∀ s, k (f s) = mapNext f (k s)

/-- A change of the state that neither looks at the ports nor writes them. -/
structure LeavesPorts (f : State → State) : Prop where
  io : ∀ s, (f s).io = s.io
  write : ∀ s (g : Ports → Ports), f { s with io := g s.io } = { f s with io := g (f s).io }

variable {f : State → State}

theorem Commutes.write {k : State → Out} (hk : Commutes f k) (hf : LeavesPorts f) (s : State) (g : Ports → Ports) :
    k { f s with io := g (f s).io } = mapNext f (k { s with io := g s.io }) := by
  rw [← hf.write]
  exact hk _

theorem commutes_ite {P : State → Prop} [DecidablePred P] {a b : State → Out} (hP : ∀ s, P (f s) ↔ P s)
    (ha : Commutes f a) (hb : Commutes f b) : Commutes f fun s => if P s then a s else b s := by
  intro s
  by_cases h : P s
  · simp only [hP, h, if_true, ha s]
  · simp only [hP, h, if_false, hb s]

theorem commutes_takeV (hf : LeavesPorts f) {k : Value → State → Out} (hk : ∀ v, Commutes f (k v)) :
    Commutes f fun s => takeV s k := by
  intro s
  simp only [takeV, hf.io]
  cases s.io.v with
  | nil => rfl
  | cons v q => exact (hk v).write hf s fun io => { io with v := q }

theorem commutes_takeN (hf : LeavesPorts f) {k : Word → State → Out} (hk : ∀ n, Commutes f (k n)) :
    Commutes f fun s => takeN s k := by
  intro s
  simp only [takeN, hf.io]
  cases s.io.n with
  | nil => rfl
  | cons n q => exact (hk n).write hf s fun io => { io with n := q }

theorem commutes_takeUDin (hf : LeavesPorts f) (n : Nat) {k : List Byte → State → Out} (hk : ∀ l, Commutes f (k l)) :
    Commutes f fun s => takeUDin n s k := by
  refine commutes_ite (fun s => by rw [hf.io]) (fun _ => rfl) fun s => ?_
  simp only [hf.io]
  exact (hk _).write hf s fun io => { io with uDin := s.io.uDin.drop n }

theorem commutes_takeDDin (hf : LeavesPorts f) (n : Nat) {k : List Byte → State → Out} (hk : ∀ l, Commutes f (k l)) :
    Commutes f fun s => takeDDin n s k := by
  refine commutes_ite (fun s => by rw [hf.io]) (fun _ => rfl) fun s => ?_
  simp only [hf.io]
  exact (hk _).write hf s fun io => { io with dDin := s.io.dDin.drop n }

theorem commutes_emitP (hf : LeavesPorts f) (bytes : List Byte) {k : State → Out} (hk : Commutes f k) :
    Commutes f fun s => emitP bytes s k :=
  commutes_ite (fun s => by rw [hf.io]) (fun _ => rfl) fun s =>
    hk.write hf s fun io => { io with pDout := io.pDout ++ bytes }

theorem commutes_emitD (hf : LeavesPorts f) (bytes : List Byte) {k : State → Out} (hk : Commutes f k) :
    Commutes f fun s => emitD bytes s k :=
  commutes_ite (fun s => by rw [hf.io]) (fun _ => rfl) fun s =>
    hk.write hf s fun io => { io with dDout := io.dDout ++ bytes }

variable (p : Packer) (u : Unpacker) (d : Decoder)

/-- A packer command does the same whatever the unpacker and the decoder hold, and passes them on. -/
theorem packer_commutes {i : Instr} (hi : i = .flush ∨ ∃ w, i = .pack w) :
    Commutes (fun s => { s with u := u, d := d }) (exec i) := by
  have hf : LeavesPorts fun s => { s with u := u, d := d } := ⟨fun _ => rfl, fun _ _ => rfl⟩
  rcases hi with rfl | ⟨w, rfl⟩
  · intro s
    simp only [exec, execFlush]
    exact commutes_emitP hf _ (fun _ => rfl) s
  · change Commutes _ (execPack w)
    unfold execPack
    exact commutes_takeV hf fun v => commutes_ite (fun _ => .rfl) (fun _ => rfl)
      (commutes_ite (fun _ => .rfl) (fun _ => rfl) fun _ => rfl)

/-- An unpacker command does the same whatever the packer and the decoder hold, and passes them on. -/
theorem unpacker_commutes {i : Instr} (hi : i = .uload ∨ i = .isempty ∨ ∃ w, i = .unpack w) :
    Commutes (fun s => { s with p := p, d := d }) (exec i) := by
  have hf : LeavesPorts fun s => { s with p := p, d := d } := ⟨fun _ => rfl, fun _ _ => rfl⟩
  rcases hi with rfl | rfl | ⟨w, rfl⟩
  · change Commutes _ execUload
    unfold execUload
    exact commutes_takeN hf fun n => commutes_takeUDin hf _ fun l =>
      commutes_ite (fun _ => .rfl) (fun _ => rfl) fun _ => rfl
  · exact fun _ => rfl
  · change Commutes _ (execUnpack w)
    unfold execUnpack
    exact commutes_ite (fun _ => .rfl) (fun _ => rfl) fun _ => rfl

/-- A decoder command does the same whatever the packer and the unpacker hold, and passes them on. -/
theorem decoder_commutes {i : Instr} (hi : i = .dload ∨ i = .dstep ∨ i = .drun) :
    Commutes (fun s => { s with p := p, u := u }) (exec i) := by
  have hf : LeavesPorts fun s => { s with p := p, u := u } := ⟨fun _ => rfl, fun _ _ => rfl⟩
  have hfinish (o : StepOut) (r : Value) : Commutes (fun s => { s with p := p, u := u }) (finishDecode o r) := fun s =>
    commutes_emitD hf o.emitted (fun _ => by cases o.err <;> rfl) (s.setD o.d)
  rcases hi with rfl | rfl | rfl
  · change Commutes _ execDload
    unfold execDload
    exact commutes_takeN hf fun n => commutes_takeDDin hf _ fun l =>
      commutes_ite (fun _ => .rfl) (fun _ => rfl) fun _ => rfl
  · change Commutes _ execDstep
    unfold execDstep
    exact commutes_ite (fun _ => .rfl) (fun _ => rfl) fun s => hfinish _ _ s
  · change Commutes _ execDrun
    unfold execDrun
    exact commutes_ite (fun _ => .rfl) (fun _ => rfl) fun s => hfinish _ _ s

/-- A command that completes, before and after a change that it commutes with. -/
theorem Commutes.next {k : State → Out} {s t : State} (hf : Commutes f k) (h : k s = .next t) :
    k (f s) = .next (f t) := by
  rw [hf, h]
  rfl

/-- A command that commutes with a change leaves alone a state that the change leaves alone. -/
theorem Commutes.fixed {k : State → Out} {s t : State} (hf : Commutes f k) (h : k s = .next t) (hs : f s = s) :
    f t = t := by
  have hnext := hf.next h
  rw [hs, h] at hnext
  exact (Host.Outcome.next.inj hnext).symm

end Isolation

/-- Settles O18: a command of one unit commutes with any change of the other units; with the change that writes what
they hold already, that says that it leaves them alone. -/
theorem unitsAreIsolated : Obligations.UnitsAreIsolated := by
  refine fun s t p u d => ⟨fun i hi h => ?_, fun i hi h => ?_, fun i hi h => ?_⟩
  · have hfix := (packer_commutes s.u s.d hi).fixed h rfl
    exact ⟨by rw [← hfix], by rw [← hfix], (packer_commutes u d hi).next h⟩
  · have hfix := (unpacker_commutes s.p s.d hi).fixed h rfl
    exact ⟨by rw [← hfix], by rw [← hfix], (unpacker_commutes p d hi).next h⟩
  · have hfix := (decoder_commutes s.p s.u hi).fixed h rfl
    exact ⟨by rw [← hfix], by rw [← hfix], (decoder_commutes p u hi).next h⟩

end Sys2Proof.Machine
end

section
/-! Proofs of the statements about 20_memory.md. -/

namespace Sys2Proof.Machine

/-! ## Bit addresses -/

/-- What bit address a names (20_memory.md R62). -/
theorem addressed_bit {buf : List Byte} {a : Nat} (h : a < 8 * buf.length) :
    (buf[a / 8]?).map (fun b => b.getLsbD (7 - a % 8)) = some (bitAt buf a) := by
  have hbyte : a / 8 < buf.length := by omega
  simp [bitAt_eq, hbyte]

/-- Settles O25: bit i of a read is the bit at its address, and reading inverts the write order. -/
theorem readBitsNamesAddressedBits : Obligations.ReadBitsNamesAddressedBits := by
  refine ⟨fun buf pos w h => ⟨length_readBits buf pos w, fun i hi => ?_⟩, readBits_bytesOf_padBits_all⟩
  rw [getElem?_readBits buf pos hi, addressed_bit (by omega)]

/-- Settles O26: bit 7 - j of byte k is the bit at address 8k + j, where `bytesOf` put bit 8k + j of the string. -/
theorem bytesOfPacksMostSignificantFirst : Obligations.BytesOfPacksMostSignificantFirst := by
  refine fun t h8 => ⟨length_bytesOf t, fun k j hk hj => ?_⟩
  have hin : 8 * k + j < t.length := by omega
  have hbit := addressed_bit (buf := bytesOf t) (a := 8 * k + j) (by rw [length_bytesOf]; omega)
  rw [show (8 * k + j) / 8 = k by omega, show (8 * k + j) % 8 = j by omega, bitAt_bytesOf h8 hin] at hbit
  simpa [hin] using hbit

/-! ## Mixed widths -/

section

variable {v1 w1 v2 w2 : Nat} (h1 : v1 < 2 ^ w1) (h2 : v2 < 2 ^ w2)

include h1 h2

theorem bitsVal_bitsOf_append : bitsVal (bitsOf w1 v1 ++ bitsOf w2 v2) = v1 * 2 ^ w2 + v2 := by
  rw [bitsVal_append, length_bitsOf, bitsVal_bitsOf h1, bitsVal_bitsOf h2]

/-- Two numbers written one after the other fit the two widths together. -/
theorem mul_two_pow_add_lt : v1 * 2 ^ w2 + v2 < 2 ^ (w1 + w2) := by
  simpa [bitsVal_bitsOf_append h1 h2] using bitsVal_lt (bitsOf w1 v1 ++ bitsOf w2 v2)

/-- The bits of two numbers, one after the other, are those of one number (20_memory.md R65). -/
theorem bitsOf_append : bitsOf w1 v1 ++ bitsOf w2 v2 = bitsOf (w1 + w2) (v1 * 2 ^ w2 + v2) := by
  simpa [bitsVal_bitsOf_append h1 h2] using (bitsOf_bitsVal (bitsOf w1 v1 ++ bitsOf w2 v2)).symm

end

/-- A PACK whose value fits its width, with room for it (41_packer.md R141). -/
theorem execPack_fits {s : State} {w : Nat} {v : Value} {q : List Value} (hv : s.io.v = v :: q)
    (hw : v.toNat < 2 ^ w) (hroom : s.p.bits.length + w ≤ s.cfg.pCapBits) :
    execPack w s = .next (((s.setV q).setPBits (s.p.bits ++ bitsOf w v.toNat)).respond statusOk 0#256) := by
  rw [execPack, takeV_cons hv, if_neg (by omega), if_neg (by simpa using hroom)]
  rfl

/-- Settles O27: a wide read is two reads one after the other, and so are the bits that a wide PACK appends; the wide
value is below 2^256, so the bus carries it whole. -/
theorem mixedWidthsCompose : Obligations.MixedWidthsCompose := by
  refine ⟨fun buf p w1 w2 _ => ?_, fun s w1 w2 v1 v2 hw h1 h2 hroom => ?_⟩
  · rw [readBits_add, bitsVal_append, length_readBits]
  · have hlt := mul_two_pow_add_lt h1 h2
    have hbus : (BitVec.ofNat 256 (v1.toNat * 2 ^ w2 + v2.toNat)).toNat = v1.toNat * 2 ^ w2 + v2.toNat :=
      Nat.mod_eq_of_lt (hlt.trans (Nat.pow_lt_pow_right one_lt_two (by omega)))
    refine ⟨_, _, _, execPack_fits rfl h1 (by simp; omega), execPack_fits rfl h2 (by simp; omega),
      execPack_fits rfl (hbus.symm ▸ hlt) (by simp; omega), rfl, rfl, rfl, ?_⟩
    simp [hbus, ← bitsOf_append h1 h2]

/-! ## The unpacker's commands -/

/-- Settles O34: ULOAD writes N, U_DIN and the unpacker, UNPACK the cursor, ISEMPTY nothing, and each of them its
response. -/
theorem unpackerCommandsFrame : Obligations.UnpackerCommandsFrame := by
  rintro i s t (rfl | rfl | ⟨w, rfl⟩) h
  · obtain ⟨n, q, -, -, ⟨e, rfl⟩ | ⟨-, rfl⟩⟩ := execUload_next h <;> simp
  · obtain rfl := succeed_next.mp h
    simp
  · obtain ⟨e, rfl⟩ | ⟨-, r, rfl⟩ := execUnpack_next h <;> simp

/-! ## The step of a transaction -/

/-- Settles O6: the step is the transaction, on the state without it at the command port. -/
theorem stepRunsDecodedCommand : Obligations.StepRunsDecodedCommand := by
  intro s x q hq
  have hstep : step s = runTransaction x (s.setCmd q) := by simp [step, hq, runAction]
  exact ⟨hstep, fun hp i hd => hstep.trans (runTransaction_of_decode hd hp)⟩

end Sys2Proof.Machine
end

section
/-! Proofs of the statements about 30_encoding.md. -/

namespace Sys2Proof.Machine

/-! ## Command words -/

/-- The word of every command is one of its own row, whatever its fields (30_encoding.md R92, R93). -/
theorem tableRow (i : Instr) : Laws.TableRow.Statement i := by
  cases i with
  | nop => exact Laws.TableRow.nop
  | sreset => exact Laws.TableRow.sreset
  | rdreg reg => exact Laws.TableRow.rdreg reg
  | pack w => exact Laws.TableRow.pack w
  | flush => exact Laws.TableRow.flush
  | uload => exact Laws.TableRow.uload
  | unpack w => exact Laws.TableRow.unpack w
  | isempty => exact Laws.TableRow.isempty
  | dload => exact Laws.TableRow.dload
  | dstep => exact Laws.TableRow.dstep
  | drun => exact Laws.TableRow.drun

theorem opcodeOf_encode (i : Instr) : opcodeOf (fieldOpc (encode i)) = some (Laws.TableRow.row i) := (tableRow i).2

/-- A number that fits a field is read back from it, neither scaled nor offset (30_encoding.md R95). -/
theorem toNat_field {n : Nat} (h : n ≤ 255) : (BitVec.ofNat 8 n).toNat = n := by
  rw [BitVec.toNat_ofNat, Nat.mod_eq_of_lt (by omega)]

/-- A row makes a well-formed command again of the command's word. -/
theorem build_encode {i : Instr} (h : i.WellFormed = true) : (Laws.TableRow.row i).build (encode i) = i := by
  cases i with
  | rdreg reg =>
    obtain ⟨-, -, hreg, -⟩ := fields_word 0x02 0 reg 0
    exact congrArg Instr.rdreg ((congrArg BitVec.toNat hreg).trans (toNat_field (by simpa [Instr.WellFormed] using h)))
  | pack w =>
    obtain ⟨-, hw, -, -⟩ := fields_word 0x10 w 0 0
    exact congrArg Instr.pack ((congrArg BitVec.toNat hw).trans (toNat_field (by simpa [Instr.WellFormed] using h)))
  | unpack w =>
    obtain ⟨-, hw, -, -⟩ := fields_word 0x21 w 0 0
    exact congrArg Instr.unpack ((congrArg BitVec.toNat hw).trans (toNat_field (by simpa [Instr.WellFormed] using h)))
  | _ => rfl

/-- Settles O2: the word matches the command's own row, and the row's fields give the operands back. -/
theorem decodeOfEncode : Obligations.DecodeOfEncode := by
  intro i h
  rw [decode_of_opcodeOf (opcodeOf_encode i), if_pos (tableRow i).1, build_encode h]

/-- What a row builds is well formed, since its operand is an 8-bit field. -/
theorem build_wellFormed (op : Opcode) (c : Word) : (op.build c).WellFormed = true := by
  have hreg := (fieldReg c).isLt
  have hw := (fieldW c).isLt
  cases op with
  | rdreg => simp only [Opcode.build, Instr.WellFormed, decide_eq_true_eq]; omega
  | pack => simp only [Opcode.build, Instr.WellFormed, decide_eq_true_eq]; omega
  | unpack => simp only [Opcode.build, Instr.WellFormed, decide_eq_true_eq]; omega
  | _ => rfl

/-- The word of what a row builds has the row's opcode, and the fields it was built from where the row uses them. -/
theorem encode_build (op : Opcode) (c : Word) : encode (op.build c) = op.opc ++
    (if op = .pack ∨ op = .unpack then fieldW c else 0#8) ++ (if op = .rdreg then fieldReg c else 0#8) ++ 0#8 := by
  cases op <;> simp [Opcode.build, encode, word, Opcode.opc, Opcode.pattern]

/-- Settles O3: of a word that decodes, the fields its command uses go into the command, and the others are zero. -/
theorem encodeOfDecode : Obligations.EncodeOfDecode := by
  intro c i h
  obtain ⟨op, ho, rfl, hr, hw, hreg⟩ := decode_ok h
  refine ⟨build_wellFormed op c, ?_⟩
  have hw' : (if op = .pack ∨ op = .unpack then fieldW c else 0#8) = fieldW c :=
    ite_eq_left_iff.mpr fun hn => (by tauto : fieldW c = 0#8).symm
  have hreg' : (if op = .rdreg then fieldReg c else 0#8) = fieldReg c :=
    ite_eq_left_iff.mpr fun hn => (by tauto : fieldReg c = 0#8).symm
  rw [encode_build, hw', hreg', ← ho, ← hr, fields_append]

/-- Settles O1: each word evaluates. -/
theorem commandWordsDecode : Obligations.CommandWordsDecode := by
  unfold Obligations.CommandWordsDecode
  decide

/-! ## Operands -/

section Operands

variable {s t : State} {c : Word}

/-- What the opcode requires stands on the ports, and perhaps more behind it (30_encoding.md R96). -/
def OperandsSuffice (op : Opcode) (s : State) : Prop :=
  match op with
  | .pack => ∃ v q, s.io.v = v :: q
  | .uload => ∃ n q, s.io.n = n :: q ∧ n.toNat ≤ s.io.uDin.length
  | .dload => ∃ n q, s.io.n = n :: q ∧ n.toNat ≤ s.io.dDin.length
  | _ => True

/-- Exactly the operands are presented where they suffice and none is left over. -/
theorem operandsPresented_iff {op : Opcode} (ho : opcodeOf (fieldOpc c) = some op) :
    OperandsPresented c s ↔ OperandsSuffice op s ∧ surplusOperands c s = false := by
  constructor
  · intro h
    refine ⟨?_, surplusOperands_of_presented h⟩
    rw [OperandsPresented, ho] at h
    cases op with
    | pack =>
      obtain ⟨⟨v, hv⟩, -⟩ := h
      exact ⟨v, [], hv⟩
    | uload =>
      obtain ⟨-, ⟨n, hn, hl⟩, -⟩ := h
      exact ⟨n, [], hn, hl.ge⟩
    | dload =>
      obtain ⟨-, ⟨n, hn, hl⟩, -⟩ := h
      exact ⟨n, [], hn, hl.ge⟩
    | _ => trivial
  · rintro ⟨h, hs⟩
    rw [surplusOperands_eq_false, dropOperands, ho] at hs
    rw [OperandsPresented, ho]
    cases op with
    | pack =>
      obtain ⟨v, q, hv⟩ := h
      simpa [State.PortsClear, hv] using hs
    | uload =>
      obtain ⟨n, q, hn, hl⟩ := h
      obtain ⟨hv, hq, hu, hd⟩ : s.io.v = [] ∧ q = [] ∧ s.io.uDin.length ≤ n.toNat ∧ s.io.dDin = [] := by
        simpa [State.PortsClear, hn] using hs
      exact ⟨hv, ⟨n, hq ▸ hn, hu.antisymm hl⟩, hd⟩
    | dload =>
      obtain ⟨n, q, hn, hl⟩ := h
      obtain ⟨hv, hq, hu, hd⟩ : s.io.v = [] ∧ q = [] ∧ s.io.uDin = [] ∧ s.io.dDin.length ≤ n.toNat := by
        simpa [State.PortsClear, hn] using hs
      exact ⟨hv, ⟨n, hq ▸ hn, hd.antisymm hl⟩, hu⟩
    | _ => exact hs

/-- A command that completes had its operands. -/
theorem exec_suffice {i : Instr} (h : exec i s = .next t) : OperandsSuffice (Laws.TableRow.row i) s := by
  cases i with
  | pack w =>
    obtain ⟨v, q, hv, -⟩ := execPack_next h
    exact ⟨v, q, hv⟩
  | uload =>
    obtain ⟨n, q, hn, hl, -⟩ := execUload_next h
    exact ⟨n, q, hn, hl⟩
  | dload =>
    obtain ⟨n, q, hn, hl, -⟩ := execDload_next h
    exact ⟨n, q, hn, hl⟩
  | _ => trivial

/-- A malformed word that completes had the operands of its opcode. -/
theorem consumeOperands_suffice {op : Opcode} {k : State → Out} (h : consumeOperands op s k = .next t) :
    OperandsSuffice op s := by
  cases op with
  | pack =>
    obtain ⟨v, q, hv, -⟩ := takeV_next (by simpa only [consumeOperands] using h)
    exact ⟨v, q, hv⟩
  | uload =>
    obtain ⟨n, q, hn, h⟩ := takeN_next (by simpa only [consumeOperands] using h)
    exact ⟨n, q, hn, (takeUDin_next h).1⟩
  | dload =>
    obtain ⟨n, q, hn, h⟩ := takeN_next (by simpa only [consumeOperands] using h)
    exact ⟨n, q, hn, (takeDDin_next h).1⟩
  | _ => trivial

/-- A malformed word that has the operands of its opcode consumes them. -/
theorem consumeOperands_of_suffice {op : Opcode} {k : State → Out} (ho : opcodeOf (fieldOpc c) = some op)
    (h : OperandsSuffice op s) : consumeOperands op s k = k (dropOperands c s) := by
  rw [dropOperands, ho]
  cases op with
  | pack =>
    obtain ⟨v, q, hv⟩ := h
    simp [consumeOperands, takeV_cons hv, hv]
  | uload =>
    obtain ⟨n, q, hn, hl⟩ := h
    simp only [consumeOperands, takeN_cons hn, hn]
    exact takeUDin_of_le hl
  | dload =>
    obtain ⟨n, q, hn, hl⟩ := h
    simp only [consumeOperands, takeN_cons hn, hn]
    exact takeDDin_of_le hl
  | _ => rfl

/-- A word that completes had exactly the operands of its opcode on the ports (30_encoding.md R96). -/
theorem runWord_presented (h : runWord c s = .next t) : OperandsPresented c s := by
  obtain ⟨hs, ⟨i, hd, hx⟩ | ⟨x, hd, hr⟩⟩ := runWord_next h
  · exact (operandsPresented_iff (opcodeOf_of_decode hd)).mpr ⟨exec_suffice hx, hs⟩
  · obtain ⟨rfl, ho⟩ | ⟨op, rfl, ho, -⟩ := decode_error hd
    · rw [surplusOperands_eq_false, dropOperands, ho] at hs
      rwa [OperandsPresented, ho]
    · exact (operandsPresented_iff ho).mpr ⟨consumeOperands_suffice hr, hs⟩

/-- Dropping operands leaves the host's actions and what it drains alone. -/
theorem dropOperands_host (c : Word) (s : State) : (dropOperands c s).free = s.free ∧
    (dropOperands c s).io.cmd = s.io.cmd ∧ (dropOperands c s).io.pReady = s.io.pReady ∧
    (dropOperands c s).io.dReady = s.io.dReady := by
  unfold dropOperands
  split <;> simp

/-- A command leaves the host's further actions alone, and whether the host drains the output ports. -/
theorem exec_host {i : Instr} (h : exec i s = .next t) :
    t.io.cmd = s.io.cmd ∧ t.io.pReady = s.io.pReady ∧ t.io.dReady = s.io.dReady := by
  cases i with
  | nop => exact succeed_next.mp h ▸ ⟨rfl, rfl, rfl⟩
  | sreset => exact succeed_next.mp h ▸ ⟨rfl, rfl, rfl⟩
  | rdreg reg =>
    obtain ⟨st, r, rfl, -⟩ := execRdreg_next h
    exact ⟨rfl, rfl, rfl⟩
  | pack w => obtain ⟨v, q, -, ⟨e, rfl⟩ | ⟨-, -, rfl⟩⟩ := execPack_next h <;> exact ⟨rfl, rfl, rfl⟩
  | flush => exact execFlush_next h ▸ ⟨rfl, rfl, rfl⟩
  | uload => obtain ⟨n, q, -, -, ⟨e, rfl⟩ | ⟨-, rfl⟩⟩ := execUload_next h <;> exact ⟨rfl, rfl, rfl⟩
  | unpack w => obtain ⟨e, rfl⟩ | ⟨-, r, rfl⟩ := execUnpack_next h <;> exact ⟨rfl, rfl, rfl⟩
  | isempty => exact succeed_next.mp h ▸ ⟨rfl, rfl, rfl⟩
  | dload => obtain ⟨n, q, -, -, ⟨e, rfl⟩ | ⟨-, rfl⟩⟩ := execDload_next h <;> exact ⟨rfl, rfl, rfl⟩
  | dstep => obtain ⟨-, rfl⟩ | ⟨-, o, -, -, rfl⟩ := execDstep_next h <;> exact ⟨rfl, rfl, rfl⟩
  | drun => obtain ⟨-, rfl⟩ | ⟨-, o, -, -, rfl⟩ := execDrun_next h <;> exact ⟨rfl, rfl, rfl⟩

theorem runWord_host (h : runWord c s = .next t) :
    t.io.cmd = s.io.cmd ∧ t.io.pReady = s.io.pReady ∧ t.io.dReady = s.io.dReady := by
  obtain ⟨i, -, hx⟩ | ⟨x, hd, hr⟩ := (runWord_next h).2
  · exact exec_host hx
  · obtain ⟨e, rfl⟩ := rejectWord_next hd hr
    exact (dropOperands_host c s).2

/-- Settles O13: a word that completes had exactly its operands (`runWord_presented`) and leaves the operand ports clear
(`runWord_portsClear`); the rest reads the opcode off its number. -/
theorem operandsConsumedByOpcodeAlone : Obligations.OperandsConsumedByOpcodeAlone := by
  intro c s t h opc
  obtain ⟨hv, hn, hu, hd⟩ := runWord_portsClear h
  refine ⟨(runWord_host h).1, hv, hn, hu, hd, ?_⟩
  have hp := runWord_presented h
  rw [OperandsPresented] at hp
  cases ho : opcodeOf (fieldOpc c) with
  | none =>
    have hopc (op : Opcode) : opc ≠ op.opc := fun he => nomatch ho.symm.trans (opcodeOf_eq.mpr he)
    have hpack : opc ≠ 0x10#8 := hopc .pack
    have huload : opc ≠ 0x20#8 := hopc .uload
    have hdload : opc ≠ 0x30#8 := hopc .dload
    rw [ho] at hp
    obtain ⟨hv, hn, hu, hd⟩ := hp
    simp [*]
  | some op =>
    rw [show opc = op.opc from opcodeOf_eq.mp ho]
    rw [ho] at hp
    cases op with
    | pack =>
      obtain ⟨⟨v, hv⟩, hn, hu, hd⟩ := hp
      simp [Opcode.opc, Opcode.pattern, *]
    | uload =>
      obtain ⟨hv, ⟨n, hn, hu⟩, hd⟩ := hp
      simp [Opcode.opc, Opcode.pattern, *]
    | dload =>
      obtain ⟨hv, ⟨n, hn, hd⟩, hu⟩ := hp
      simp [Opcode.opc, Opcode.pattern, *]
    | _ =>
      obtain ⟨hv, hn, hu, hd⟩ := hp
      simp [Opcode.opc, Opcode.pattern, *]

/-! ## Words that are no command -/

/-- Settles O4: the word is rejected exactly when its row's fields do not match (`matches_iff`), and a rejected word
drops its operands and responds. -/
theorem unusedFieldsMustBeZero : Obligations.UnusedFieldsMustBeZero := by
  intro c op (ho : opcodeOf (fieldOpc c) = some op) bad
  have hbad : bad ↔ ¬ c &&& op.mask = op.pattern := by
    rw [matches_iff ho]
    change _ ≠ _ ∨ _ ↔ ¬ (c.extractLsb' 0 8 = 0#8 ∧ (_ ∨ _ ∨ c.extractLsb' 16 8 = 0#8) ∧ (_ ∨ c.extractLsb' 8 8 = 0#8))
    tauto
  refine ⟨fun h => ⟨op.build c, ?_⟩, fun h s hp => ?_⟩
  · rw [decode_of_opcodeOf ho, if_pos (by tauto)]
  · have hdec : decode c = .error (.nonzeroField op) := by rw [decode_of_opcodeOf ho, if_neg (hbad.mp h)]
    obtain ⟨hsuff, hs⟩ := (operandsPresented_iff ho).mp hp
    have hrun : runWord c s = .next ((dropOperands c s).respond 0x0205#16 0#256) := by
      rw [runWord_of_not_surplus hs, hdec]
      exact consumeOperands_of_suffice ho hsuff
    obtain ⟨hcfg, hp, hu, hd, hpd, hdd, hr⟩ := dropOperands_frame c s
    obtain ⟨hfree, hcmd, -⟩ := dropOperands_host c s
    exact ⟨_, hrun, by simp [*]⟩

/-- Settles O5: a reserved opcode is that of no row, so it has no operand and the word is answered with the error. -/
theorem reservedOpcodeCompletes : Obligations.ReservedOpcodeCompletes := by
  refine ⟨by decide +kernel, fun s c hc hres => ?_⟩
  have ho : opcodeOf (fieldOpc c) = none := by
    cases ho : opcodeOf (fieldOpc c) with
    | none => rfl
    | some op =>
      rw [show c.extractLsb' 24 8 = op.opc from opcodeOf_eq.mp ho] at hres
      exact absurd (by cases op <;> decide) hres
  have hs : surplusOperands c s = false := by rwa [surplusOperands_eq_false, dropOperands, ho]
  rw [runWord_of_not_surplus hs, decode, ho]
  rfl

end Operands

/-! ## The container format -/

section ContainerFormat

variable {bits pre field post : Bits} {w v : Nat}

/-- A part of a bit string is read back from its padded bytes at the address where it stands (20_memory.md R62). -/
theorem readBits_part (h : bits = pre ++ field ++ post) :
    readBits (bytesOf (padBits bits)) pre.length field.length = field := by
  rw [readBits_bytesOf_padBits (by simp [h]), h]
  simp

/-- A number written into a bit string is read back from its padded bytes. -/
theorem bitsVal_readBits_part (h : bits = pre ++ bitsOf w v ++ post) (hv : v < 2 ^ w) :
    bitsVal (readBits (bytesOf (padBits bits)) pre.length w) = v := by
  have hread := readBits_part h
  rw [length_bitsOf] at hread
  rw [hread, bitsVal_bitsOf hv]

/-- Behind a bit string stand zero bits to the end of its last byte (41_packer.md R143). -/
theorem bitAt_padding {a : Nat} (h : bits.length ≤ a) (ha : a < 8 * (bytesOf (padBits bits)).length) :
    bitAt (bytesOf (padBits bits)) a = false := by
  have hlen := eight_mul_length_bytesOf_padBits bits
  rw [bitAt_bytesOf (dvd_length_padBits bits) (by rw [length_padBits]; omega), padBits,
    List.getD_append_right _ _ _ _ h]
  simp

variable {es : List Entry} {i : Nat} {e : Entry}

@[simp] theorem length_entryBits (e : Entry) : (entryBits e).length = 16 + e.len := by
  simp [entryBits]; omega

/-- The offset of an entry is the length of what stands before it (30_encoding.md R100). -/
theorem entryOffset_eq (es : List Entry) (i : Nat) : entryOffset es i = 8 + ((es.take i).flatMap entryBits).length := by
  simp [entryOffset, List.length_flatMap]

theorem entryOffset_length (es : List Entry) : entryOffset es es.length = 8 + (es.flatMap entryBits).length := by
  rw [entryOffset_eq, List.take_length]

theorem entryOffset_succ (h : es[i]? = some e) : entryOffset es (i + 1) = entryOffset es i + 16 + e.len := by
  simp [entryOffset, List.take_add_one, h]; omega

/-- What stands before an entry, the entry, and what stands behind it. -/
theorem flatMap_entryBits_split (h : es[i]? = some e) : es.flatMap entryBits =
    (es.take i).flatMap entryBits ++ entryBits e ++ (es.drop (i + 1)).flatMap entryBits := by
  obtain ⟨hi, rfl⟩ := List.getElem?_eq_some_iff.mp h
  calc es.flatMap entryBits = (es.take i ++ es[i] :: es.drop (i + 1)).flatMap entryBits := by
        rw [← List.drop_eq_getElem_cons hi, List.take_append_drop]
    _ = _ := by rw [List.flatMap_append, List.flatMap_cons, List.append_assoc]

theorem length_headerBits (c : Container) : (headerBits c).length = entryOffset c.entries c.entries.length + 32 := by
  simp [headerBits, entryOffset_length]; omega

/-- The three fields of an entry at its offset (30_encoding.md R99, R100). -/
theorem entry_fields {c : Container} (h : c.entries[i]? = some e) (he : EntryInRange e) :
    let o := entryOffset c.entries i
    bitsVal (readBits (containerBytes c) o 8) = e.sym.toNat ∧ bitsVal (readBits (containerBytes c) (o + 8) 8) = e.len ∧
      bitsVal (readBits (containerBytes c) (o + 16) e.len) = e.val := by
  obtain ⟨⟨-, hlen⟩, hval⟩ := he
  let pre := bitsOf 8 (c.entries.length - 1) ++ (c.entries.take i).flatMap entryBits
  let post := (c.entries.drop (i + 1)).flatMap entryBits ++ bitsOf 32 c.symbols.length ++ payloadBits c
  have hpre : pre.length = entryOffset c.entries i := by simp [pre, entryOffset_eq]
  have hbits : headerBits c ++ payloadBits c =
      pre ++ (bitsOf 8 e.sym.toNat ++ bitsOf 8 e.len ++ bitsOf e.len e.val) ++ post := by
    rw [headerBits, flatMap_entryBits_split h]
    simp [pre, post, entryBits]
  have hsym := bitsVal_readBits_part (pre := pre) (w := 8) (post := bitsOf 8 e.len ++ bitsOf e.len e.val ++ post)
    (by simpa using hbits) e.sym.isLt
  have hl := bitsVal_readBits_part (pre := pre ++ bitsOf 8 e.sym.toNat) (w := 8) (post := bitsOf e.len e.val ++ post)
    (by simpa using hbits) (show e.len < 2 ^ 8 by omega)
  have hv := bitsVal_readBits_part (pre := pre ++ bitsOf 8 e.sym.toNat ++ bitsOf 8 e.len) (post := post)
    (by simpa using hbits) hval
  simp only [List.length_append, length_bitsOf, hpre] at hsym hl hv
  exact ⟨hsym, hl, hv⟩

/-- Settles O54: each field stands behind what comes before it in the bit stream, whose length is its offset. -/
theorem containerFieldsAtOffsets : Obligations.ContainerFieldsAtOffsets := by
  intro c hc b o
  have hheader := length_headerBits c
  have hlen : (headerBits c ++ payloadBits c).length = o c.entries.length + 32 + (payloadBits c).length := by
    rw [List.length_append, hheader]
  have hbytes := eight_mul_length_bytesOf_padBits (headerBits c ++ payloadBits c)
  rw [hlen] at hbytes
  have hpad := padLen_lt (o c.entries.length + 32 + (payloadBits c).length)
  refine ⟨?_, fun i e h => ?_, ?_, ?_, ?_, ?_, fun a ha hab => ?_⟩
  · obtain ⟨h1, h256⟩ := hc.count
    exact bitsVal_readBits_part (pre := []) (w := 8)
      (post := c.entries.flatMap entryBits ++ bitsOf 32 c.symbols.length ++ payloadBits c) (by simp [headerBits])
      (by omega)
  · obtain ⟨hsym, hl, hv⟩ := entry_fields h (hc.entries e (List.mem_of_getElem? h))
    exact ⟨hsym, hl, hv, entryOffset_succ h⟩
  · have htotal := bitsVal_readBits_part (bits := headerBits c ++ payloadBits c) (w := 32)
      (post := payloadBits c) (pre := bitsOf 8 (c.entries.length - 1) ++ c.entries.flatMap entryBits)
      (by simp [headerBits]) hc.total
    rwa [List.length_append, length_bitsOf, ← entryOffset_length] at htotal
  · have hpayload := readBits_part (bits := headerBits c ++ payloadBits c) (pre := headerBits c) (post := [])
      (List.append_nil _).symm
    rwa [hheader] at hpayload
  · exact show (bytesOf (padBits _)).length = _ by omega
  · exact show 8 * (bytesOf (padBits _)).length < _ by omega
  · exact (addressed_bit hab).trans (congrArg some (bitAt_padding (hlen ▸ ha) hab))

end ContainerFormat

/-! ## Programs of accepted lines -/

section Programs

variable {s : State} {c : Word}

/-- A command whose operands stand on the ports completes, if the host drains what it emits. -/
theorem exec_of_suffice {i : Instr} (h : OperandsSuffice (Laws.TableRow.row i) s) (hp : s.io.pReady = true)
    (hd : s.io.dReady = true) : ∃ t, exec i s = .next t := by
  cases i with
  | nop => exact ⟨_, rfl⟩
  | sreset => exact ⟨_, rfl⟩
  | rdreg reg =>
    simp only [exec, execRdreg]
    split <;> exact ⟨_, rfl⟩
  | pack w =>
    obtain ⟨v, q, hv⟩ := h
    simp only [exec, execPack, takeV_cons hv]
    split
    · exact ⟨_, rfl⟩
    · split <;> exact ⟨_, rfl⟩
  | flush =>
    simp only [exec, execFlush]
    exact ⟨_, emitP_ready (.inr hp)⟩
  | uload =>
    obtain ⟨n, q, hn, hl⟩ := h
    simp only [exec, execUload, takeN_cons hn]
    rw [takeUDin_of_le (by exact hl)]
    split <;> exact ⟨_, rfl⟩
  | unpack w =>
    simp only [exec, execUnpack]
    split <;> exact ⟨_, rfl⟩
  | isempty => exact ⟨_, rfl⟩
  | dload =>
    obtain ⟨n, q, hn, hl⟩ := h
    simp only [exec, execDload, takeN_cons hn]
    rw [takeDDin_of_le (by exact hl)]
    split <;> exact ⟨_, rfl⟩
  | dstep =>
    cases hr : phaseAtRest s.d.state with
    | true => exact ⟨_, if_pos hr⟩
    | false => exact ⟨_, execDstep_ready hr (.inr hd)⟩
  | drun =>
    cases hr : phaseAtRest s.d.state with
    | true => exact ⟨_, if_pos hr⟩
    | false => exact ⟨_, execDrun_ready hr (.inr hd)⟩

/-- A word with exactly its operands on the ports completes, if the host drains what it emits
(70_reset_and_hazards.md R324, R327). -/
theorem runWord_of_presented (h : OperandsPresented c s) (hp : s.io.pReady = true) (hd : s.io.dReady = true) :
    ∃ t, runWord c s = .next t := by
  rw [runWord_of_not_surplus (surplusOperands_of_presented h)]
  cases hdec : decode c with
  | ok i => exact exec_of_suffice ((operandsPresented_iff (opcodeOf_of_decode hdec)).mp h).1 hp hd
  | error e =>
    obtain ⟨rfl, -⟩ | ⟨op, rfl, ho, -⟩ := decode_error hdec
    · exact ⟨_, rfl⟩
    · exact ⟨_, consumeOperands_of_suffice ho ((operandsPresented_iff ho).mp h).1⟩

/-- A transaction brings exactly the operands of its opcode to clear ports. -/
def CarriesOperands (x : Transaction) : Prop := ∀ s : State, s.PortsClear → OperandsPresented x.cmd (s.present x)

theorem carriesOperands_plain {i : Instr} (h : Laws.TableRow.row i ∉ [.pack, .uload, .dload]) :
    CarriesOperands (plainTransaction i) := by
  intro s hc
  rw [present_plain, OperandsPresented, show (plainTransaction i).cmd = encode i from rfl, opcodeOf_encode]
  cases i with
  | pack w => simp [Laws.TableRow.row] at h
  | uload => simp [Laws.TableRow.row] at h
  | dload => simp [Laws.TableRow.row] at h
  | _ => exact hc

theorem carriesOperands_pack (w : Nat) (v : Value) : CarriesOperands (packTransaction w v) := by
  intro s hc
  rw [present_pack hc, OperandsPresented, show (packTransaction w v).cmd = encode (.pack w) from rfl, opcodeOf_encode]
  exact ⟨⟨v, rfl⟩, hc.2⟩

/-- An accepted byte list fits its count: N says how many bytes follow (30_encoding.md R96). -/
theorem carriesOperands_load {bytes : List Nat} (h : bytesOk bytes = true) :
    CarriesOperands (uloadTransaction (bytes.map (BitVec.ofNat 8))) ∧
      CarriesOperands (dloadTransaction (bytes.map (BitVec.ofNat 8))) := by
  have hlen : bytes.length < 2 ^ 32 := by
    simp only [bytesOk, Bool.and_eq_true, decide_eq_true_eq] at h
    exact h.2
  constructor
  · intro s hc
    rw [present_uload hc, OperandsPresented, show (uloadTransaction _).cmd = encode .uload from rfl, opcodeOf_encode]
    exact ⟨hc.1, ⟨_, rfl, by simp; omega⟩, hc.2.2.2⟩
  · intro s hc
    rw [present_dload hc, OperandsPresented, show (dloadTransaction _).cmd = encode .dload from rfl, opcodeOf_encode]
    exact ⟨hc.1, ⟨_, rfl, by simp; omega⟩, hc.2.2.1⟩

/-- Every transaction of an accepted line brings its operands (30_encoding.md R105, R106). -/
theorem transactionsOf_carry {l : AsmLine} (h : lineOk l = true) : ∀ x ∈ transactionsOf l, CarriesOperands x := by
  cases l with
  | pack w v => simpa [transactionsOf] using carriesOperands_pack w _
  | packs bits => simpa [transactionsOf] using carriesOperands_pack _ _
  | uload bytes => simpa [transactionsOf] using (carriesOperands_load h).1
  | dload bytes => simpa [transactionsOf] using (carriesOperands_load h).2
  | decode bytes =>
    have hrun : CarriesOperands (plainTransaction .drun) := carriesOperands_plain (by decide)
    simpa [transactionsOf] using ⟨(carriesOperands_load h).2, hrun⟩
  | _ => simpa [transactionsOf] using carriesOperands_plain (by simp [Laws.TableRow.row])

/-- What a program leaves at the command port. -/
theorem issueAll_eq (ts : List Transaction) (s : State) : s.issueAll ts = s.setCmd (s.io.cmd ++ ts.map .command) := by
  induction ts generalizing s with
  | nil => simp [State.issueAll, State.setCmd]
  | cons x ts ih =>
    rw [State.issueAll, List.foldl_cons, ← State.issueAll, ih]
    simp [State.issue, State.setCmd]

/-- A run of one step more, from a state with a step. -/
theorem run_succ {s1 : State} (k : Nat) (h : step s = .next s1) :
    Host.Core.run core (k + 1) s = Host.Core.run core k s1 := by
  simp only [Host.Core.run, show core.step s = .next s1 from h]

/-- A program whose transactions bring their operands runs to its end, one response for each of them. -/
theorem run_carried (ts : List Transaction) (h : ∀ x ∈ ts, CarriesOperands x) (s : State) (hc : s.PortsClear)
    (hp : s.io.pReady = true) (hd : s.io.dReady = true) :
    ∃ t, Host.Core.run core ts.length (s.setCmd (ts.map .command)) = .next t ∧
      t.io.resp.length = s.io.resp.length + ts.length ∧ s.io.resp <+: t.io.resp ∧ t.io.cmd = [] ∧ t.PortsClear := by
  induction ts generalizing s with
  | nil => exact ⟨s.setCmd [], rfl, rfl, List.prefix_rfl, rfl, hc⟩
  | cons x ts ih =>
    obtain ⟨s1, hs1⟩ := runWord_of_presented (s := (s.setCmd (ts.map .command)).present x)
      (h x (by simp) (s.setCmd (ts.map .command)) hc) hp hd
    have hstep : step (s.setCmd ((x :: ts).map .command)) = .next s1 := hs1
    obtain ⟨hcmd, hp1, hd1⟩ := runWord_host hs1
    obtain ⟨r, hr, -⟩ := (runWord_completes hs1).resp
    have hs1cmd : s1 = s1.setCmd (ts.map .command) := by
      rw [show ts.map HostAction.command = s1.io.cmd from hcmd.symm]
      rfl
    obtain ⟨t, ht, hlen, hpre, hrest⟩ :=
      ih (fun y hy => h y (by simp [hy])) s1 (runWord_portsClear hs1) (hp1.trans hp) (hd1.trans hd)
    refine ⟨t, ?_, ?_, ?_, hrest⟩
    · rw [List.length_cons, run_succ _ hstep, hs1cmd]
      exact ht
    · rw [hlen, hr]
      simp; omega
    · exact List.IsPrefix.trans (by simp [hr]) hpre

/-- Settles O57: the transactions of an accepted line bring their operands, so the program they make runs to its end. -/
theorem assembledLinesComplete : Obligations.AssembledLinesComplete := by
  intro l ts s hl hcmd hc hp hd
  obtain ⟨hok, rfl⟩ : lineOk l = true ∧ transactionsOf l = ts := by simpa [assemble] using hl
  rw [issueAll_eq, hcmd, List.nil_append]
  exact run_carried _ (transactionsOf_carry hok) s hc hp hd

end Programs

/-! ## The assembler's checks -/

section Assembler

theorem assemble_of_ok {l : AsmLine} (h : lineOk l = true) : assemble l = some (transactionsOf l) := if_pos h

theorem assemble_isSome {l : AsmLine} : (assemble l).isSome = true ↔ lineOk l = true := by
  cases h : lineOk l <;> simp [assemble, h]

theorem bytesOk_iff {bytes : List Nat} : bytesOk bytes = true ↔ (∀ b ∈ bytes, b ≤ 255) ∧ bytes.length < 2 ^ 32 := by
  simp [bytesOk]

theorem lineOk_pack {w v : Nat} : lineOk (.pack w v) = true ↔ w ≤ 255 ∧ v < 2 ^ 256 := by
  simp only [lineOk, Instr.WellFormed, Bool.and_eq_true, decide_eq_true_iff]

/-- The fields of a word stand at CMD[31:24], CMD[23:16], CMD[15:8] and CMD[7:0] (30_encoding.md R91). -/
theorem append_eq_or (a b c d : BitVec 8) :
    a ++ b ++ c ++ d = a.setWidth 32 <<< 24 ||| b.setWidth 32 <<< 16 ||| c.setWidth 32 <<< 8 ||| d.setWidth 32 := by
  ext i hi
  simp only [BitVec.getElem_append, BitVec.getElem_or, BitVec.getElem_shiftLeft, BitVec.getElem_setWidth]
  grind

/-- The word of a command with an operand in W. -/
theorem word_w {opc w : Nat} (h : w ≤ 255) :
    word opc w 0 0 = (BitVec.ofNat 8 opc).setWidth 32 <<< 24 ||| BitVec.ofNat 32 w <<< 16 := by
  rw [word, append_eq_or, BitVec.setWidth_ofNat_of_le_of_lt (x := w) (by decide) (by omega)]
  simp

/-- The word of a command with an operand in REG. -/
theorem word_reg {opc reg : Nat} (h : reg ≤ 255) :
    word opc 0 reg 0 = (BitVec.ofNat 8 opc).setWidth 32 <<< 24 ||| BitVec.ofNat 32 reg <<< 8 := by
  rw [word, append_eq_or, BitVec.setWidth_ofNat_of_le_of_lt (x := reg) (by decide) (by omega)]
  simp

/-- The transaction of a command without operands, its word written out. -/
theorem plainTransaction_eq {i : Instr} {c : Word} (h : encode i = c) :
    plainTransaction i = { cmd := c, v := [], n := [], uDin := [], dDin := [] } :=
  congrArg (Transaction.mk · [] [] [] []) h

/-- PACKS is PACK of the string's value, which always fits its width (30_encoding.md R106). -/
theorem assemble_packs (bits : Bits) : assemble (.packs bits) = assemble (.pack bits.length (bitsVal bits)) := by
  have hok : lineOk (.pack bits.length (bitsVal bits)) = lineOk (.packs bits) := by
    by_cases hl : bits.length ≤ 255
    · have hv : bitsVal bits < 2 ^ 256 := (bitsVal_lt bits).trans (Nat.pow_lt_pow_right one_lt_two (by omega))
      simp only [lineOk, hv, decide_true, Bool.and_true]
    · simp only [lineOk, Instr.WellFormed, hl, decide_false, Bool.false_and]
  rw [assemble, assemble, hok]
  rfl

/-- DECODE is DLOAD and DRUN (30_encoding.md R106). -/
theorem assemble_decode (bytes : List Nat) : assemble (.decode bytes) =
    (assemble (.dload bytes)).bind fun a => (assemble .drun).map fun b => a ++ b := by
  cases h : bytesOk bytes <;> simp [assemble, lineOk, h, transactionsOf]

/-- Settles O56: acceptance is `lineOk`; an accepted line stands for its transactions, whose words are those of the
table. -/
theorem assemblerRefusesOutOfRange : Obligations.AssemblerRefusesOutOfRange := by
  have hwf {w : Nat} : decide (w ≤ 255) = true ↔ w ≤ 255 := decide_eq_true_iff
  refine ⟨fun w v => assemble_isSome.trans lineOk_pack, fun w => assemble_isSome.trans hwf,
    fun reg => assemble_isSome.trans hwf, fun bytes =>
    ⟨assemble_isSome.trans bytesOk_iff, assemble_isSome.trans bytesOk_iff, assemble_isSome.trans bytesOk_iff⟩,
    fun bits => assemble_isSome.trans hwf, ?_, fun w v hw hv => ?_, fun bytes hb hlen => ?_, assemble_packs,
    assemble_decode, rfl, rfl⟩
  · refine ⟨rfl, rfl, rfl, rfl, rfl, rfl, fun reg h => ?_, fun w h => ?_, rfl, rfl, rfl, rfl, rfl, rfl, rfl, rfl, rfl,
      rfl, rfl, rfl, rfl, rfl, rfl, rfl⟩
    · exact (assemble_of_ok (l := .rdreg reg) (hwf.mpr h)).trans
        (congrArg (fun x => some [x]) (plainTransaction_eq (i := .rdreg reg) (word_reg h)))
    · exact (assemble_of_ok (l := .unpack w) (hwf.mpr h)).trans
        (congrArg (fun x => some [x]) (plainTransaction_eq (i := .unpack w) (word_w h)))
  · rw [assemble_of_ok (lineOk_pack.mpr ⟨hw, hv⟩), transactionsOf, packTransaction,
      plainTransaction_eq (i := .pack w) (word_w hw)]
    rfl
  · have hok := bytesOk_iff.mpr ⟨hb, hlen⟩
    rw [assemble_of_ok (l := .uload bytes) hok, assemble_of_ok (l := .dload bytes) hok]
    simp [transactionsOf, uloadTransaction, dloadTransaction, plainTransaction, encode, word]

end Assembler

/-! ## Numbers in the text -/

section Numbers

/-- The character of a digit of value `x.1`, capital if `x.2` says so. -/
def digitOf (x : Nat × Bool) : Char := if x.2 then (Nat.digitChar x.1).toUpper else Nat.digitChar x.1

/-- The bases of 30_encoding.md R105. -/
def bases : List Nat := [10, 16, 2]

theorem digitVal_digitOf {base : Nat} (hb : base ∈ bases) {x : Nat × Bool} (hx : x.1 < base) :
    digitVal base (digitOf x) = some x.1 := by
  have h : ∀ base ∈ bases, ∀ n < base, ∀ upper, digitVal base (digitOf (n, upper)) = some n := by decide
  exact h base hb x.1 hx x.2

/-- A string of digits is read from its most significant digit on: what was read before counts for `base` to the number
of digits. -/
theorem digitsVal_digits {base : Nat} (hb : base ∈ bases) {ds : List (Nat × Bool)} (hds : ∀ x ∈ ds, x.1 < base)
    (acc : Nat) :
    digitsVal base acc (ds.map digitOf) =
      some (acc * base ^ ds.length + Nat.ofDigits base (ds.map Prod.fst).reverse) := by
  induction ds generalizing acc with
  | nil => simp [digitsVal]
  | cons x ds ih =>
    obtain ⟨hx, hds⟩ := List.forall_mem_cons.mp hds
    simp only [List.map_cons, digitsVal, digitVal_digitOf hb hx, Option.bind_some, ih hds, List.reverse_cons,
      Nat.ofDigits_append, Nat.ofDigits_singleton, List.length_reverse, List.length_map, List.length_cons, pow_succ]
    congr 1
    ring

theorem numeralVal_digits {base : Nat} (hb : base ∈ bases) {ds : List (Nat × Bool)} (hne : ds ≠ [])
    (hds : ∀ x ∈ ds, x.1 < base) :
    numeralVal base (ds.map digitOf) = some (Nat.ofDigits base (ds.map Prod.fst).reverse) := by
  rw [numeralVal, if_neg (by simpa using hne), digitsVal_digits hb hds]
  simp

/-- A text without the letters of 0x and 0b is a decimal number. -/
theorem numberVal_decimal {cs : List Char} (h : ∀ c ∈ cs, c ≠ 'x' ∧ c ≠ 'b') : numberVal cs = numeralVal 10 cs := by
  unfold numberVal
  split
  · simp at h
  · simp at h
  · rfl

theorem digitOf_ne_letter {x : Nat × Bool} (h : x.1 < 10) : digitOf x ≠ 'x' ∧ digitOf x ≠ 'b' := by
  have hall : ∀ n < 10, ∀ upper, digitOf (n, upper) ≠ 'x' ∧ digitOf (n, upper) ≠ 'b' := by decide
  exact hall x.1 h x.2

/-- Settles O58: each digit reads as its value, so a string of them reads as the number it spells; a decimal one has
no letter of 0x and 0b in it. -/
theorem assemblyNumbersRead : Obligations.AssemblyNumbersRead := by
  refine ⟨fun ds hne hds => ?_, fun ds hne hds => numeralVal_digits (by decide) hne hds,
    fun ds hne hds => numeralVal_digits (by decide) hne hds⟩
  have hno : ∀ c ∈ ds.map digitOf, c ≠ 'x' ∧ c ≠ 'b' :=
    List.forall_mem_map.mpr fun x hx => digitOf_ne_letter (hds x hx)
  exact (numberVal_decimal hno).trans (numeralVal_digits (by decide) hne hds)

end Numbers

/-! ## Lines in the text -/

section Lines

/-! ### Blanks -/

/-- A text that neither begins nor ends with a blank. -/
structure Tight (cs : List Char) : Prop where
  first : ∃ c rest, cs = c :: rest ∧ isBlank c = false
  last : ∃ init c, cs = init ++ [c] ∧ isBlank c = false

theorem tight_append {a b : List Char} (ha : Tight a) (m : List Char) (hb : Tight b) : Tight (a ++ m ++ b) := by
  obtain ⟨c, rest, rfl, hc⟩ := ha.first
  obtain ⟨init, e, rfl, he⟩ := hb.last
  exact ⟨⟨c, _, rfl, hc⟩, ⟨_, e, (List.append_assoc _ _ _).symm, he⟩⟩

theorem tight_of_noBlank {cs : List Char} (hne : cs ≠ []) (h : ∀ c ∈ cs, isBlank c = false) : Tight cs where
  first := by
    obtain ⟨c, rest, rfl⟩ := List.exists_cons_of_ne_nil hne
    exact ⟨c, rest, rfl, h c (by simp)⟩
  last := ⟨cs.dropLast, cs.getLast hne, (List.dropLast_append_getLast hne).symm, h _ (List.getLast_mem hne)⟩

theorem tight_enclosed {first last : Char} (hf : isBlank first = false) (hl : isBlank last = false)
    (inner : List Char) : Tight (first :: inner ++ [last]) := ⟨⟨_, _, rfl, hf⟩, ⟨_, _, rfl, hl⟩⟩

theorem trimBlanks_tight {cs : List Char} (h : Tight cs) : trimBlanks cs = cs := by
  obtain ⟨c, rest, hcs, hc⟩ := h.first
  obtain ⟨init, e, hcs', he⟩ := h.last
  have hfront : cs.dropWhile isBlank = cs := by rw [hcs, List.dropWhile_cons_of_neg (by simp [hc])]
  have hback : cs.reverse.dropWhile isBlank = cs.reverse := by
    rw [hcs', List.reverse_concat, List.dropWhile_cons_of_neg (by simp [he])]
  rw [trimBlanks, hfront, hback, List.reverse_reverse]

@[simp] theorem trimBlanks_space (cs : List Char) : trimBlanks (' ' :: cs) = trimBlanks cs := rfl

theorem trimBlanks_ne_nil {c : Char} (cs : List Char) (h : isBlank c = false) : trimBlanks (c :: cs) ≠ [] := by
  rw [trimBlanks, List.dropWhile_cons_of_neg (by simp [h])]
  simp [h]

/-- No mnemonic is empty or holds a blank. -/
theorem mnemonic_noBlank : ∀ x ∈ lineReaders, x.1 ≠ [] ∧ ∀ c ∈ x.1, isBlank c = false := by
  simp [lineReaders, isBlank]

/-- A line of a mnemonic, a blank and operands is read by the mnemonic's reader. -/
theorem parseLine_operands {name ops : List Char} {r : List Char → Option AsmLine}
    (hr : lineReaders.find? (fun x => x.1 == name) = some (name, r)) (hops : Tight ops) :
    parseLine (name ++ ' ' :: ops) = r ops := by
  obtain ⟨hne, hname⟩ := mnemonic_noBlank _ (List.mem_of_find?_eq_some hr)
  have htrim : trimBlanks (name ++ ' ' :: ops) = name ++ ' ' :: ops := by
    simpa using trimBlanks_tight (tight_append (tight_of_noBlank hne hname) [' '] hops)
  have htake : (name ++ ' ' :: ops).takeWhile (fun c => !isBlank c) = name := by
    rw [List.takeWhile_append_of_pos (by simpa using hname), List.takeWhile_cons_of_neg (by decide), List.append_nil]
  simp [parseLine, htrim, htake, hr, trimBlanks_tight hops]

/-! ### Operands separated by commas -/

/-- The fields are what the library splits a list into at the commas. -/
theorem commaFields_eq_splitOn (cs : List Char) : commaFields cs = cs.splitOn ',' := by
  induction cs with
  | nil => rfl
  | cons c cs ih =>
    obtain ⟨f, fs, hcs⟩ := List.exists_cons_of_ne_nil (List.splitOn_ne_nil ',' cs)
    simp [commaFields, ih, List.splitOn_cons_eq_if_modifyHead, hcs]

theorem commaFields_of_noComma {a : List Char} (ha : ',' ∉ a) : commaFields a = [a] := by
  rw [commaFields_eq_splitOn, List.splitOn_eq_singleton ha]

theorem commaFields_comma {a : List Char} (ha : ',' ∉ a) (rest : List Char) :
    commaFields (a ++ ',' :: rest) = a :: commaFields rest := by
  rw [commaFields_eq_splitOn, List.splitOn_append_cons_self_of_not_mem ha, commaFields_eq_splitOn]

/-- A blank before an operand is trimmed off with its field. -/
theorem trim_commaFields_space (cs : List Char) :
    (commaFields (' ' :: cs)).map trimBlanks = (commaFields cs).map trimBlanks := by
  obtain ⟨f, fs, hcs⟩ := List.exists_cons_of_ne_nil (List.splitOn_ne_nil ',' cs)
  simp [commaFields_eq_splitOn, List.splitOn_cons_eq_if_modifyHead, hcs]

/-- The operands of a list, a comma and a blank between them, are its fields without their blanks. -/
theorem trim_commaFields_intercalate {texts : List (List Char)} (hne : texts ≠ [])
    (h : ∀ a ∈ texts, Tight a ∧ ',' ∉ a) :
    (commaFields (List.intercalate ", ".toList texts)).map trimBlanks = texts := by
  induction texts with
  | nil => exact absurd rfl hne
  | cons a texts ih =>
    obtain ⟨⟨ha, hcomma⟩, hrest⟩ := List.forall_mem_cons.mp h
    cases texts with
    | nil => simp [commaFields_of_noComma hcomma, trimBlanks_tight ha]
    | cons b texts =>
      have hsplit : List.intercalate ", ".toList (a :: b :: texts) =
          a ++ ',' :: ' ' :: List.intercalate ", ".toList (b :: texts) := by simp
      rw [hsplit, commaFields_comma hcomma, List.map_cons, trimBlanks_tight ha, trim_commaFields_space,
        ih (by simp) hrest]

/-! ### Numbers -/

/-- The characters of a number: no blank and no comma is among them. -/
theorem separator_lt {c : Char} (h : 48 ≤ c.toNat) : isBlank c = false ∧ c ≠ ',' := by
  have hne {x : Char} (hx : x.toNat < 48) : c ≠ x := fun he => by rw [he] at h; omega
  exact ⟨by simp [isBlank, hne (x := ' ') (by decide), hne (x := '\t') (by decide)], hne (by decide)⟩

/-- The digits stand from 0 on in the order of characters, and the decimal ones end at 9. -/
theorem digitVal_some {base d : Nat} {c : Char} (h : digitVal base c = some d) :
    48 ≤ c.toNat ∧ (base = 10 → c.toNat ≤ 57) := by
  unfold digitVal at h
  grind

theorem digitsVal_some {base acc n : Nat} {cs : List Char} (h : digitsVal base acc cs = some n) :
    ∀ c ∈ cs, ∃ d, digitVal base c = some d := by
  induction cs generalizing acc with
  | nil => simp
  | cons c cs ih =>
    obtain ⟨d, hd, hcs⟩ := Option.bind_eq_some_iff.mp h
    exact List.forall_mem_cons.mpr ⟨⟨d, hd⟩, ih hcs⟩

/-- A numeral has a first digit, and digits only. -/
theorem numeralVal_some {base n : Nat} {cs : List Char} (h : numeralVal base cs = some n) :
    (∃ c rest d, cs = c :: rest ∧ digitVal base c = some d) ∧ ∀ c ∈ cs, 48 ≤ c.toNat := by
  unfold numeralVal at h
  split at h
  · cases h
  next hne =>
    have hdigits := digitsVal_some h
    obtain ⟨c, rest, rfl⟩ := List.exists_cons_of_ne_nil hne
    obtain ⟨d, hd⟩ := hdigits c (by simp)
    refine ⟨⟨c, rest, d, rfl, hd⟩, fun c hc => ?_⟩
    obtain ⟨d, hd⟩ := hdigits c hc
    exact (digitVal_some hd).1

/-- A number begins with a decimal digit, and holds neither blank nor comma (`separator_lt`). -/
theorem numberVal_some {a : List Char} {n : Nat} (h : numberVal a = some n) :
    (∃ c rest, a = c :: rest ∧ c.toNat ≤ 57) ∧ ∀ c ∈ a, 48 ≤ c.toNat := by
  have hafter {base : Nat} {letter : Char} {cs : List Char} (hl : 48 ≤ letter.toNat) (h : numeralVal base cs = some n) :
      (∃ c rest, '0' :: letter :: cs = c :: rest ∧ c.toNat ≤ 57) ∧ ∀ c ∈ '0' :: letter :: cs, 48 ≤ c.toNat :=
    ⟨⟨'0', _, rfl, by decide⟩, by simpa [hl] using (numeralVal_some h).2⟩
  unfold numberVal at h
  split at h
  next => exact hafter (by decide) h
  next => exact hafter (by decide) h
  next =>
    obtain ⟨⟨c, rest, d, rfl, hd⟩, hchars⟩ := numeralVal_some h
    exact ⟨⟨c, rest, rfl, (digitVal_some hd).2 rfl⟩, hchars⟩

/-- A number as an operand. -/
theorem numberVal_operand {a : List Char} {n : Nat} (h : numberVal a = some n) : Tight a ∧ ',' ∉ a := by
  obtain ⟨⟨c, rest, rfl, -⟩, hall⟩ := numberVal_some h
  exact ⟨tight_of_noBlank (by simp) fun x hx => (separator_lt (hall x hx)).1,
    fun hx => (separator_lt (hall _ hx)).2 rfl⟩

/-- A number is no register name, since each of those begins with a letter (10_state.md R31). -/
theorem regOfName_number {a : List Char} {n : Nat} (h : numberVal a = some n) : regOfName a = none := by
  obtain ⟨⟨c, rest, rfl, hc⟩, -⟩ := numberVal_some h
  have hletter : ∀ x ∈ regNames, ∀ c ∈ x.1.head?, 57 < c.toNat := by simp [regNames]
  have hnone : regNames.find? (fun x => x.1 == c :: rest) = none := List.find?_eq_none.mpr fun x hx he => by
    have hx57 := hletter x hx c (by simp [eq_of_beq he])
    omega
  rw [regOfName, hnone]
  rfl

theorem rdregLine_number {a : List Char} {n : Nat} (h : numberVal a = some n) : rdregLine a = some (.rdreg n) := by
  rw [rdregLine, regOfName_number h, h]
  rfl

theorem packLine_numbers {a b : List Char} {n v : Nat} (ha : numberVal a = some n) (hb : numberVal b = some v) :
    packLine (a ++ ", ".toList ++ b) = some (.pack n v) := by
  obtain ⟨hta, hca⟩ := numberVal_operand ha
  obtain ⟨htb, hcb⟩ := numberVal_operand hb
  have hfields : commaFields (a ++ ", ".toList ++ b) = [a, ' ' :: b] := by
    have hspace : ',' ∉ ' ' :: b := by simpa using hcb
    simpa [commaFields_of_noComma hspace] using commaFields_comma hca (' ' :: b)
  simp only [packLine, hfields, trimBlanks_space, trimBlanks_tight hta, trimBlanks_tight htb, ha, hb, Option.bind_some,
    Option.map_some]

/-! ### Lists in brackets and quotes -/

theorem between_enclosed (first last : Char) (inner : List Char) :
    between first last (first :: inner ++ [last]) = some inner := by simp [between]

theorem allSome_map_some {α : Type} (xs : List α) : allSome (xs.map some) = some xs := by
  induction xs with
  | nil => rfl
  | cons x xs ih => simp [allSome, ih]

/-- A byte list in brackets reads as the numbers of its items. -/
theorem byteListVal_items {texts : List (List Char)} {bytes : List Nat} (h : texts.map numberVal = bytes.map some) :
    byteListVal ('[' :: List.intercalate ", ".toList texts ++ [']']) = some bytes := by
  rw [byteListVal, between_enclosed, Option.bind_some]
  cases texts with
  | nil =>
    obtain rfl : bytes = [] := by simpa using h.symm
    rfl
  | cons a texts =>
    have hitems : ∀ x ∈ a :: texts, Tight x ∧ ',' ∉ x := fun x hx => by
      have hmem : numberVal x ∈ bytes.map some := h ▸ List.mem_map_of_mem hx
      obtain ⟨n, -, hn⟩ := List.mem_map.mp hmem
      exact numberVal_operand hn.symm
    obtain ⟨c, rest, rfl, hc⟩ := (hitems a (by simp)).1.first
    have hne : trimBlanks (List.intercalate ", ".toList ((c :: rest) :: texts)) ≠ [] := by
      rw [List.intercalate_cons_cons_left]
      exact trimBlanks_ne_nil _ hc
    rw [if_neg hne, ← allSome_map_some bytes, ← h]
    conv_rhs => rw [← trim_commaFields_intercalate (by simp) hitems, List.map_map]
    rfl

theorem quotedBits_bits (bits : Bits) :
    quotedBits ('"' :: bits.map (fun b => if b then '1' else '0') ++ ['"']) = some bits := by
  rw [quotedBits, between_enclosed, Option.bind_some, List.map_map, ← allSome_map_some bits]
  congr 2
  funext b
  cases b <;> rfl

/-! ### Lines -/

/-- Settles O59: the mnemonic picks its reader (`parseLine_operands`), which reads the operands back; names and lines
without operands evaluate. -/
theorem assemblyTextStandsForLines : Obligations.AssemblyTextStandsForLines := by
  refine ⟨fun a b n v ha hb => ?_, fun texts bytes h => ?_, fun bits => ?_, ?_, ?_⟩
  · have hta := (numberVal_operand ha).1
    have htb := (numberVal_operand hb).1
    have hpack := parseLine_operands (name := "PACK".toList) rfl (tight_append hta ", ".toList htb)
    have hunpack := parseLine_operands (name := "UNPACK".toList) rfl hta
    have hrdreg := parseLine_operands (name := "RDREG".toList) rfl hta
    rw [packLine_numbers ha hb] at hpack
    rw [ha] at hunpack
    rw [rdregLine_number ha] at hrdreg
    refine ⟨?_, ?_, ?_⟩
    · simpa using hpack
    · simpa using hunpack
    · simpa using hrdreg
  · have hops := tight_enclosed (first := '[') (last := ']') (by decide) (by decide)
      (List.intercalate ", ".toList texts)
    have huload := parseLine_operands (name := "ULOAD".toList) rfl hops
    have hdload := parseLine_operands (name := "DLOAD".toList) rfl hops
    have hdecode := parseLine_operands (name := "DECODE".toList) rfl hops
    rw [byteListVal_items h] at huload hdload hdecode
    exact ⟨huload, hdload, hdecode⟩
  · have hpacks := parseLine_operands (name := "PACKS".toList) rfl
      (tight_enclosed (first := '"') (last := '"') (by decide) (by decide) (bits.map fun b => if b then '1' else '0'))
    rw [quotedBits_bits] at hpacks
    exact hpacks
  · decide
  · decide

end Lines

end Sys2Proof.Machine
end

section
/-! Proofs of the statements about 41_packer.md. -/

namespace Sys2Proof.Machine

/-! ## Words with a bad field -/

section BadFields

variable {s : State} {c : Word} {op : Opcode}

/-- REG and RSV of a word that matches its row are zero, unless the row is RDREG's (30_encoding.md R93). -/
theorem extract16_of_matches (ho : opcodeOf (fieldOpc c) = some op) (hm : c &&& op.mask = op.pattern)
    (hop : op ≠ .rdreg) : c.extractLsb' 0 16 = 0#16 := by
  obtain ⟨hrsv, -, hreg⟩ := (matches_iff ho).mp hm
  calc c.extractLsb' 0 16 = fieldReg c ++ fieldRsv c := by
        rw [fieldReg, fieldRsv, BitVec.extractLsb'_append_extractLsb'_eq_extractLsb' (by omega)]
    _ = 0#16 := by rw [hrsv, hreg.resolve_left hop]; rfl

/-- W, REG and RSV of a word that matches the row of a command that uses no field are zero (30_encoding.md R93). -/
theorem extract24_of_matches (ho : opcodeOf (fieldOpc c) = some op) (hm : c &&& op.mask = op.pattern)
    (hop : op ∉ [.rdreg, .pack, .unpack]) : c.extractLsb' 0 24 = 0#24 := by
  simp only [List.mem_cons, List.not_mem_nil, or_false, not_or] at hop
  obtain ⟨hreg, hpack, hunpack⟩ := hop
  have hw : fieldW c = 0#8 := (((matches_iff ho).mp hm).2.1.resolve_left hpack).resolve_left hunpack
  calc c.extractLsb' 0 24 = fieldW c ++ c.extractLsb' 0 16 := by
        rw [fieldW, BitVec.extractLsb'_append_extractLsb'_eq_extractLsb' (by omega)]
    _ = 0#24 := by rw [hw, extract16_of_matches ho hm hreg]; rfl

/-- A word that does not match its row drops the operands of its opcode and fails with NONZERO_FIELD
(30_encoding.md R93, R96). -/
theorem runWord_of_not_matches (hp : OperandsPresented c s) (ho : opcodeOf (fieldOpc c) = some op)
    (hm : ¬ c &&& op.mask = op.pattern) : runWord c s = .next ((dropOperands c s).respond 0x0205#16 0#256) := by
  obtain ⟨hsuff, hs⟩ := (operandsPresented_iff ho).mp hp
  rw [runWord_of_not_surplus hs, decode_of_opcodeOf ho, if_neg hm]
  exact consumeOperands_of_suffice ho hsuff

end BadFields

/-! ## PACK and FLUSH -/

section PackerCommands

variable {s : State}

/-- What FLUSH writes, bit by bit: the string, and zeros behind it (41_packer.md R143). -/
theorem bitAt_bytesOf_padBits {bits : Bits} {a : Nat} (h : a < 8 * (bytesOf (padBits bits)).length) :
    bitAt (bytesOf (padBits bits)) a = bits.getD a false := by
  rw [eight_mul_length_bytesOf_padBits] at h
  rw [bitAt_bytesOf (dvd_length_padBits bits) (by simpa using h), padBits]
  by_cases ha : a < bits.length
  · exact List.getD_append _ _ _ _ ha
  · rw [List.getD_append_right _ _ _ _ (by omega), List.getD_replicate _ (by omega),
      List.getD_eq_default _ _ (by omega)]

/-- FLUSH completes where the port is drained or the buffer empty (41_packer.md R143; log 4). -/
theorem execFlush_ready (h : s.p.bits = [] ∨ s.io.pReady = true) :
    execFlush s = .next (((s.putP (bytesOf (padBits s.p.bits))).setPBits []).respond statusOk
      (BitVec.ofNat 256 (bytesOf (padBits s.p.bits)).length)) := by
  have hnone : s.p.bits = [] → bytesOf (padBits s.p.bits) = [] := fun hb => by rw [hb]; rfl
  rw [execFlush, emitP_ready (h.imp_left hnone)]
  rfl

/-- Settles O28: the two checks in their order, then the append (`execPack_fits`); a word that does not match its row
drops V. -/
theorem packAppendsBits : Obligations.PackAppendsBits := by
  refine fun w s v q _ hv => ⟨fun hwide => ?_, fun hw hfull => ?_, fun hw hroom => ?_, fun c hp hopc hbad => ?_⟩
  · rw [exec, execPack, takeV_cons hv, if_pos hwide]
    rfl
  · rw [exec, execPack, takeV_cons hv, if_neg (by omega), if_pos (by simpa using hfull)]
    rfl
  · exact ⟨bitsOf w v.toNat, length_bitsOf w _, fun i hi => getElem?_bitsOf _ hi, execPack_fits hv hw hroom⟩
  · have ho : opcodeOf (fieldOpc c) = some .pack := opcodeOf_eq.mpr hopc
    have hdrop : dropOperands c s = s.setV q := by simp [dropOperands, ho, hv]
    rw [← hdrop]
    exact runWord_of_not_matches hp ho fun hm => hbad (extract16_of_matches ho hm (by decide))

/-- Settles O29: the bytes are those of the padded string, whose bit at address a is the buffer's bit a or a pad. -/
theorem flushEmitsPaddedBytes : Obligations.FlushEmitsPaddedBytes := by
  refine fun s => ⟨fun h => ⟨bytesOf (padBits s.p.bits), eight_mul_length_bytesOf_padBits _, fun a ha => ?_,
    execFlush_ready h⟩, fun c hc hopc hbad => ?_⟩
  · rw [addressed_bit ha, bitAt_bytesOf_padBits ha]
  · have ho : opcodeOf (fieldOpc c) = some .flush := opcodeOf_eq.mpr hopc
    have hp : OperandsPresented c s := by rwa [OperandsPresented, ho]
    have hdrop : dropOperands c s = s := by rw [dropOperands, ho]
    have hrun := runWord_of_not_matches hp ho fun hm => hbad (extract24_of_matches ho hm (by decide))
    rwa [hdrop] at hrun

/-- Settles O30: FLUSH writes the packer and P_DOUT, PACK V and the packer, and each of them its response. -/
theorem packerCommandsFrame : Obligations.PackerCommandsFrame := by
  rintro i s t (rfl | ⟨w, rfl⟩) h
  · obtain rfl := execFlush_next h
    simp
  · obtain ⟨v, q, -, ⟨e, rfl⟩ | ⟨-, -, rfl⟩⟩ := execPack_next h <;> simp

end PackerCommands

/-! ## From the packer to the unpacker -/

section RoundTrip

variable {s s1 : State}

/-- The bits of values of given widths, one value after the other. -/
def packedBits (ws : List (Nat × Value)) : Bits := ws.flatMap fun x => bitsOf x.1 x.2.toNat

/-- Each width is one of a command word, and each value fits its width (41_packer.md R141). -/
def ValuesFit (ws : List (Nat × Value)) : Prop := ∀ x ∈ ws, x.1 ≤ 255 ∧ x.2.toNat < 2 ^ x.1

@[simp] theorem length_packedBits (ws : List (Nat × Value)) : (packedBits ws).length = (ws.map Prod.fst).sum := by
  simp [packedBits, List.length_flatMap]

theorem runAll_cons {x : Transaction} (h : runTransaction x s = .next s1) (xs : List Transaction) :
    runAll (x :: xs) s = runAll xs s1 := by
  rw [runAll, h]

theorem runAll_append {xs : List Transaction} (h : runAll xs s = .next s1) (ys : List Transaction) :
    runAll (xs ++ ys) s = runAll ys s1 := by
  induction xs generalizing s with
  | nil =>
    obtain rfl : s = s1 := by simpa [runAll] using h
    rfl
  | cons x xs ih =>
    cases hx : runTransaction x s with
    | next s2 =>
      rw [runAll_cons hx] at h
      rw [List.cons_append, runAll_cons hx, ih h]
    | fault f => simp [runAll, hx] at h
    | refused r => simp [runAll, hx] at h

/-- PACKs that all fit append the bits of their values, one after the other, and leave P_DOUT alone. -/
theorem runAll_packs {ws : List (Nat × Value)} (hws : ValuesFit ws) (hc : s.PortsClear)
    (hroom : s.p.bits.length + (packedBits ws).length ≤ s.cfg.pCapBits) :
    ∃ t, runAll (ws.map fun x => packTransaction x.1 x.2) s = .next t ∧ t.PortsClear ∧
      t.p.bits = s.p.bits ++ packedBits ws ∧ t.io.pDout = s.io.pDout ∧ t.io.pReady = s.io.pReady := by
  induction ws generalizing s with
  | nil => exact ⟨s, rfl, hc, by simp [packedBits], rfl, rfl⟩
  | cons x ws ih =>
    obtain ⟨⟨hw, hv⟩, hws⟩ := List.forall_mem_cons.mp hws
    simp only [length_packedBits, List.map_cons, List.sum_cons] at hroom
    have hx := (runTransaction_pack hc hw x.2).trans (execPack_fits rfl hv (by simp; omega))
    obtain ⟨-, hn, hu, hd⟩ := hc
    obtain ⟨t, ht, htc, hbits, hout, hready⟩ :=
      ih (s := ((s.setV []).setPBits (s.p.bits ++ bitsOf x.1 x.2.toNat)).respond statusOk 0#256) hws
        ⟨rfl, hn, hu, hd⟩ (by simp; omega)
    exact ⟨t, (runAll_cons hx _).trans ht, htc, by simpa [packedBits] using hbits, hout, hready⟩

/-- An UNPACK over bits that spell a value of its width returns the value (42_unpacker.md R172). -/
theorem execUnpack_value {w : Nat} {v : Value} (hl : s.u.pos + w ≤ 8 * s.u.buf.length) (hv : v.toNat < 2 ^ w)
    (hr : readBits s.u.buf s.u.pos w = bitsOf w v.toNat) :
    execUnpack w s = .next ((s.setUPos (s.u.pos + w)).respond statusOk v) := by
  rw [execUnpack, if_neg (by omega), hr, bitsVal_bitsOf hv, BitVec.ofNat_toNat, BitVec.setWidth_eq]
  rfl

/-- UNPACKs over bits that spell values of their widths return the values in order. -/
theorem runAll_unpacks {ws : List (Nat × Value)} (hws : ValuesFit ws) (hc : s.PortsClear)
    (hl : s.u.pos + (packedBits ws).length ≤ 8 * s.u.buf.length)
    (hr : readBits s.u.buf s.u.pos (packedBits ws).length = packedBits ws) :
    ∃ t, runAll (ws.map fun x => plainTransaction (.unpack x.1)) s = .next t ∧ t.PortsClear ∧
      t.u = { buf := s.u.buf, pos := s.u.pos + (packedBits ws).length } ∧
      t.io.resp = s.io.resp ++ ws.map fun x => ⟨statusOk, x.2⟩ := by
  induction ws generalizing s with
  | nil => exact ⟨s, rfl, hc, rfl, by simp⟩
  | cons x ws ih =>
    obtain ⟨⟨hw, hv⟩, hws⟩ := List.forall_mem_cons.mp hws
    have hlen : (packedBits (x :: ws)).length = x.1 + (packedBits ws).length := by simp
    rw [hlen] at hl
    rw [hlen, readBits_add] at hr
    obtain ⟨hfirst, hrest⟩ := List.append_inj (hr : _ = bitsOf x.1 x.2.toNat ++ packedBits ws) (by simp)
    have hx := (runTransaction_unpack hc hw).trans (execUnpack_value (by omega) hv hfirst)
    obtain ⟨t, ht, htc, htu, hresp⟩ := ih (s := (s.setUPos (s.u.pos + x.1)).respond statusOk x.2) hws hc
      (by simp only [State.respond_u, State.setUPos_u]; omega) hrest
    exact ⟨t, (runAll_cons hx _).trans ht, htc, by rw [htu, hlen]; simp [Nat.add_assoc], by simp [hresp]⟩

/-- A ULOAD within the capacity, its count within 32 bits: the bytes are the stream, read from its start
(42_unpacker.md R170). -/
theorem runTransaction_uload_fits (hc : s.PortsClear) {bytes : List Byte} (h32 : bytes.length < 2 ^ 32)
    (hcap : bytes.length ≤ s.cfg.uCapBytes) :
    ∃ t, runTransaction (uloadTransaction bytes) s = .next t ∧ t.PortsClear ∧ t.u = { buf := bytes, pos := 0 } ∧
      t.io.resp = s.io.resp ++ [⟨statusOk, 0#256⟩] := by
  have hn : (BitVec.ofNat 32 bytes.length).toNat = bytes.length := Nat.mod_eq_of_lt h32
  rw [runTransaction_uload hc h32, exec, execUload, takeN_cons rfl]
  simp only [hn]
  rw [takeUDin_of_le (by simp), if_neg (by simpa using hcap)]
  obtain ⟨hv, -, -, hd⟩ := hc
  exact ⟨_, rfl, ⟨hv, rfl, by simp, hd⟩, by simp, rfl⟩

/-- PACKs on an empty buffer and a FLUSH place on P_DOUT the bytes of the values' bits, padded. -/
theorem runAll_packs_flush {ws : List (Nat × Value)} (hws : ValuesFit ws) (hc : s.PortsClear) (hempty : s.p.bits = [])
    (hroom : (packedBits ws).length ≤ s.cfg.pCapBits) (hready : s.io.pReady = true) :
    ∃ t, runAll (ws.map (fun x => packTransaction x.1 x.2) ++ [plainTransaction .flush]) s = .next t ∧
      t.io.pDout = s.io.pDout ++ bytesOf (padBits (packedBits ws)) := by
  obtain ⟨t, ht, htc, hbits, hout, htr⟩ := runAll_packs hws hc (by simpa [hempty] using hroom)
  rw [hempty, List.nil_append] at hbits
  have hflush := (runTransaction_flush htc).trans (execFlush_ready (.inr (htr.trans hready)))
  exact ⟨_, (runAll_append ht _).trans (runAll_cons hflush []), by simp [hbits, hout]⟩

/-- A ULOAD of what was flushed, UNPACKs of the values' widths and an ISEMPTY return the values, and whether there is no
pad. -/
theorem runAll_uload_unpacks {ws : List (Nat × Value)} (hws : ValuesFit ws) (hc : s.PortsClear)
    (h32 : (bytesOf (padBits (packedBits ws))).length < 2 ^ 32)
    (hcap : (bytesOf (padBits (packedBits ws))).length ≤ s.cfg.uCapBytes) :
    ∃ t, runAll (uloadTransaction (bytesOf (padBits (packedBits ws))) ::
        ws.map (fun x => plainTransaction (.unpack x.1)) ++ [plainTransaction .isempty]) s = .next t ∧
      t.io.resp = s.io.resp ++ [⟨statusOk, 0#256⟩] ++ ws.map (fun x => ⟨statusOk, x.2⟩) ++
        [⟨statusOk, if padLen (packedBits ws).length = 0 then 1#256 else 0#256⟩] ∧
      8 * t.u.buf.length - t.u.pos = padLen (packedBits ws).length := by
  have hlen := eight_mul_length_bytesOf_padBits (packedBits ws)
  obtain ⟨s1, hload, hc1, hu1, hr1⟩ := runTransaction_uload_fits hc h32 hcap
  obtain ⟨s2, hunpack, hc2, hu2, hr2⟩ := runAll_unpacks hws hc1 (by rw [hu1]; simp only; omega)
    (by rw [hu1]; exact readBits_bytesOf_padBits_all _)
  rw [hu1, Nat.zero_add] at hu2
  have hempty : s2.u.pos = 8 * s2.u.buf.length ↔ padLen (packedBits ws).length = 0 := by
    rw [hu2, hlen, left_eq_add]
  refine ⟨_, (runAll_append ((runAll_cons hload _).trans hunpack) _).trans
    (runAll_cons (runTransaction_isempty hc2) []), ?_, ?_⟩
  · simp only [State.respond_resp, hr2, hr1, hempty]
  · rw [State.respond_u, hu2, hlen, Nat.add_sub_cancel_left]

/-- Settles O35: the bytes flushed are those of the values' bits (`runAll_packs_flush`), which the UNPACKs read back
value by value (`runAll_uload_unpacks`); P_CAP_BITS keeps their number within the count N. -/
theorem packFlushUnpackRoundTrip : Obligations.PackFlushUnpackRoundTrip := by
  intro ws s s' hws total pad hc hempty hroom hcfg hready
  obtain ⟨⟨-, hcap32⟩, -⟩ := hcfg
  have htotal : (packedBits ws).length = total := length_packedBits ws
  have hlen := eight_mul_length_bytesOf_padBits (packedBits ws)
  have hpad := padLen_lt (packedBits ws).length
  obtain ⟨t, ht, hout⟩ := runAll_packs_flush hws hc hempty (htotal ▸ hroom) hready
  rw [htotal] at hlen hpad
  refine ⟨t, _, ht, hout, hlen, fun hc' hcap => ?_⟩
  have hback := runAll_uload_unpacks hws hc' (by omega) hcap
  rwa [htotal] at hback

end RoundTrip

end Sys2Proof.Machine
end

section
/-! Proofs of the statements about 42_unpacker.md. -/

namespace Sys2Proof.Machine

section UnpackerCommands

variable {s : State} {c : Word} {op : Opcode}

/-- A word that does not match the row of a command without operands fails with NONZERO_FIELD on clear ports, and changes
nothing but STATUS and the response (30_encoding.md R93). -/
theorem runWord_plain_of_not_matches (hc : s.PortsClear) (ho : opcodeOf (fieldOpc c) = some op)
    (hm : ¬ c &&& op.mask = op.pattern) (hop : op ∉ [.pack, .uload, .dload]) :
    runWord c s = .next (s.respond 0x0205#16 0#256) := by
  obtain ⟨hp, hdrop⟩ : OperandsPresented c s ∧ dropOperands c s = s := by
    rw [OperandsPresented, dropOperands, ho]
    cases op with
    | pack | uload | dload => simp at hop
    | _ => exact ⟨hc, rfl⟩
  have hrun := runWord_of_not_matches hp ho hm
  rwa [hdrop] at hrun

/-- Settles O31: N and its bytes leave their ports, then the check of the capacity; a word that does not match its row
drops the same operands. -/
theorem uloadReplacesStream : Obligations.UloadReplacesStream := by
  intro s n q hn hl s1
  have hexec : exec .uload s = if s.cfg.uCapBytes < n.toNat then raise .uloadTooBig s1
      else succeed 0#256 (s1.setU { buf := s.io.uDin.take n.toNat, pos := 0 }) := by
    rw [exec, execUload, takeN_cons hn]
    exact takeUDin_of_le hl
  refine ⟨fun hbig => ?_, fun hfits => ?_, fun c hp hopc hbad => ?_⟩
  · rw [hexec, if_pos hbig]
    rfl
  · rw [hexec, if_neg (Nat.not_lt.mpr hfits)]
    rfl
  · have ho : opcodeOf (fieldOpc c) = some .uload := opcodeOf_eq.mpr hopc
    have hdrop : dropOperands c s = s1 := by
      simp only [dropOperands, ho, hn]
      rfl
    rw [← hdrop]
    exact runWord_of_not_matches hp ho fun hm => hbad (extract24_of_matches ho hm (by decide))

/-- A read of at most 256 bits stands right-aligned in a value, the first bit read highest (42_unpacker.md R172). -/
theorem getLsbD_readBits (buf : List Byte) (pos : Nat) {w i : Nat} (hw : w ≤ 256) (hi : i < w) :
    (BitVec.ofNat 256 (bitsVal (readBits buf pos w))).getLsbD (w - 1 - i) = bitAt buf (pos + i) := by
  have hbit := testBit_bitsVal (s := readBits buf pos w) (i := i) (by simpa using hi)
  rw [length_readBits, List.getD_eq_getElem?_getD, getElem?_readBits buf pos hi, Option.getD_some] at hbit
  rw [BitVec.getLsbD_ofNat, hbit, decide_eq_true (by omega), Bool.true_and]

/-- Above its width a read is zero (42_unpacker.md R172). -/
theorem getLsbD_readBits_of_ge (buf : List Byte) (pos : Nat) {w i : Nat} (hi : w ≤ i) :
    (BitVec.ofNat 256 (bitsVal (readBits buf pos w))).getLsbD i = false := by
  have hlt := (bitsVal_readBits_lt buf pos w).trans_le (Nat.pow_le_pow_right two_pos hi)
  rw [BitVec.getLsbD_ofNat, Nat.testBit_lt_two_pow hlt, Bool.and_false]

/-- Settles O32: the result is the value of the bits read, whose bits are those addressed from U_POS on. -/
theorem unpackReadsNextBits : Obligations.UnpackReadsNextBits := by
  refine fun w s hw _ => ⟨fun hshort => ?_, fun hroom => ?_, fun c hc hopc hbad => ?_⟩
  · rw [exec, execUnpack, if_pos (by omega)]
    rfl
  · refine ⟨BitVec.ofNat 256 (bitsVal (readBits s.u.buf s.u.pos w)), fun i hi => ?_,
      fun i hi => getLsbD_readBits_of_ge _ _ hi, ?_⟩
    · rw [getLsbD_readBits _ _ (by omega) hi]
      exact addressed_bit (by omega)
    · rw [exec, execUnpack, if_neg (by omega)]
      rfl
  · have ho : opcodeOf (fieldOpc c) = some .unpack := opcodeOf_eq.mpr hopc
    exact runWord_plain_of_not_matches hc ho (fun hm => hbad (extract16_of_matches ho hm (by decide))) (by decide)

/-- Settles O33: the two answers of the comparison of the cursor with the stream's length. -/
theorem isemptyReportsUnreadBits : Obligations.IsemptyReportsUnreadBits := by
  refine fun s => ⟨fun hend => ?_, fun hmore => ?_, fun c hc hopc hbad => ?_⟩
  · rw [exec, execIsempty, if_pos hend]
    rfl
  · rw [exec, execIsempty, if_neg hmore]
    rfl
  · have ho : opcodeOf (fieldOpc c) = some .isempty := opcodeOf_eq.mpr hopc
    exact runWord_plain_of_not_matches hc ho (fun hm => hbad (extract24_of_matches ho hm (by decide))) (by decide)

end UnpackerCommands

end Sys2Proof.Machine
end

section
/-! Proofs of the statements about 43_decoder.md. -/

namespace Sys2Proof.Machine

/-! ## DLOAD -/

section Commands

variable {s : State} {policy : DupCodePolicy} {d d1 : Decoder} {e : Err}

/-- DLOAD takes N and its bytes off their ports, then checks the capacity (43_decoder.md R201). -/
theorem execDload_of_operands {n : Word} {q : List Word} (hn : s.io.n = n :: q) (hl : n.toNat ≤ s.io.dDin.length) :
    exec .dload s = if s.cfg.dCapBytes < n.toNat then
        raise .dloadTooBig ((s.setN q).setDDin (s.io.dDin.drop n.toNat))
      else succeed 0#256 (((s.setN q).setDDin (s.io.dDin.drop n.toNat)).setD
        (freshDecoder (s.io.dDin.take n.toNat))) := by
  rw [exec, execDload, takeN_cons hn]
  exact takeDDin_of_le hl

/-- Settles O36: N and its bytes leave their ports, then the check of the capacity; a word that does not match its row
drops the same operands. -/
theorem dloadStartsFreshDecode : Obligations.DloadStartsFreshDecode := by
  intro s n q hn hl s1
  refine ⟨fun hbig => ?_, fun hfits => ?_, fun c hp hopc hbad => ?_⟩
  · rw [execDload_of_operands hn hl, if_pos hbig]
    rfl
  · rw [execDload_of_operands hn hl, if_neg (Nat.not_lt.mpr hfits)]
    rfl
  · have ho : opcodeOf (fieldOpc c) = some .dload := opcodeOf_eq.mpr hopc
    have hdrop : dropOperands c s = s1 := by
      simp only [dropOperands, ho, hn]
      rfl
    rw [← hdrop]
    exact runWord_of_not_matches hp ho fun hm => hbad (extract24_of_matches ho hm (by decide))

/-! ## DSTEP -/

/-- A field that was read is the number it spells, on as many bits. -/
theorem toNat_readBits (buf : List Byte) (pos w : Nat) :
    (BitVec.ofNat w (bitsVal (readBits buf pos w))).toNat = bitsVal (readBits buf pos w) :=
  Nat.mod_eq_of_lt (bitsVal_readBits_lt buf pos w)

/-- At rest DSTEP and DRUN fail with BAD_STATE (43_decoder.md R202, R209). -/
theorem exec_atRest {i : Instr} (hi : i = .dstep ∨ i = .drun) (h : phaseAtRest s.d.state = true) :
    exec i s = .next (s.respond (statusOf .badState) 0#256) := by
  rcases hi with rfl | rfl
  · rw [exec, execDstep, if_pos h]
    rfl
  · rw [exec, execDrun, if_pos h]
    rfl

theorem phaseAtRest_iff {x : Phase} : phaseAtRest x = true ↔ x = .idle ∨ x = .done ∨ x = .error := by
  cases x <;> simp [phaseAtRest]

/-- Settles O37: the check of the phase comes before the step, and the check of the word before both. -/
theorem restPhasesRefuseToStep : Obligations.RestPhasesRefuseToStep := by
  refine fun s i hi => ⟨fun hrest => exec_atRest hi (phaseAtRest_iff.mpr hrest), fun c hc hopc hbad => ?_⟩
  rcases hopc with hopc | hopc
  · have ho : opcodeOf (fieldOpc c) = some .dstep := opcodeOf_eq.mpr hopc
    exact runWord_plain_of_not_matches hc ho (fun hm => hbad (extract24_of_matches ho hm (by decide))) (by decide)
  · have ho : opcodeOf (fieldOpc c) = some .drun := opcodeOf_eq.mpr hopc
    exact runWord_plain_of_not_matches hc ho (fun hm => hbad (extract24_of_matches ho hm (by decide))) (by decide)

/-- What a DSTEP does in a running phase, by what its step does; D_DOUT must be drained for a symbol. -/
theorem exec_dstep {o : StepOut} (hr : phaseAtRest s.d.state = false)
    (h : decoderStep s.cfg.dupCodePolicy s.d = o) (hready : o.emitted = [] ∨ s.io.dReady = true) :
    exec .dstep s = .next (((s.setD o.d).putD o.emitted).respond (stepStatus o) (stepResult o 0#256)) := by
  subst h
  exact execDstep_ready hr hready

/-- A DSTEP whose step fails enters ERROR and gives the error's status (43_decoder.md R200). -/
theorem exec_dstep_fail (hr : phaseAtRest s.d.state = false) (h : decoderStep s.cfg.dupCodePolicy s.d = dFail e d1) :
    exec .dstep s = .next ((s.setD { d1 with state := .error, errk := errKind e, errs := errSub e }).respond
      (statusOf e) 0#256) := by
  have hx := exec_dstep hr h (.inl rfl)
  rwa [dFail_emitted, State.putD_nil] at hx

/-- A DSTEP whose step goes on completes with OK. -/
theorem exec_dstep_goOn (hr : phaseAtRest s.d.state = false) (h : decoderStep s.cfg.dupCodePolicy s.d = dGoOn d1) :
    exec .dstep s = .next ((s.setD d1).respond statusOk 0#256) := by
  have hx := exec_dstep hr h (.inl rfl)
  rwa [dGoOn_emitted, State.putD_nil] at hx

/-- Settles O38: the two outcomes of the step. -/
theorem dstepReadsSymbolCount : Obligations.DstepReadsSymbolCount := by
  intro s hs
  have hr : phaseAtRest s.d.state = false := by rw [hs]; rfl
  have hstep : decoderStep s.cfg.dupCodePolicy s.d = stepHdrCount s.d := by rw [decoderStep, hs]
  obtain ⟨hl, h⟩ | ⟨hl, hv, h⟩ := stepHdrCount_cases s.d <;> unfold bitsLeft at hl
  · exact ⟨fun _ => exec_dstep_fail hr (hstep.trans h), fun _ => by omega⟩
  · exact ⟨fun _ => by omega, fun _ => ⟨_, rfl, by omega, exec_dstep_goOn hr (hstep.trans h)⟩⟩

/-- Settles O39: the two outcomes of the step. -/
theorem dstepReadsSymbol : Obligations.DstepReadsSymbol := by
  intro s hs
  have hr : phaseAtRest s.d.state = false := by rw [hs]; rfl
  have hstep : decoderStep s.cfg.dupCodePolicy s.d = stepHdrSym s.d := by rw [decoderStep, hs]
  obtain ⟨hl, h⟩ | ⟨hl, h⟩ := stepHdrSym_cases s.d <;> unfold bitsLeft at hl
  · exact ⟨fun _ => exec_dstep_fail hr (hstep.trans h), fun _ => by omega⟩
  · exact ⟨fun _ => by omega, fun _ => ⟨_, toNat_readBits _ _ _,
      exec_dstep_goOn hr (hstep.trans h)⟩⟩

/-- Settles O40: the three outcomes of the step. -/
theorem dstepReadsCodeLength : Obligations.DstepReadsCodeLength := by
  intro s hs
  have hr : phaseAtRest s.d.state = false := by rw [hs]; rfl
  have hstep : decoderStep s.cfg.dupCodePolicy s.d = stepHdrLen s.d := by rw [decoderStep, hs]
  obtain ⟨hl, h⟩ | ⟨hl, h0, h⟩ | ⟨hl, h0, hv, h⟩ := stepHdrLen_cases s.d <;> unfold bitsLeft at hl
  · exact ⟨fun _ => exec_dstep_fail hr (hstep.trans h), fun _ => by omega, fun _ => by omega⟩
  · exact ⟨fun _ => by omega, fun _ _ => exec_dstep_fail hr (hstep.trans h), fun _ hn => absurd h0 hn⟩
  · exact ⟨fun _ => by omega, fun _ hn => absurd hn h0, fun _ _ => ⟨_, toNat_readBits _ _ _,
      exec_dstep_goOn hr (hstep.trans h)⟩⟩

/-- Settles O41: the three outcomes of the step; the field read is not empty, so both bounds speak of D_POS. -/
theorem dstepReadsCodeValue : Obligations.DstepReadsCodeValue := by
  intro s hs hne len v dup
  have hpos : 0 < len := Nat.pos_of_ne_zero fun hn => hne (BitVec.eq_of_toNat_eq hn)
  have hr : phaseAtRest s.d.state = false := by rw [hs]; rfl
  have hstep : decoderStep s.cfg.dupCodePolicy s.d = stepHdrCode s.cfg.dupCodePolicy s.d := by rw [decoderStep, hs]
  obtain ⟨hl, h⟩ | ⟨hl, hd, h⟩ | ⟨hl, hd, h⟩ := stepHdrCode_cases s.cfg.dupCodePolicy s.d <;>
    unfold bitsLeft at hl
  · exact ⟨fun _ => exec_dstep_fail hr (hstep.trans h), fun _ => by omega, fun _ => by omega⟩
  · exact ⟨fun _ => by omega, fun _ _ => exec_dstep_fail hr (hstep.trans h), fun _ hn => absurd hd hn⟩
  · exact ⟨fun _ => by omega, fun _ hn => absurd hn hd, fun _ _ => exec_dstep_goOn hr (hstep.trans h)⟩

/-- Settles O42: the two outcomes of the step; 32 bits hold the number read. -/
theorem dstepReadsTotalSymbols : Obligations.DstepReadsTotalSymbols := by
  intro s hs
  have hr : phaseAtRest s.d.state = false := by rw [hs]; rfl
  have hstep : decoderStep s.cfg.dupCodePolicy s.d = stepTotal s.d := by rw [decoderStep, hs]
  obtain ⟨hl, h⟩ | ⟨hl, hv, h⟩ := stepTotal_cases s.d <;> unfold bitsLeft at hl
  · exact ⟨fun _ => exec_dstep_fail hr (hstep.trans h), fun _ => by omega⟩
  · refine ⟨fun _ => by omega, fun _ => ⟨_, toNat_readBits _ _ _, ?_⟩⟩
    have hzero : BitVec.ofNat 32 (bitsVal (readBits s.d.buf s.d.pos 32)) = 0#32 ↔
        bitsVal (readBits s.d.buf s.d.pos 32) = 0 := by
      rw [BitVec.toNat_eq, toNat_readBits]
      rfl
    simp only [hzero]
    exact exec_dstep_goOn hr (hstep.trans h)

/-- Settles O43: the four outcomes of the step; below D_TOTAL the count of symbols does not wrap. -/
theorem dstepReadsPayloadBit : Obligations.DstepReadsPayloadBit := by
  intro s hs hlt scr found
  have hr : phaseAtRest s.d.state = false := by rw [hs]; rfl
  have hstep : decoderStep s.cfg.dupCodePolicy s.d = stepPayload s.cfg.dupCodePolicy s.d := by rw [decoderStep, hs]
  obtain ⟨hl, h⟩ | ⟨hl, x, hx, h⟩ | ⟨hl, hx, h255, h⟩ | ⟨hl, hx, h255, h⟩ :=
    stepPayload_cases s.cfg.dupCodePolicy s.d <;> unfold bitsLeft at hl
  · exact ⟨fun _ => exec_dstep_fail hr (hstep.trans h), fun _ => by omega, fun _ => by omega, fun _ _ => by omega⟩
  · have hne {p : Prop} (hn : found = none) : p := by cases hx.symm.trans hn
    refine ⟨fun _ => by omega, fun _ => hne, fun _ => hne, fun y _ hy hready => ⟨s.d.emit + 1#32, by bv_omega, ?_⟩⟩
    obtain rfl : x = y := Option.some.inj (hx.symm.trans hy)
    rw [hs] at h
    have hlast : s.d.emit.toNat + 1 = s.d.total.toNat ↔ s.d.emit + 1#32 = s.d.total := by bv_omega
    simp only [hlast]
    exact exec_dstep hr (hstep.trans h) (.inr hready)
  · exact ⟨fun _ => by omega, fun _ _ hn => by omega, fun _ _ _ => exec_dstep_fail hr (hstep.trans h),
      fun y _ hy => by cases hx.symm.trans hy⟩
  · exact ⟨fun _ => by omega, fun _ _ _ => exec_dstep_goOn hr (hstep.trans h), fun _ _ hn => by omega,
      fun y _ hy => by cases hx.symm.trans hy⟩

end Commands

/-! ## The lookup -/

section Lookup

variable {policy : DupCodePolicy} {table : List Entry} {s : Bits} {e : Entry} {x : Byte}

/-- The entry's code is the string, as R212 compares them (43_decoder.md R212). -/
theorem entryMatches_iff : entryMatches s e = true ↔ e.len = s.length ∧ e.val = bitsVal s := by
  simp [entryMatches]

theorem entryCode_eq_iff (he : EntryInRange e) : entryCode e = s ↔ entryMatches s e = true := by
  rw [entryMatches_iff]
  constructor
  · rintro rfl
    exact ⟨(length_bitsOf _ _).symm, (bitsVal_bitsOf he.2).symm⟩
  · rintro ⟨hl, hv⟩
    rw [entryCode, hl, hv, bitsOf_bitsVal]

/-- Under `lastWins` the lookup is the first match of the reversed table, else of the table. -/
theorem lookup_eq_find? : lookup policy table s =
    ((if policy = .lastWins then table.reverse else table).find? (entryMatches s)).map Entry.sym := by
  rw [← List.head?_filter]
  cases policy with
  | lastWins => rw [if_pos rfl, List.filter_reverse, List.head?_reverse]; rfl
  | fault => rfl
  | firstWins => rfl

theorem lookup_eq_none : lookup policy table s = none ↔ ∀ e ∈ table, entryMatches s e = false := by
  rw [lookup_eq_find?]
  split <;> simp

/-- What is found is the symbol of an entry whose code is the string. -/
theorem exists_of_lookup (h : lookup policy table s = some x) : ∃ e ∈ table, entryMatches s e = true ∧ e.sym = x := by
  rw [lookup_eq_find?] at h
  obtain ⟨e, he, rfl⟩ := Option.map_eq_some_iff.mp h
  refine ⟨e, ?_, List.find?_some he, rfl⟩
  have hmem := List.mem_of_find?_eq_some he
  split at hmem <;> simpa using hmem

/-- A further entry changes the lookup of its own code, as DUP_CODE_POLICY says, and of nothing else. -/
theorem lookup_concat : lookup policy (table ++ [e]) s =
    if entryMatches s e then triePlace policy (lookup policy table s) e.sym else lookup policy table s := by
  by_cases h : entryMatches s e = true
  · cases policy <;> simp [lookup, List.filter_append, h, triePlace, List.head?_append, Option.or_some]
  · cases policy <;> simp [lookup, List.filter_append, h]

/-- A first match splits the list in front of it (43_decoder.md R212). -/
theorem find?_matches_iff : (table.find? (entryMatches s)).map Entry.sym = some x ↔
    ∃ before e after, table = before ++ e :: after ∧ (e.len = s.length ∧ e.val = bitsVal s) ∧ e.sym = x ∧
      ∀ e' ∈ before, ¬ (e'.len = s.length ∧ e'.val = bitsVal s) := by
  simp only [Option.map_eq_some_iff, List.find?_eq_some_iff_append, ← entryMatches_iff, Bool.not_eq_true']
  constructor
  · rintro ⟨e, ⟨he, before, after, rfl, hbefore⟩, rfl⟩
    exact ⟨before, e, after, rfl, he, rfl, by simpa using hbefore⟩
  · rintro ⟨before, e, after, rfl, he, rfl, hbefore⟩
    exact ⟨e, ⟨he, before, after, rfl, by simpa using hbefore⟩, rfl⟩

/-- Where no two entries have the same code, at most one matches. -/
theorem length_matches_le_one (h : table.Pairwise fun a b => ¬ (a.len = b.len ∧ a.val = b.val)) (s : Bits) :
    (table.filter (entryMatches s)).length ≤ 1 := by
  have hp := h.filter (entryMatches s)
  have hm : ∀ e ∈ table.filter (entryMatches s), e.len = s.length ∧ e.val = bitsVal s := fun e he =>
    entryMatches_iff.mp (List.mem_filter.mp he).2
  match hl : table.filter (entryMatches s) with
  | [] | [_] => simp
  | a :: b :: rest =>
    rw [hl] at hp hm
    obtain ⟨hal, hav⟩ := hm a (by simp)
    obtain ⟨hbl, hbv⟩ := hm b (by simp)
    exact absurd ⟨hal.trans hbl.symm, hav.trans hbv.symm⟩ (List.rel_of_pairwise_cons hp (by simp))

/-- Settles O50: the lookup is the first match of the table, or of the reversed table. -/
theorem lookupFindsCode : Obligations.LookupFindsCode := by
  refine ⟨fun policy table s => ⟨?_, fun hp x => ?_, fun x => ?_⟩, fun c d s hd hf =>
    length_matches_le_one (hd.codesDistinct hf) s⟩
  · simp only [lookup_eq_none, ← entryMatches_iff, Bool.not_eq_true]
  · rw [lookup_eq_find?, if_neg hp, find?_matches_iff]
  · rw [lookup_eq_find?, if_pos rfl, find?_matches_iff]
    constructor
    · rintro ⟨before, e, after, ht, he, hx, hbefore⟩
      exact ⟨after.reverse, e, before.reverse, by simpa using congrArg List.reverse ht, he, hx, by simpa using hbefore⟩
    · rintro ⟨before, e, after, rfl, he, hx, hafter⟩
      exact ⟨after.reverse, e, before.reverse, by simp, he, hx, by simpa using hafter⟩

/-- A code that the string begins with is found at its own length. -/
theorem not_noCodeBegins (ha : e ∈ table) (hr : EntryInRange e) (hp : entryCode e <+: s) :
    ¬ NoCodeBegins policy table s := by
  intro h
  obtain ⟨⟨hpos, -⟩, -⟩ := id hr
  have hlen : (entryCode e).length = e.len := length_bitsOf _ _
  have hnone := lookup_eq_none.mp (h e.len hpos (hlen ▸ hp.length_le)) e ha
  rw [← hlen, ← List.prefix_iff_eq_take.mp hp, (entryCode_eq_iff hr).mp rfl] at hnone
  cases hnone

theorem noCodeBegins_nil : NoCodeBegins policy table [] := by
  intro k h1 hk
  simp at hk
  omega

/-- One more bit, when the longer string is no code either. -/
theorem NoCodeBegins.concat {b : Bool} (h : NoCodeBegins policy table s) (hb : lookup policy table (s ++ [b]) = none) :
    NoCodeBegins policy table (s ++ [b]) := by
  intro k h1 hk
  rw [List.length_append, List.length_singleton] at hk
  rcases Nat.lt_or_ge s.length k with hlt | hle
  · rwa [List.take_of_length_le (by simp; omega)]
  · rw [List.take_append_of_le_length hle]
    exact h k h1 hle

/-- Settles O51: D_SCR is empty after TOTAL and after a match, and otherwise has grown by a bit without a match; a shorter
code that the longer one begins with stands inside D_SCR, where it would have matched. -/
theorem shorterCodeMatchesFirst : Obligations.ShorterCodeMatchesFirst := by
  refine fun policy d => ⟨fun hs he => ?_, fun hs h => ?_, fun h a b bit ha hr hp hl heq => ?_⟩
  · simp only [decoderStep, hs] at he ⊢
    obtain ⟨-, ho⟩ | ⟨-, -, ho⟩ := stepTotal_cases d
    · simp [ho] at he
    · rw [ho]
      exact noCodeBegins_nil
  · simp only [decoderStep, hs]
    obtain ⟨-, ho⟩ | ⟨-, x, -, ho⟩ | ⟨-, hx, -, ho⟩ | ⟨-, hx, -, ho⟩ := stepPayload_cases policy d <;> rw [ho]
    · exact h
    · exact noCodeBegins_nil
    · exact h.concat hx
    · exact h.concat hx
  · have hlen : d.scr.length + 1 = b.len := by simpa [entryCode] using congrArg List.length heq
    have hin : entryCode a <+: d.scr :=
      List.prefix_of_prefix_length_le (heq ▸ hp) (List.prefix_append _ _) (by simp [entryCode]; omega)
    exact not_noCodeBegins ha hr hin h

end Lookup

/-! ## The code trie -/

section CodeTrie

variable {policy : DupCodePolicy} {table : List Entry}

@[simp] theorem trieWalk_nil (t : Trie) : trieWalk [] t = t := rfl

@[simp] theorem trieWalk_cons (b : Bool) (s : Bits) (t : Trie) : trieWalk (b :: s) t = trieWalk s (trieChild b t) := rfl

theorem trieWalk_concat (s : Bits) (b : Bool) (t : Trie) : trieWalk (s ++ [b]) t = trieChild b (trieWalk s t) := by
  simp [trieWalk]

@[simp] theorem trieWalk_dead (s : Bits) : trieWalk s .dead = .dead := by
  induction s with
  | nil => rfl
  | cons b s ih => exact ih

/-- Adding a code that begins with b changes the subtree along b only. -/
theorem trieChild_insert_cons (x : Byte) (b b' : Bool) (c : Bits) (t : Trie) :
    trieChild b' (trieInsert policy x (b :: c) t) =
      if b = b' then trieInsert policy x c (trieChild b t) else trieChild b' t := by
  cases b <;> cases b' <;> rfl

@[simp] theorem trieSym_insert_cons (x : Byte) (b : Bool) (c : Bits) (t : Trie) :
    trieSym (trieInsert policy x (b :: c) t) = trieSym t := by
  cases b <;> rfl

@[simp] theorem trieChild_insert_nil (x : Byte) (b : Bool) (t : Trie) :
    trieChild b (trieInsert policy x [] t) = trieChild b t := by
  cases b <;> rfl

/-- Adding a code changes the symbol at the code's own node, as DUP_CODE_POLICY says, and at no other. -/
theorem trieSym_walk_insert (x : Byte) (c s : Bits) (t : Trie) : trieSym (trieWalk s (trieInsert policy x c t)) =
    if c = s then triePlace policy (trieSym (trieWalk s t)) x else trieSym (trieWalk s t) := by
  induction c generalizing s t with
  | nil =>
    cases s with
    | nil => rfl
    | cons b s => simp
  | cons b c ih =>
    cases s with
    | nil => simp
    | cons b' s =>
      by_cases hb : b = b'
      · subst hb
        simp [trieChild_insert_cons, ih]
      · simp [trieChild_insert_cons, hb]

/-- Settles O52: by induction over the entries, the last one first; a further entry changes the trie and the lookup
alike. -/
theorem trieWalkAgreesWithLookup : Obligations.TrieWalkAgreesWithLookup := by
  intro policy table s hr
  induction table using List.reverseRecOn with
  | nil => cases policy <;> simp [trieOfTable, trieSym, lookup]
  | append_singleton table e ih =>
    obtain ⟨hr, he⟩ := List.forall_mem_append.mp hr
    have hinsert : trieOfTable policy (table ++ [e]) = trieInsert policy e.sym (entryCode e) (trieOfTable policy table) := by
      simp [trieOfTable]
    rw [hinsert, trieSym_walk_insert, lookup_concat, ih hr]
    simp only [entryCode_eq_iff (he e (by simp))]

/-- The bit that a PAYLOAD step reads chooses the edge (43_decoder.md R214). -/
theorem readBits_one_eq (buf : List Byte) (pos : Nat) : (bitsVal (readBits buf pos 1) == 1) = bitAt buf pos := by
  cases h : bitAt buf pos <;> simp [readBits, bitsVal, h]

/-- Settles O53: the child along the bit read is the node of the string looked up, and carries what the lookup answers
(`trieWalkAgreesWithLookup`); so both steps have the same outcome of the four. -/
theorem trieStepConforms : Obligations.TrieStepConforms := by
  intro policy d cur hs hr root hnode hdepth r o
  have hchild : trieChild (bitAt d.buf d.pos) cur.node = trieWalk (d.scr ++ [bitAt d.buf d.pos]) root := by
    rw [trieWalk_concat, hnode]
  have hsym : trieSym (trieChild (bitAt d.buf d.pos) cur.node) =
      lookup policy d.table (d.scr ++ [bitAt d.buf d.pos]) :=
    hchild ▸ trieWalkAgreesWithLookup policy d.table _ hr
  have htrie : r = trieStep root cur d := rfl
  have ho : o = stepPayload policy d := by simp only [o, decoderStep, hs]
  obtain ⟨hl, h⟩ | ⟨hl, x, hx, h⟩ | ⟨hl, hx, hlen, h⟩ | ⟨hl, hx, hlen, h⟩ := stepPayload_cases policy d
  · rw [trieStep, dRead_none.mpr hl] at htrie
    rw [ho, h, htrie]
    exact ⟨hnode, hdepth, rfl, rfl, rfl⟩
  · simp only [trieStep, dRead_of_le hl, readBits_one_eq, hsym, hx] at htrie
    rw [ho, h, htrie]
    exact ⟨rfl, rfl, rfl, rfl, rfl⟩
  · simp only [trieStep, dRead_of_le hl, readBits_one_eq, hsym, hx] at htrie
    rw [if_pos (show Config.maxCodeLen < cur.depth + 1 by unfold Config.maxCodeLen; omega)] at htrie
    rw [ho, h, htrie]
    exact ⟨hchild, by simp [dFail, hdepth], rfl, rfl, rfl⟩
  · simp only [trieStep, dRead_of_le hl, readBits_one_eq, hsym, hx] at htrie
    rw [if_neg (show ¬ Config.maxCodeLen < cur.depth + 1 by unfold Config.maxCodeLen; omega)] at htrie
    rw [ho, h, htrie]
    exact ⟨hchild, by simp [hdepth], rfl, rfl, rfl⟩

end CodeTrie

section Runs

variable {policy : DupCodePolicy} {d : Decoder} {s s1 t u : State}

/-! ## The bound of a run -/

/-- A step that fails enters ERROR (43_decoder.md R200). -/
theorem decoderStep_err_state {e : Err} (he : (decoderStep policy d).err = some e) :
    (decoderStep policy d).d.state = .error := by
  by_cases hd : phaseAtRest d.state = true
  · simp [decoderStep_atRest policy hd] at he
  · obtain ⟨e, d1, h, -⟩ | ⟨d1, w, -, hn, -⟩ := decoderStep_cases policy d (by simpa using hd)
    · rw [h]
      rfl
    · rw [hn] at he
      cases he

/-- A run of at most k + 1 steps is a step and a run of at most k, since the step that fails leaves ERROR. -/
theorem decoderRun_step (k : Nat) (h : phaseAtRest d.state = false) : decoderRun policy (k + 1) d =
    { d := (decoderRun policy k (decoderStep policy d).d).d
      emitted := (decoderStep policy d).emitted ++ (decoderRun policy k (decoderStep policy d).d).emitted
      err := (decoderStep policy d).err.or (decoderRun policy k (decoderStep policy d).d).err } := by
  cases he : (decoderStep policy d).err with
  | none => exact decoderRun_succ policy k h he
  | some e =>
    rw [decoderRun_succ_err policy k h he, decoderRun_atRest policy k (by rw [decoderStep_err_state he]; rfl)]
    simp [← he]

/-- A run that is at rest at its end does not need a larger bound. -/
theorem decoderRun_of_le {n m : Nat} (hr : phaseAtRest (decoderRun policy n d).d.state = true) (h : n ≤ m) :
    decoderRun policy m d = decoderRun policy n d := by
  induction n generalizing d m with
  | zero => exact decoderRun_atRest policy m hr
  | succ n ih =>
    obtain ⟨m, rfl⟩ := Nat.exists_eq_add_of_le' (Nat.one_le_of_lt h)
    by_cases hd : phaseAtRest d.state = true
    · rw [decoderRun_atRest policy _ hd, decoderRun_atRest policy _ hd]
    · have hd : phaseAtRest d.state = false := by simpa using hd
      rw [decoderRun_step n hd] at hr
      rw [decoderRun_step n hd, decoderRun_step m hd, ih hr (by omega)]

/-- Runs that are both at rest at their ends are the same, whatever their bounds. -/
theorem decoderRun_unique {n m : Nat} (hn : phaseAtRest (decoderRun policy n d).d.state = true)
    (hm : phaseAtRest (decoderRun policy m d).d.state = true) : decoderRun policy n d = decoderRun policy m d := by
  rcases le_total n m with h | h
  · exact (decoderRun_of_le hn h).symm
  · exact decoderRun_of_le hm h

/-- The run of a DRUN is at rest at its end (43_decoder.md R210). -/
theorem decoderRun_runBound_atRest (hd : phaseAtRest d.state = false) :
    phaseAtRest (decoderRun policy (runBound d) d).d.state = true := by
  obtain ⟨h, -⟩ | ⟨h, -⟩ := decoderRun_ends policy d hd (stepsLeft_lt_runBound d) <;> rw [h] <;> rfl

/-! ## DSTEPs one after the other -/

theorem execAll_cons {i : Instr} (h : exec i s = .next t) (is : List Instr) : execAll (i :: is) s = execAll is t := by
  rw [execAll, h]

/-- What DSTEPs or a DRUN leave of the run `o`: the decoder and the bytes on D_DOUT as the run says, the units P and U and
P_DOUT as they were. -/
structure Ran (s t : State) (o : StepOut) : Prop where
  d : t.d = o.d
  dDout : t.io.dDout = s.io.dDout ++ o.emitted
  p : t.p = s.p
  u : t.u = s.u
  pDout : t.io.pDout = s.io.pDout

theorem ran_decode (o : StepOut) (st : Status) (r : Value) : Ran s (((s.setD o.d).putD o.emitted).respond st r) o :=
  ⟨rfl, rfl, rfl, rfl, rfl⟩

/-- One run after the other. -/
theorem Ran.trans {o o' : StepOut} (h : Ran s s1 o) (h' : Ran s1 t o') (err : Option Err) :
    Ran s t { d := o'.d, emitted := o.emitted ++ o'.emitted, err := err } where
  d := h'.d
  dDout := by rw [h'.dDout, h.dDout, List.append_assoc]
  p := h'.p.trans h.p
  u := h'.u.trans h.u
  pDout := h'.pDout.trans h.pDout

/-- n DSTEPs that complete do what a run of at most n steps does: once at rest they change nothing more. -/
theorem execAll_dsteps {n : Nat} (h : execAll (List.replicate n .dstep) s = .next t) :
    Ran s t (decoderRun s.cfg.dupCodePolicy n s.d) := by
  induction n generalizing s with
  | zero =>
    obtain rfl : s = t := by simpa [execAll] using h
    exact ⟨rfl, by simp [decoderRun], rfl, rfl, rfl⟩
  | succ n ih =>
    rw [List.replicate_succ, execAll] at h
    split at h
    next s1 hx =>
      have hrest := ih h
      obtain ⟨hr, rfl⟩ | ⟨hr, o, rfl, -, rfl⟩ := execDstep_next hx
      · simp only [State.respond_d, State.respond_cfg, decoderRun_atRest _ _ hr] at hrest ⊢
        exact { hrest with }
      · rw [decoderRun_step n hr]
        exact (ran_decode _ _ _).trans hrest _
    next => cases h
    next => cases h

/-- A run that ends within its bound is that many DSTEPs or fewer, the last of which gives its status. -/
theorem exists_dsteps_of_run {k : Nat} (hr : phaseAtRest s.d.state = false) (hready : s.io.dReady = true)
    (hk : stepsLeft s.d < k) : ∃ n u, 1 ≤ n ∧ n ≤ k ∧ execAll (List.replicate n .dstep) s = .next u ∧
      Ran s u (decoderRun s.cfg.dupCodePolicy k s.d) ∧
      u.status = stepStatus (decoderRun s.cfg.dupCodePolicy k s.d) := by
  induction k generalizing s with
  | zero => omega
  | succ k ih =>
    have hx := exec_dstep hr rfl (.inr hready)
    rw [decoderRun_step k hr]
    by_cases hrest : phaseAtRest (decoderStep s.cfg.dupCodePolicy s.d).d.state = true
    · rw [decoderRun_atRest _ k hrest]
      refine ⟨1, _, le_rfl, by omega, execAll_cons hx [], ?_, ?_⟩
      · exact ⟨rfl, by simp, rfl, rfl, rfl⟩
      · simp [stepStatus]
    · cases he : (decoderStep s.cfg.dupCodePolicy s.d).err with
      | some e => exact absurd (by rw [decoderStep_err_state he]; rfl) hrest
      | none =>
        have hlt := stepsLeft_decreases _ s.d hr he
        obtain ⟨n, u, -, hn, hu, hran, hst⟩ := ih (s := ((s.setD (decoderStep s.cfg.dupCodePolicy s.d).d).putD
          (decoderStep s.cfg.dupCodePolicy s.d).emitted).respond _ _) (by simpa using hrest) hready (by simp; omega)
        refine ⟨n + 1, u, by omega, by omega, ?_, (ran_decode _ _ _).trans hran _, hst⟩
        rw [List.replicate_succ]
        exact (execAll_cons hx _).trans hu

/-! ## DRUN -/

/-- What a DRUN does in a running phase, by what its run does; D_DOUT must be drained for a symbol. -/
theorem exec_drun {o : StepOut} (hr : phaseAtRest s.d.state = false)
    (h : decoderRun s.cfg.dupCodePolicy (runBound s.d) s.d = o) (hready : o.emitted = [] ∨ s.io.dReady = true) :
    exec .drun s =
      .next (((s.setD o.d).putD o.emitted).respond (stepStatus o) (stepResult o (o.d.emit.setWidth 256))) := by
  subst h
  exact execDrun_ready hr hready

/-- A DRUN whose run, under any bound, fails without a symbol. -/
theorem exec_drun_fail {e : Err} {d : Decoder} {k : Nat} (hr : phaseAtRest s.d.state = false)
    (h : decoderRun s.cfg.dupCodePolicy k s.d = dFail e d) :
    exec .drun s = .next ((s.setD { d with state := .error, errk := errKind e, errs := errSub e }).respond
      (statusOf e) 0#256) := by
  have hend : phaseAtRest (decoderRun s.cfg.dupCodePolicy k s.d).d.state = true := by rw [h]; rfl
  have hx := exec_drun hr ((decoderRun_unique (decoderRun_runBound_atRest hr) hend).trans h) (.inl rfl)
  rwa [dFail_emitted, State.putD_nil] at hx

/-- What a DRUN in a running phase has done, if it completes. -/
theorem exec_drun_next (hr : phaseAtRest s.d.state = false) (h : exec .drun s = .next t) :
    ∃ o, decoderRun s.cfg.dupCodePolicy (runBound s.d) s.d = o ∧ (o.emitted = [] ∨ s.io.dReady = true) ∧
      t = ((s.setD o.d).putD o.emitted).respond (stepStatus o) (stepResult o (o.d.emit.setWidth 256)) := by
  obtain ⟨hrest, -⟩ | ⟨-, o, ho, hready, ht⟩ := execDrun_next h
  · rw [hr] at hrest
    cases hrest
  · exact ⟨o, ho.symm, hready, ht⟩

/-- Settles O44: the run within the bound of DRUN ends, and is as many DSTEPs as it has steps. -/
theorem drunEndsWithinBound : Obligations.DrunEndsWithinBound := by
  intro s hr hready
  have hends := decoderRun_ends s.cfg.dupCodePolicy s.d hr (stepsLeft_lt_runBound s.d)
  obtain ⟨n, u, h1, hn, hu, hran, hst⟩ := exists_dsteps_of_run hr hready (stepsLeft_lt_runBound s.d)
  have hx := execDrun_ready hr (.inr hready)
  refine ⟨n, _, u, h1, hn, hx, ?_, hu, hran.d, hran.dDout, hst⟩
  exact hends.imp And.left And.left

/-- Settles O45: both are runs at rest at their ends. -/
theorem dstepsReachWhatDrunReaches : Obligations.DstepsReachWhatDrunReaches := by
  intro n s t u hr hu hend hx
  have hsteps := execAll_dsteps hu
  obtain ⟨o, rfl, -, rfl⟩ := exec_drun_next hr hx
  have hrest : phaseAtRest (decoderRun s.cfg.dupCodePolicy n s.d).d.state = true := by
    rw [← hsteps.d]
    exact phaseAtRest_iff.mpr (.inr hend)
  rw [decoderRun_unique hrest (decoderRun_runBound_atRest hr)] at hsteps
  exact ⟨hsteps.d.symm, hsteps.dDout.symm, hsteps.p.symm, hsteps.u.symm, hsteps.pDout.symm⟩

/-- Settles O46: the run ends in DONE, where the invariant says that D_EMIT and |D_OUT| are D_TOTAL, or in ERROR with the
code of its error. -/
theorem drunOutputValidOnlyInDone : Obligations.DrunOutputValidOnlyInDone := by
  intro s t hinv hr hx
  have hd : DecoderInv s.cfg (decoderRun s.cfg.dupCodePolicy (runBound s.d) s.d).d :=
    decoderRun_keeps (fun _ => decoderStep_inv) _ hinv.decoder
  have hends := decoderRun_ends s.cfg.dupCodePolicy s.d hr (stepsLeft_lt_runBound s.d)
  obtain ⟨o, ho, -, rfl⟩ := exec_drun_next hr hx
  rw [ho] at hd hends
  obtain ⟨hdone, herr⟩ | ⟨herror, e, herr, hkind, hk, hs⟩ := hends
  · obtain ⟨hemit, -⟩ := hd.doneFull hdone
    have hst : stepStatus o = 0x0000#16 := by simp [stepStatus, herr, statusOk]
    have hres : stepResult o (o.d.emit.setWidth 256) = BitVec.ofNat 256 o.d.total.toNat := by
      rw [stepResult, herr, hemit, BitVec.ofNat_toNat]
    exact .inl ⟨hdone, by simpa [hemit] using hd.outCount, hst, by simp [hst, hres]⟩
  · have hst : stepStatus o = o.d.errs ++ 0x04#8 := by simp [stepStatus, herr, statusOf, hs, hkind]
    have hres : stepResult o (o.d.emit.setWidth 256) = 0#256 := by simp [stepResult, herr]
    exact .inr ⟨herror, hk.trans hkind, hst, by simp [hst, hres]⟩

/-! ## What a decode does not read -/

/-- The bits that the step of the phase reads (43_decoder.md R203 to R208). -/
def fieldWidth (d : Decoder) : Nat :=
  match d.state with
  | .hdrCount => 8
  | .hdrSym => 8
  | .hdrLen => 8
  | .hdrCode => d.curlen.toNat
  | .total => 32
  | .payload => 1
  | .idle => 0
  | .done => 0
  | .error => 0

/-- A step that does not fail has read its field. -/
theorem decoderStep_reads (h : phaseAtRest d.state = false) (he : (decoderStep policy d).err = none) :
    fieldWidth d ≤ bitsLeft d ∧ (decoderStep policy d).d.pos = d.pos + fieldWidth d := by
  unfold decoderStep at he ⊢
  unfold fieldWidth
  cases hs : d.state <;> simp only [hs] at he ⊢
  case hdrCount => obtain ⟨-, h⟩ | ⟨hl, -, h⟩ := stepHdrCount_cases d <;> simp_all
  case hdrSym => obtain ⟨-, h⟩ | ⟨hl, h⟩ := stepHdrSym_cases d <;> simp_all
  case hdrLen => obtain ⟨-, h⟩ | ⟨hl, -, h⟩ | ⟨hl, -, -, h⟩ := stepHdrLen_cases d <;> simp_all
  case hdrCode => obtain ⟨-, h⟩ | ⟨hl, -, h⟩ | ⟨hl, -, h⟩ := stepHdrCode_cases policy d <;> simp_all
  case total => obtain ⟨-, h⟩ | ⟨hl, -, h⟩ := stepTotal_cases d <;> simp_all
  case payload =>
    obtain ⟨-, h⟩ | ⟨hl, x, -, h⟩ | ⟨hl, -, -, h⟩ | ⟨hl, -, -, h⟩ := stepPayload_cases policy d <;> simp_all
  all_goals simp [hs, phaseAtRest] at h

/-- The same decoder on another blob. -/
def Decoder.setBuf (blob : List Byte) (d : Decoder) : Decoder := { d with buf := blob }

@[simp] theorem Decoder.setBuf_state (blob : List Byte) (d : Decoder) : (d.setBuf blob).state = d.state := rfl
@[simp] theorem Decoder.setBuf_curlen (blob : List Byte) (d : Decoder) : (d.setBuf blob).curlen = d.curlen := rfl
@[simp] theorem Decoder.setBuf_table (blob : List Byte) (d : Decoder) : (d.setBuf blob).table = d.table := rfl
@[simp] theorem Decoder.setBuf_scr (blob : List Byte) (d : Decoder) : (d.setBuf blob).scr = d.scr := rfl

/-- The same outcome of a step, on another blob. -/
def StepOut.setBuf (blob : List Byte) (o : StepOut) : StepOut := { o with d := o.d.setBuf blob }

@[simp] theorem StepOut.setBuf_d (blob : List Byte) (o : StepOut) : (o.setBuf blob).d = o.d.setBuf blob := rfl
@[simp] theorem StepOut.setBuf_err (blob : List Byte) (o : StepOut) : (o.setBuf blob).err = o.err := rfl

/-- The blob has, from bit address p to q, the bits of `buf`. -/
def SameBits (buf blob : List Byte) (p q : Nat) : Prop :=
  ∀ a, p ≤ a → a < q → a < 8 * blob.length ∧ bitAt blob a = bitAt buf a

theorem readBits_of_sameBits {buf blob : List Byte} {p w : Nat} (h : SameBits buf blob p (p + w)) :
    readBits blob p w = readBits buf p w := by
  apply List.ext_getElem?
  intro i
  by_cases hi : i < w
  · rw [getElem?_readBits _ _ hi, getElem?_readBits _ _ hi, (h (p + i) (by omega) (by omega)).2]
  · rw [List.getElem?_eq_none (by simpa using hi), List.getElem?_eq_none (by simpa using hi)]

theorem dRead_setBuf {blob : List Byte} {w : Nat} (h : SameBits d.buf blob d.pos (d.pos + w)) :
    dRead w (d.setBuf blob) = some (bitsVal (readBits d.buf d.pos w), { d with pos := d.pos + w }.setBuf blob) := by
  have hl : w ≤ 8 * blob.length - d.pos := by
    rcases Nat.eq_zero_or_pos w with rfl | hw
    · exact Nat.zero_le _
    · have := (h (d.pos + w - 1) (by omega) (by omega)).1
      omega
  rw [dRead_of_le hl]
  exact congrArg (fun s => some (bitsVal s, _)) (readBits_of_sameBits h)

/-- A step that finds its field does the same on every blob with the same field. -/
theorem decoderStep_setBuf {blob : List Byte} (hl : fieldWidth d ≤ bitsLeft d)
    (h : SameBits d.buf blob d.pos (d.pos + fieldWidth d)) : decoderStep policy (d.setBuf blob) =
      (decoderStep policy d).setBuf blob := by
  unfold fieldWidth at hl h
  unfold decoderStep
  rw [Decoder.setBuf_state]
  cases hs : d.state <;> simp only [hs] at hl h ⊢
  case hdrCount =>
    rw [stepHdrCount, stepHdrCount, dRead_setBuf h, dRead_of_le hl]
    generalize bitsVal (readBits d.buf d.pos 8) = v
    rfl
  case hdrSym =>
    rw [stepHdrSym, stepHdrSym, dRead_setBuf h, dRead_of_le hl]
    generalize bitsVal (readBits d.buf d.pos 8) = v
    rfl
  case hdrLen =>
    rw [stepHdrLen, stepHdrLen, dRead_setBuf h, dRead_of_le hl]
    generalize bitsVal (readBits d.buf d.pos 8) = v
    cases v <;> rfl
  case hdrCode =>
    rw [stepHdrCode, stepHdrCode, Decoder.setBuf_curlen, dRead_setBuf h, dRead_of_le hl]
    generalize bitsVal (readBits d.buf d.pos d.curlen.toNat) = v
    simp only [apply_ite (StepOut.setBuf blob)]
    rfl
  case total =>
    rw [stepTotal, stepTotal, dRead_setBuf h, dRead_of_le hl]
    generalize bitsVal (readBits d.buf d.pos 32) = v
    rfl
  case payload =>
    rw [stepPayload, stepPayload, dRead_setBuf h, dRead_of_le hl]
    generalize bitsVal (readBits d.buf d.pos 1) = v
    simp only [Decoder.setBuf_scr, Decoder.setBuf_table]
    cases lookup policy d.table (d.scr ++ bitsOf 1 v) with
    | some x => rfl
    | none =>
      simp only [apply_ite (StepOut.setBuf blob)]
      rfl
  all_goals rfl

/-- What holds of a decode that ends in DONE: of DONE itself, and of a step that does not fail with such a decode
behind it. -/
theorem decoderRun_done_induction {P : Decoder → StepOut → Prop} (hrest : ∀ d, d.state = .done → P d (dGoOn d))
    (hstep : ∀ d o, phaseAtRest d.state = false → (decoderStep policy d).err = none → P (decoderStep policy d).d o →
      P d { d := o.d, emitted := (decoderStep policy d).emitted ++ o.emitted, err := o.err })
    {k : Nat} (hk : (decoderRun policy k d).d.state = .done) : P d (decoderRun policy k d) := by
  induction k generalizing d with
  | zero => exact hrest d hk
  | succ k ih =>
    by_cases hd : phaseAtRest d.state = true
    · rw [decoderRun_atRest policy _ hd] at hk ⊢
      exact hrest d hk
    · have hd : phaseAtRest d.state = false := by simpa using hd
      cases he : (decoderStep policy d).err with
      | none =>
        rw [decoderRun_succ policy k hd he] at hk ⊢
        exact hstep d _ hd he (ih hk)
      | some e =>
        rw [decoderRun_succ_err policy k hd he, decoderStep_err_state he] at hk
        cases hk

/-- A decode from `d` to `o` reads only the bits between its two cursors: they are inside the blob, and on a blob with the
same bits there the decode is the same (43_decoder.md R215). -/
structure ReadsBetween (policy : DupCodePolicy) (d : Decoder) (o : StepOut) : Prop where
  le : d.pos ≤ o.d.pos
  inside : SameBits d.buf d.buf d.pos o.d.pos
  same : ∀ blob, SameBits d.buf blob d.pos o.d.pos →
    ∃ n, decoderRun policy n (d.setBuf blob) = o.setBuf blob

theorem readsBetween_rest (d : Decoder) : ReadsBetween policy d (dGoOn d) :=
  ⟨le_rfl, fun _ h1 h2 => absurd h2 h1.not_gt, fun _ _ => ⟨0, rfl⟩⟩

/-- One step more in front of a decode reads its field more. -/
theorem ReadsBetween.step {o : StepOut} (h : ReadsBetween policy (decoderStep policy d).d o)
    (hd : phaseAtRest d.state = false) (he : (decoderStep policy d).err = none) : ReadsBetween policy d
      { d := o.d, emitted := (decoderStep policy d).emitted ++ o.emitted, err := o.err } := by
  obtain ⟨hpos, hin, hsame⟩ := h
  obtain ⟨hl, hp⟩ := decoderStep_reads hd he
  rw [hp] at hpos hin hsame
  rw [decoderStep_buf] at hin hsame
  unfold bitsLeft at hl
  refine ⟨by simp only; omega, fun a h1 h2 => ⟨?_, rfl⟩, fun blob h => ?_⟩
  · rcases Nat.lt_or_ge a (d.pos + fieldWidth d) with hlt | hge
    · omega
    · exact (hin a hge h2).1
  · obtain ⟨n, hn⟩ := hsame blob fun a h1 h2 => h a (by omega) h2
    have hstep := decoderStep_setBuf (policy := policy) hl fun a h1 h2 => h a h1 (by simp only; omega)
    refine ⟨n + 1, ?_⟩
    rw [decoderRun_succ policy (d := d.setBuf blob) n hd (by rw [hstep, StepOut.setBuf_err, he]), hstep,
      StepOut.setBuf_d, hn]
    rfl

/-- A decode that ends in DONE reads only the bits between its two cursors. -/
theorem decoderRun_done {k : Nat} (hk : (decoderRun policy k d).d.state = .done) :
    ReadsBetween policy d (decoderRun policy k d) :=
  decoderRun_done_induction (fun d _ => readsBetween_rest d) (fun _ _ hd he ih => ih.step hd he) hk

theorem decoderRun_buf (k : Nat) : (decoderRun policy k d).d.buf = d.buf :=
  decoderRun_keeps (P := fun d' => d'.buf = d.buf) (fun d' h => (decoderStep_buf policy d').trans h) k rfl

/-- A DRUN that ends in DONE, on a blob with the same bits between the two cursors. -/
theorem exec_drun_setBuf {blob : List Byte} (hr : phaseAtRest s.d.state = false) (hx : exec .drun s = .next t)
    (hdone : t.d.state = .done) (h : SameBits s.d.buf blob s.d.pos t.d.pos) :
    exec .drun (s.setD (s.d.setBuf blob)) = .next (t.setD (t.d.setBuf blob)) := by
  obtain ⟨o, ho, hready, rfl⟩ := exec_drun_next hr hx
  have hreads := decoderRun_done (k := runBound s.d) (ho.symm ▸ hdone)
  rw [ho] at hreads
  obtain ⟨n, hn⟩ := hreads.same blob h
  have hatRest : phaseAtRest (decoderRun s.cfg.dupCodePolicy n (s.d.setBuf blob)).d.state = true := by
    rw [hn]
    exact phaseAtRest_iff.mpr (.inr (.inl hdone))
  have hrun : decoderRun s.cfg.dupCodePolicy (runBound (s.d.setBuf blob)) (s.d.setBuf blob) = o.setBuf blob :=
    (decoderRun_unique (decoderRun_runBound_atRest (d := s.d.setBuf blob) hr) hatRest).trans hn
  exact exec_drun (s := s.setD (s.d.setBuf blob)) hr hrun hready

theorem bitAt_of_getElem? {buf : List Byte} {a : Nat} {b : Bool}
    (h : (buf[a / 8]?).map (fun x => x.getLsbD (7 - a % 8)) = some b) : bitAt buf a = b := by
  obtain ⟨x, hx, rfl⟩ := Option.map_eq_some_iff.mp h
  rw [bitAt_eq, List.getD_eq_getElem?_getD, hx]
  rfl

/-- Settles O48: at rest nothing is read; a DRUN that ends in DONE reads only the bits between the two cursors, which are
inside its blob. -/
theorem trailingBytesNeverRead : Obligations.TrailingBytesNeverRead := by
  intro s t hx hdone bit
  by_cases hr : phaseAtRest s.d.state = true
  · rw [exec_atRest (.inr rfl) hr] at hx
    cases hx
    exact ⟨fun blob _ _ => exec_atRest (.inr rfl) hr, fun more => exec_atRest (.inr rfl) hr⟩
  · have hr : phaseAtRest s.d.state = false := by simpa using hr
    obtain ⟨o, rfl, -, ht⟩ := exec_drun_next hr hx
    have hd : t.d = (decoderRun s.cfg.dupCodePolicy (runBound s.d) s.d).d := by rw [ht]; rfl
    refine ⟨fun blob hlen hsame => exec_drun_setBuf hr hx hdone fun a h1 h2 => ⟨by omega, ?_⟩, fun more => ?_⟩
    · have hin := addressed_bit (buf := blob) (a := a) (by omega)
      exact (bitAt_of_getElem? ((hsame a h1 h2).symm.trans hin)).symm
    · rw [hd, decoderRun_buf, ← hd]
      refine exec_drun_setBuf hr hx hdone fun a h1 h2 => ?_
      rw [hd] at hdone h2
      obtain ⟨hlt, -⟩ := (decoderRun_done hdone).inside a h1 h2
      exact ⟨by rw [List.length_append]; omega, bitAt_append_left more hlt⟩

/-! ## One-symbol tables -/

/-- A PAYLOAD step whose string no code matches: the 256th bit fails (43_decoder.md R208). -/
theorem decoderStep_unmatched (hs : d.state = .payload) (hl : 1 ≤ bitsLeft d)
    (hno : lookup policy d.table (d.scr ++ [bitAt d.buf d.pos]) = none) : decoderStep policy d =
      if d.scr.length < 255 then dGoOn { d with pos := d.pos + 1, scr := d.scr ++ [bitAt d.buf d.pos] }
      else dFail .noMatch { d with pos := d.pos + 1, scr := d.scr ++ [bitAt d.buf d.pos] } := by
  rw [show decoderStep policy d = stepPayload policy d by rw [decoderStep, hs]]
  obtain ⟨h, -⟩ | ⟨-, x, hx, -⟩ | ⟨-, -, h255, h⟩ | ⟨-, -, h255, h⟩ := stepPayload_cases policy d
  · omega
  · cases hx.symm.trans hno
  · rw [if_neg (by omega), h]
  · rw [if_pos h255, h]

section Unmatched

variable (hs : d.state = .payload) (hscr : d.scr = [])
  (hno : ∀ j, 1 ≤ j → lookup policy d.table (readBits d.buf d.pos j) = none)

include hs hscr hno

/-- Bits that no code matches, up to 255, lengthen D_SCR (43_decoder.md R208). -/
theorem run_unmatched {n : Nat} (k : Nat) (hl : n ≤ bitsLeft d) (h255 : n ≤ 255) : decoderRun policy (k + n) d =
    decoderRun policy k { d with pos := d.pos + n, scr := readBits d.buf d.pos n } := by
  induction n generalizing k with
  | zero => simp [readBits, ← hscr]
  | succ n ih =>
    have hnext := hno (n + 1) (by omega)
    rw [readBits_add] at hnext
    have hstep := decoderStep_unmatched (policy := policy)
      (d := { d with pos := d.pos + n, scr := readBits d.buf d.pos n }) hs
      (by unfold bitsLeft at hl ⊢; simp only; omega) hnext
    rw [if_pos (by simp only [length_readBits]; omega)] at hstep
    rw [Nat.add_comm n, ← Nat.add_assoc, ih (k + 1) (by omega) (by omega), decoderRun_goOn k (by rw [hs]; rfl) hstep,
      Nat.add_comm 1, readBits_add]
    rfl

/-- With 256 bits or more that no code matches, a decode fails with NO_MATCH at the 256th. -/
theorem run_noMatch (k : Nat) (hl : 256 ≤ bitsLeft d) : decoderRun policy (k + 1 + 255) d =
    dFail .noMatch { d with pos := d.pos + 256, scr := readBits d.buf d.pos 256 } := by
  have hnext := hno (255 + 1) (by omega)
  rw [readBits_add] at hnext
  have hstep := decoderStep_unmatched (policy := policy)
    (d := { d with pos := d.pos + 255, scr := readBits d.buf d.pos 255 }) hs
    (by unfold bitsLeft at hl ⊢; simp only; omega) hnext
  rw [if_neg (by simp)] at hstep
  rw [run_unmatched hs hscr hno (k + 1) (by omega) le_rfl,
    decoderRun_succ_err policy k (by rw [hs]; rfl) (by rw [hstep]; rfl), hstep, readBits_add d.buf d.pos 255 1]
  rfl

/-- With fewer bits, none of them matched, it fails with PAYLOAD_EXHAUSTED at the end of the blob. -/
theorem run_exhausted (k : Nat) (hl : bitsLeft d ≤ 255) : decoderRun policy (k + 1 + bitsLeft d) d =
    dFail .payloadExhausted { d with pos := d.pos + bitsLeft d, scr := readBits d.buf d.pos (bitsLeft d) } := by
  have hstep : decoderStep policy { d with pos := d.pos + bitsLeft d, scr := readBits d.buf d.pos (bitsLeft d) } =
      dFail .payloadExhausted { d with pos := d.pos + bitsLeft d, scr := readBits d.buf d.pos (bitsLeft d) } := by
    simp only [decoderStep, hs]
    rw [stepPayload, dRead_none.mpr (by unfold bitsLeft; simp only; omega)]
  rw [run_unmatched hs hscr hno (k + 1) le_rfl hl,
    decoderRun_succ_err policy k (by rw [hs]; rfl) (by rw [hstep]; rfl), hstep]

end Unmatched

/-- The table of the one code "0" (43_decoder.md R216). -/
theorem lookup_oneSymbol (policy : DupCodePolicy) (x : Byte) (scr : Bits) :
    lookup policy [{ sym := x, len := 1, val := 0 }] scr = if scr = [false] then some x else none := by
  have hcode : entryMatches scr { sym := x, len := 1, val := 0 } = true ↔ scr = [false] := by
    have hzero : entryCode { sym := x, len := 1, val := 0 } = [false] := by simp [entryCode, bitsOf]
    rw [← entryCode_eq_iff (by simp [EntryInRange]), hzero, eq_comm]
  have h := lookup_concat (policy := policy) (table := []) (s := scr) (e := { sym := x, len := 1, val := 0 })
  simp only [List.nil_append, hcode] at h
  rw [h]
  cases policy <;> rfl

/-- Settles O49: behind a bit 1 no string is the code "0", so nothing matches until the 256th bit or the end. -/
theorem oneSymbolTableDecodes : Obligations.OneSymbolTableDecodes := by
  refine ⟨lookup_oneSymbol, fun s x hs htable hscr hpos hbit => ?_⟩
  have hr : phaseAtRest s.d.state = false := by rw [hs]; rfl
  have hno (j : Nat) (hj : 1 ≤ j) : lookup s.cfg.dupCodePolicy s.d.table (readBits s.d.buf s.d.pos j) = none := by
    obtain ⟨j, rfl⟩ := Nat.exists_eq_add_of_le' hj
    rw [htable, lookup_oneSymbol, if_neg (by simp [readBits, hbit])]
  have hleft : bitsLeft s.d = 8 * s.d.buf.length - s.d.pos := rfl
  rcases Nat.lt_or_ge (bitsLeft s.d) 256 with hl | hl
  · refine ⟨_, exec_drun_fail hr (run_exhausted hs hscr hno 0 (by omega)), rfl, rfl, fun _ => by omega,
      fun _ => ⟨rfl, ?_, ?_⟩⟩
    · change s.d.pos + bitsLeft s.d = _
      omega
    · exact length_readBits _ _ _
  · refine ⟨_, exec_drun_fail hr (run_noMatch hs hscr hno 0 hl), rfl, rfl, fun _ => ⟨rfl, rfl, ?_⟩, fun _ => by omega⟩
    exact length_readBits _ _ _

end Runs

section Containers

variable {policy : DupCodePolicy} {d : Decoder} {s : State} {c : Container}

/-! ## The codes of a `PrefixFree` table -/

/-- Reading the bits of `code` one by one finds `x` at the last of them and nothing before. -/
structure Decodes (policy : DupCodePolicy) (table : List Entry) (code : Bits) (x : Byte) : Prop where
  nonempty : code ≠ []
  fits : code.length ≤ 255
  notBefore : ∀ j, 1 ≤ j → j < code.length → lookup policy table (code.take j) = none
  found : lookup policy table code = some x

/-- In a `PrefixFree` table an entry whose code begins another's code is that entry. -/
theorem PrefixFree.eq_of_prefix {es : List Entry} (h : PrefixFree es) {a b : Entry} (ha : a ∈ es) (hb : b ∈ es)
    (hp : entryCode a <+: entryCode b) : a = b := by
  have : Std.Symm fun a b => ¬ entryCode a <+: entryCode b ∧ ¬ entryCode b <+: entryCode a := ⟨fun _ _ hab => hab.symm⟩
  by_contra hne
  exact (List.Pairwise.forall h ha hb hne).1 hp

theorem PrefixFree.codesDistinct {es : List Entry} (h : PrefixFree es) :
    es.Pairwise fun a b => ¬ (a.len = b.len ∧ a.val = b.val) :=
  h.imp fun hab heq => hab.1 (by rw [entryCode, entryCode, heq.1, heq.2])

/-- An entry of a `PrefixFree` table is decoded from its code, under each policy (43_decoder.md R212, R213). -/
theorem decodes_entryCode {es : List Entry} (hr : ∀ e ∈ es, EntryInRange e) (h : PrefixFree es) {e : Entry}
    (he : e ∈ es) : Decodes policy es (entryCode e) e.sym := by
  have hlen : (entryCode e).length = e.len := length_bitsOf _ _
  obtain ⟨⟨hpos, hmax⟩, -⟩ := hr e he
  have honly {a : Entry} {j : Nat} (ha : a ∈ es) (hm : entryMatches ((entryCode e).take j) a = true) :
      a = e ∧ entryCode a = (entryCode e).take j := by
    have hcode := (entryCode_eq_iff (hr a ha)).mpr hm
    exact ⟨h.eq_of_prefix ha he (hcode ▸ List.take_prefix _ _), hcode⟩
  refine ⟨fun hn => ?_, by omega, fun j _ hj => lookup_eq_none.mpr fun a ha => ?_, ?_⟩
  · rw [hn, List.length_nil] at hlen
    omega
  · by_contra hm
    obtain ⟨rfl, hcode⟩ := honly ha (by simpa using hm)
    have hl := congrArg List.length hcode
    rw [List.length_take] at hl
    omega
  · have hself := (entryCode_eq_iff (hr e he)).mp rfl
    cases hx : lookup policy es (entryCode e) with
    | none => exact absurd hself (by simp [lookup_eq_none.mp hx e he])
    | some x =>
      obtain ⟨a, ha, hm, rfl⟩ := exists_of_lookup hx
      obtain ⟨rfl, -⟩ := honly (j := e.len) ha (by rwa [List.take_of_length_le hlen.le])
      rfl

/-- The code that the payload uses for a coded symbol is that of an entry with this symbol. -/
theorem codeOf_coded (hc : ContainerInRange c) {x : Byte} (hx : x ∈ c.symbols) :
    ∃ e ∈ c.entries, codeOf c.entries x = some (entryCode e) ∧ e.sym = x := by
  obtain ⟨e0, he0, rfl⟩ := hc.coded x hx
  cases h : c.entries.find? (fun e => e.sym == e0.sym) with
  | none => simpa using List.find?_eq_none.mp h e0 he0
  | some e => exact ⟨e, List.mem_of_find?_eq_some h, by rw [codeOf, h]; rfl, by simpa using List.find?_some h⟩

/-! ## The run over a container -/

/-- The step over symbol_count_minus_1 (43_decoder.md R203). -/
theorem decoderStep_count {n : Nat} (hs : d.state = .hdrCount) (ha : Ahead d (bitsOf 8 (n - 1)))
    (hn : 1 ≤ n ∧ n ≤ 256) : decoderStep policy d =
      dGoOn { d with pos := d.pos + 8, nsym := n, entry := 0, table := [], state := .hdrSym } := by
  obtain ⟨hl, hv⟩ := ha.val (by omega)
  simp only [decoderStep, hs]
  obtain ⟨h, -⟩ | ⟨-, -, h⟩ := stepHdrCount_cases d
  · omega
  · rw [h, hv, Nat.sub_add_cancel hn.1]

/-- The step over total_symbols (43_decoder.md R207). -/
theorem decoderStep_total {n : Nat} (hs : d.state = .total) (ha : Ahead d (bitsOf 32 n)) (hn : n < 2 ^ 32) :
    decoderStep policy d = dGoOn { d with
      pos := d.pos + 32, total := BitVec.ofNat 32 n, emit := 0#32, scr := []
      state := if n = 0 then .done else .payload } := by
  obtain ⟨hl, hv⟩ := ha.val hn
  simp only [decoderStep, hs]
  obtain ⟨h, -⟩ | ⟨-, -, h⟩ := stepTotal_cases d
  · omega
  · rw [h, hv]

/-- The steps over the codes of the symbols that are still to come emit them all and end in DONE. -/
theorem run_codes {code : Byte → Bits} {xs : List Byte} (k : Nat)
    (hs : d.state = if d.emit = d.total then .done else .payload) (hscr : d.scr = []) (ha : Ahead d (xs.flatMap code))
    (hx : ∀ x ∈ xs, Decodes policy d.table (code x) x) (hn : d.emit.toNat + xs.length = d.total.toNat) :
    decoderRun policy (k + (xs.flatMap code).length) d =
      { d := { d with
          pos := d.pos + (xs.flatMap code).length, out := d.out ++ xs, emit := d.total, state := .done }
        emitted := xs, err := none } := by
  induction xs generalizing d with
  | nil =>
    have hemit : d.emit = d.total := BitVec.eq_of_toNat_eq hn
    rw [if_pos hemit] at hs
    rw [decoderRun_atRest policy _ (by rw [hs]; rfl)]
    cases d
    simp_all [dGoOn]
  | cons x xs ih =>
    obtain ⟨hx1, hxs⟩ := List.forall_mem_cons.mp hx
    rw [List.flatMap_cons] at ha ⊢
    rw [List.length_cons] at hn
    rw [if_neg (by bv_omega)] at hs
    have hrun := run_code (policy := policy) (d := d) (x := x) (k + (xs.flatMap code).length) hx1.nonempty hs ha.left
      (by simpa [hscr] using hx1.fits) (by simpa [hscr] using hx1.notBefore) (by simpa [hscr] using hx1.found)
    have hrest := ih (d := { d with
      pos := d.pos + (code x).length, out := d.out ++ [x], emit := d.emit + 1#32, scr := []
      state := if d.emit + 1#32 = d.total then .done else .payload }) rfl rfl (ha.right rfl rfl) hxs (by simp; bv_omega)
    rw [List.length_append, Nat.add_comm (code x).length, ← Nat.add_assoc, hrun, hrest]
    simp [hscr, Nat.add_assoc, Nat.add_comm (code x).length]

/-- A decoder that has read the header of a container, with its payload ahead (43_decoder.md R207). -/
structure HeaderRead (c : Container) (d : Decoder) : Prop where
  state : d.state = if d.emit = d.total then .done else .payload
  pos : d.pos = (headerBits c).length
  table : d.table = c.entries
  total : d.total = BitVec.ofNat 32 c.symbols.length
  emit : d.emit = 0#32
  scr : d.scr = []
  out : d.out = []
  ahead : Ahead d (payloadBits c)

/-- The run over the header of a `PrefixFree` table: the count, three steps per entry, the total. -/
theorem run_header (k : Nat) (hc : ContainerInRange c) (hp : PrefixFree c.entries) :
    ∃ d, decoderRun policy (k + 1 + 3 * c.entries.length + 1) (freshDecoder (containerBytes c)) =
      decoderRun policy k d ∧ HeaderRead c d := by
  have hall : Ahead (freshDecoder (containerBytes c)) (headerBits c ++ payloadBits c) := ahead_bytes rfl rfl
  have hcount := decoderStep_count (policy := policy) rfl hall.left.left.left hc.count
  obtain ⟨x, l, hentries⟩ := run_entries (policy := policy) (es := c.entries) (d := { freshDecoder (containerBytes c) with
    pos := 8, nsym := c.entries.length, entry := 0, table := [], state := .hdrSym }) (k + 1)
    (List.length_pos_iff.mp hc.count.1) rfl (hall.left.left.right rfl (by simp [freshDecoder])) hc.entries
    (Nat.zero_add _) (fun _ => hp.codesDistinct)
  have htotal := decoderStep_total (policy := policy) (d := { freshDecoder (containerBytes c) with
    pos := 8 + (c.entries.flatMap entryBits).length, nsym := c.entries.length, cursym := x, curlen := l
    table := c.entries, entry := c.entries.length, state := .total }) rfl
    (hall.left.right rfl (by simp [freshDecoder])) hc.total
  have hzero : 0#32 = BitVec.ofNat 32 c.symbols.length ↔ c.symbols.length = 0 := by
    have := hc.total
    bv_omega
  refine ⟨_, (decoderRun_goOn _ rfl hcount).trans (hentries.trans (decoderRun_goOn k rfl htotal)), ?_⟩
  exact {
    state := by simp only [hzero]
    pos := by simp [headerBits]; omega
    table := rfl
    total := rfl
    emit := rfl
    scr := rfl
    out := rfl
    ahead := hall.right rfl (by simp [headerBits, freshDecoder]; omega) }

/-- DRUN's bound allows the run over a container: at most 770 steps over the header, and one over each bit of the payload
(43_decoder.md R210). -/
theorem containerSteps_le_runBound (hc : ContainerInRange c) :
    (payloadBits c).length + 1 + 3 * c.entries.length + 1 ≤ runBound (freshDecoder (containerBytes c)) := by
  have hlen := eight_mul_length_bytesOf_padBits (headerBits c ++ payloadBits c)
  obtain ⟨-, h256⟩ := hc.count
  rw [List.length_append] at hlen
  change _ ≤ 770 + 8 * (bytesOf (padBits (headerBits c ++ payloadBits c))).length
  omega

/-- The run of DRUN over the blob of a `PrefixFree` table ends in DONE with the container's symbols (43_decoder.md R211). -/
theorem run_container (hc : ContainerInRange c) (hp : PrefixFree c.entries) :
    ∃ o, decoderRun policy (runBound (freshDecoder (containerBytes c))) (freshDecoder (containerBytes c)) = o ∧
      o.emitted = c.symbols ∧ o.err = none ∧ o.d.state = .done ∧ o.d.out = c.symbols ∧ o.d.table = c.entries ∧
      o.d.pos = (headerBits c).length + (payloadBits c).length ∧ o.d.emit = BitVec.ofNat 32 c.symbols.length := by
  obtain ⟨k, hk⟩ := Nat.exists_eq_add_of_le' (containerSteps_le_runBound hc)
  obtain ⟨d, hrun, hd⟩ := run_header (policy := policy) (k + (payloadBits c).length) hc hp
  have hcodes : ∀ x ∈ c.symbols, Decodes policy d.table ((codeOf c.entries x).getD []) x := fun x hx => by
    obtain ⟨e, he, hcode, rfl⟩ := codeOf_coded hc hx
    rw [hd.table, hcode]
    exact decodes_entryCode hc.entries hp he
  have hn : d.emit.toNat + c.symbols.length = d.total.toNat := by
    rw [hd.emit, hd.total, BitVec.toNat_ofNat, BitVec.toNat_ofNat, Nat.mod_eq_of_lt hc.total]
    exact Nat.zero_add _
  have hpayload := run_codes k hd.state hd.scr hd.ahead hcodes hn
  simp only [hk, ← Nat.add_assoc]
  refine ⟨_, hrun.trans hpayload, rfl, rfl, rfl, ?_, hd.table, ?_, hd.total⟩
  · simp [hd.out]
  · simp [hd.pos, payloadBits]

/-- A DLOAD within the capacity, its count within 32 bits, leaves the blob at the start of its decode
(43_decoder.md R201). -/
theorem runTransaction_dload_fits (hc : s.PortsClear) {bytes : List Byte} (h32 : bytes.length < 2 ^ 32)
    (hcap : bytes.length ≤ s.cfg.dCapBytes) :
    ∃ t, runTransaction (dloadTransaction bytes) s = .next t ∧ t.PortsClear ∧ t.d = freshDecoder bytes ∧
      t.io.dReady = s.io.dReady ∧ t.io.dDout = s.io.dDout ∧ t.io.resp = s.io.resp ++ [⟨statusOk, 0#256⟩] := by
  have hn : (BitVec.ofNat 32 bytes.length).toNat = bytes.length := Nat.mod_eq_of_lt h32
  rw [runTransaction_dload hc h32, execDload_of_operands rfl (by simp [hn])]
  simp only [hn]
  rw [if_neg (by simpa using hcap)]
  obtain ⟨hv, -, hu, -⟩ := hc
  exact ⟨_, rfl, ⟨hv, rfl, hu, by simp⟩, by simp, rfl, rfl, rfl⟩

/-- Settles O55: DLOAD starts a fresh decode of the blob (`runTransaction_dload_fits`), and the run of DRUN reads the
header (`run_header`) and then the codes, each at its own last bit (`run_codes`, `decodes_entryCode`). -/
theorem containerDecodesToItsSymbols : Obligations.ContainerDecodesToItsSymbols := by
  intro c s hc hp b h32 hcap hclear hready
  obtain ⟨s1, hload, hclear1, hd1, hready1, hout1, hresp1⟩ := runTransaction_dload_fits hclear h32 hcap
  obtain ⟨o, hrun, hemitted, herr, hstate, hout, htable, hpos, hemit⟩ :=
    run_container (policy := s1.cfg.dupCodePolicy) hc hp
  have hdrun := execDrun_ready (s := s1) (by rw [hd1]; rfl) (.inr (hready1.trans hready))
  rw [hd1, hrun] at hdrun
  refine ⟨_, (runAll_cons hload _).trans (runAll_cons ((runTransaction_drun hclear1).trans hdrun) []), ?_⟩
  have hr : (BitVec.ofNat 32 c.symbols.length).setWidth 256 = BitVec.ofNat 256 c.symbols.length := by
    have h32 := hc.total
    apply BitVec.eq_of_toNat_eq
    rw [BitVec.toNat_setWidth, BitVec.toNat_ofNat, BitVec.toNat_ofNat, Nat.mod_eq_of_lt h32]
  have hst : stepStatus o = 0x0000#16 := by simp [stepStatus, herr, statusOk]
  have hres : stepResult o (o.d.emit.setWidth 256) = BitVec.ofNat 256 c.symbols.length := by
    simp [stepResult, herr, hemit, hr]
  refine ⟨hst, hstate, hout, ?_, htable, ?_, ?_⟩
  · simp [hout1, hemitted]
  · simpa [length_headerBits] using hpos
  · simp [hresp1, hst, hres, statusOk]

end Containers

end Sys2Proof.Machine
end

section
/-! Proofs of the statements about 44_control.md. -/

namespace Sys2Proof.Machine

/-! ## NOP -/

/-- Settles O21: the command is its response; a word that does not match its row has no operand to drop. -/
theorem nopSetsStatusOk : Obligations.NopSetsStatusOk := by
  refine fun s => ⟨rfl, fun c hc hopc hbad => ?_⟩
  have ho : opcodeOf (fieldOpc c) = some .nop := opcodeOf_eq.mpr hopc
  exact runWord_plain_of_not_matches hc ho (fun hm => hbad (extract24_of_matches ho hm (by decide))) (by decide)

/-! ## RDREG -/

section ReadRegister

variable {s : State} {reg : Nat}

/-- RDREG of an index in the map (44_control.md R262). -/
theorem exec_rdreg_mapped (x : Reg) (h : regOfIndex reg = some x) :
    exec (.rdreg reg) s = .next (s.respond 0x0000#16 ((readReg s x).setWidth 256)) := by
  rw [exec, execRdreg, h]
  rfl

/-- The 32-bit value of a register stands on R as the same natural (10_state.md R31). -/
theorem exec_rdreg_toNat (x : Reg) {n : Nat} (h : regOfIndex reg = some x) (hn : (readReg s x).toNat = n) :
    exec (.rdreg reg) s = .next (s.respond 0x0000#16 (BitVec.ofNat 256 n)) := by
  rw [exec_rdreg_mapped x h, ← hn, BitVec.ofNat_toNat]

/-- RDREG of a register that shows a natural of the state: R is that natural, where it fits the register's 32 bits. -/
theorem exec_rdreg_ofNat (x : Reg) {n : Nat} (h : regOfIndex reg = some x) (hx : readReg s x = BitVec.ofNat 32 n)
    (hn : n < 2 ^ 32) : exec (.rdreg reg) s = .next (s.respond 0x0000#16 (BitVec.ofNat 256 n)) :=
  exec_rdreg_toNat x h (by rw [hx, BitVec.toNat_ofNat, Nat.mod_eq_of_lt hn])

/-- RDREG STATUS, whose 16 bits stand zero-extended on R (44_control.md R263). -/
theorem exec_rdreg_status : exec (.rdreg 1) s = .next (s.respond 0x0000#16 (s.status.setWidth 256)) := by
  rw [exec_rdreg_mapped .status rfl, readReg, BitVec.setWidth_setWidth (by omega)]

/-- From 0x10 on the indices are reserved (10_state.md R31). -/
theorem regOfIndex_of_ge (h : 0x10 ≤ reg) : regOfIndex reg = none := by
  obtain ⟨k, rfl⟩ := Nat.exists_eq_add_of_le' h
  rfl

theorem exec_rdreg_reserved (h : 0x10 ≤ reg) : exec (.rdreg reg) s = .next (s.respond 0x0305#16 0#256) := by
  rw [exec, execRdreg, regOfIndex_of_ge h]
  rfl

/-- Fields written one after the other, as a number. -/
theorem toNat_append_eq_add {m n : Nat} (x : BitVec m) (y : BitVec n) :
    (x ++ y).toNat = x.toNat * 2 ^ n + y.toNat := by
  rw [BitVec.toNat_append, ← Nat.shiftLeft_add_eq_or_of_lt y.isLt, Nat.shiftLeft_eq]

/-- D_STAT as the sum of its fields, each at its place (10_state.md R31). -/
theorem toNat_dStatWord (d : Decoder) :
    (dStatWord d).toNat = (phaseCode d.state).toNat + 2 ^ 8 * d.errk.toNat + 2 ^ 16 * d.errs.toNat := by
  simp only [dStatWord, toNat_append_eq_add, BitVec.toNat_ofNat]
  omega

/-- Settles O22: each index gives its register (`exec_rdreg_toNat`), and in a legal state every count, cursor and
capacity fits 32 bits (`exec_rdreg_ofNat`); a word with W or RSV bad does not match its row. -/
theorem rdregReadsRegisterMap : Obligations.RdregReadsRegisterMap := by
  intro s hs code reads
  obtain ⟨⟨⟨-, hpCap⟩, ⟨-, huCap⟩, -, hdCap⟩, hpLen, huLen, huPos, hd, -, -, -⟩ := hs
  have hdLen := hd.bufFits
  have hdPos := hd.posInside
  have hnsym := hd.nsymBound
  have hentry := hd.entryBound
  have hscr := hd.scrBound
  have hcode : (phaseCode s.d.state).toNat = code s.d.state := by cases s.d.state <;> rfl
  refine ⟨⟨?id, ?status, ?pLen, ?uLen, ?uPos, ?dStat, ?dNsym, ?dEntry, ?dTotal, ?dEmit, ?dLen, ?dPos, ?dScrlen,
    ?pCap, ?uCap, ?dCap⟩, fun reg hreg _ => exec_rdreg_reserved hreg, fun c hc hopc hbad => ?badField⟩
  case id => exact exec_rdreg_toNat .id rfl rfl
  case status => exact exec_rdreg_toNat .status rfl (BitVec.toNat_setWidth_of_le (by decide))
  case pLen => exact exec_rdreg_ofNat .pLen rfl rfl (by omega)
  case uLen => exact exec_rdreg_ofNat .uLen rfl rfl (by omega)
  case uPos => exact exec_rdreg_ofNat .uPos rfl rfl (by omega)
  case dStat => exact exec_rdreg_toNat .dStat rfl (by rw [readReg, toNat_dStatWord, hcode])
  case dNsym => exact exec_rdreg_ofNat .dNsym rfl rfl (by omega)
  case dEntry => exact exec_rdreg_ofNat .dEntry rfl rfl (by omega)
  case dTotal => exact exec_rdreg_toNat .dTotal rfl rfl
  case dEmit => exact exec_rdreg_toNat .dEmit rfl rfl
  case dLen => exact exec_rdreg_ofNat .dLen rfl rfl (by omega)
  case dPos => exact exec_rdreg_ofNat .dPos rfl rfl (by omega)
  case dScrlen => exact exec_rdreg_ofNat .dScrlen rfl rfl (by omega)
  case pCap => exact exec_rdreg_ofNat .pCap rfl rfl hpCap
  case uCap => exact exec_rdreg_ofNat .uCap rfl rfl (by omega)
  case dCap => exact exec_rdreg_ofNat .dCap rfl rfl (by omega)
  case badField =>
    have ho : opcodeOf (fieldOpc c) = some .rdreg := opcodeOf_eq.mpr hopc
    refine runWord_plain_of_not_matches hc ho (fun hm => ?_) (by decide)
    obtain ⟨hrsv, (hw : _ ∨ _ ∨ c.extractLsb' 16 8 = 0#8), -⟩ := (matches_iff ho).mp hm
    exact hbad.elim (fun h => h (by simpa using hw)) (fun h => h hrsv)

/-- Settles O23: each RDREG STATUS reads what the command before it wrote (`exec_rdreg_status`). -/
theorem rdregStatusReadsStatusBefore : Obligations.RdregStatusReadsStatusBefore := by
  refine fun s => ⟨?_, fun reg hreg => ?_⟩
  · rw [execAll_cons exec_rdreg_status, execAll_cons exec_rdreg_status]
    rfl
  · rw [execAll_cons (exec_rdreg_reserved hreg), execAll_cons exec_rdreg_status]
    rfl

end ReadRegister

end Sys2Proof.Machine
end

section
/-! Proofs of the statements about 60_exceptions.md. -/

namespace Sys2Proof.Machine

/-! ## Every word that completes -/

/-- Settles O14: `runWord_completes`, whose response carries the status written. -/
theorem everyCommandResponds : Obligations.EveryCommandResponds := by
  intro c s t h
  obtain ⟨-, -, -, hst, r, hresp, hr⟩ := runWord_completes h
  exact ⟨⟨t.status, r⟩, hresp, rfl, hst, hr⟩

/-! ## Words that fail -/

section Failures

variable {s t : State} {i : Instr}

/-- What a word that fails outside a decoder step leaves: the parameters, the units and the bytes emitted
(60_exceptions.md R285). -/
structure KeepsUnits (s t : State) : Prop where
  cfg : t.cfg = s.cfg
  p : t.p = s.p
  u : t.u = s.u
  d : t.d = s.d
  pDout : t.io.pDout = s.io.pDout
  dDout : t.io.dDout = s.io.dDout

/-- A word that is no command keeps the units. -/
theorem rejectWord_keepsUnits {c : Word} {x : Reject} (hc : decode c = .error x) (h : rejectWord x s = .next t) :
    KeepsUnits s t := by
  obtain ⟨e, rfl⟩ := rejectWord_next hc h
  obtain ⟨hcfg, hp, hu, hd, hpd, hdd, -⟩ := dropOperands_frame c s
  exact ⟨hcfg, hp, hu, hd, hpd, hdd⟩

/-- The status of a command that succeeded is OK. -/
theorem succeed_status {r : Value} (h : succeed r s = .next t) : t.status = statusOk := by
  rw [← succeed_next.mp h, State.respond_status]

/-- A command that makes no decoder step and fails has written nothing but operand ports and its response: every branch
that writes a unit ends with OK. -/
theorem exec_fails_keepsUnits (hi : ¬ (i = .dstep ∨ i = .drun)) (hx : exec i s = .next t)
    (hst : t.status ≠ statusOk) : KeepsUnits s t := by
  cases i with
  | nop => exact absurd (succeed_status hx) hst
  | sreset => exact absurd (succeed_status hx) hst
  | rdreg reg =>
    obtain ⟨st, r, rfl, -⟩ := execRdreg_next hx
    exact ⟨rfl, rfl, rfl, rfl, rfl, rfl⟩
  | pack w =>
    obtain ⟨v, q, -, ⟨e, rfl⟩ | ⟨-, -, rfl⟩⟩ := execPack_next hx
    · exact ⟨rfl, rfl, rfl, rfl, rfl, rfl⟩
    · exact absurd rfl hst
  | flush => exact absurd (execFlush_next hx ▸ rfl) hst
  | uload =>
    obtain ⟨n, q, -, -, ⟨e, rfl⟩ | ⟨-, rfl⟩⟩ := execUload_next hx
    · exact ⟨rfl, rfl, rfl, rfl, rfl, rfl⟩
    · exact absurd rfl hst
  | unpack w =>
    obtain ⟨e, rfl⟩ | ⟨-, r, rfl⟩ := execUnpack_next hx
    · exact ⟨rfl, rfl, rfl, rfl, rfl, rfl⟩
    · exact absurd rfl hst
  | isempty => exact absurd (succeed_status hx) hst
  | dload =>
    obtain ⟨n, q, -, -, ⟨e, rfl⟩ | ⟨-, rfl⟩⟩ := execDload_next hx
    · exact ⟨rfl, rfl, rfl, rfl, rfl, rfl⟩
    · exact absurd rfl hst
  | dstep => exact absurd (.inl rfl) hi
  | drun => exact absurd (.inr rfl) hi

/-- Decoder steps that fail end in ERROR, and D_ERRK and D_ERRS have their status, of KIND 0x04 (43_decoder.md R200). -/
def FailsInError (o : StepOut) : Prop :=
  stepStatus o ≠ statusOk → o.d.state = .error ∧ o.d.errk = 0x04#8 ∧ stepStatus o = o.d.errs ++ o.d.errk

theorem failsInError_of_ok {o : StepOut} (h : o.err = none) : FailsInError o := fun hst =>
  absurd (by rw [stepStatus, h]) hst

theorem failsInError_of_error {o : StepOut} {e : Err} (he : o.err = some e) (hkind : errKind e = 0x04#8)
    (hs : o.d.state = .error) (hk : o.d.errk = errKind e) (hsub : o.d.errs = errSub e) : FailsInError o := fun _ =>
  ⟨hs, hk.trans hkind, by simp [stepStatus, he, hk, hsub, statusOf]⟩

theorem decoderStep_failsInError (policy : DupCodePolicy) {d : Decoder} (hr : phaseAtRest d.state = false) :
    FailsInError (decoderStep policy d) := by
  obtain ⟨e, d1, ho, hkind, -⟩ | ⟨d1, w, -, hn, -⟩ := decoderStep_cases policy d hr
  · rw [ho]
    exact failsInError_of_error rfl hkind rfl rfl rfl
  · exact failsInError_of_ok hn

theorem decoderRun_failsInError (policy : DupCodePolicy) {d : Decoder} (hr : phaseAtRest d.state = false) :
    FailsInError (decoderRun policy (runBound d) d) := by
  obtain ⟨-, hn⟩ | ⟨hs, e, he, hkind, hk, hsub⟩ := decoderRun_ends policy d hr (stepsLeft_lt_runBound d)
  · exact failsInError_of_ok hn
  · exact failsInError_of_error he hkind hs hk hsub

/-- DSTEP and DRUN fail with BAD_STATE, or write the outcome of steps that fail in ERROR. -/
theorem execDecode_outcome (hi : i = .dstep ∨ i = .drun) (hx : exec i s = .next t) :
    t = s.respond (statusOf .badState) 0#256 ∨ phaseAtRest s.d.state = false ∧ ∃ o r, FailsInError o ∧
      t = ((s.setD o.d).putD o.emitted).respond (stepStatus o) r := by
  rcases hi with rfl | rfl
  · obtain ⟨-, ht⟩ | ⟨hr, o, rfl, -, ht⟩ := execDstep_next hx
    · exact .inl ht
    · exact .inr ⟨hr, _, _, decoderStep_failsInError _ hr, ht⟩
  · obtain ⟨-, ht⟩ | ⟨hr, o, rfl, -, ht⟩ := execDrun_next hx
    · exact .inl ht
    · exact .inr ⟨hr, _, _, decoderRun_failsInError _ hr, ht⟩

/-- Settles O15: a malformed word and a failing command without a decoder step keep every unit; DSTEP and DRUN do so at
rest, and otherwise write the decoder in ERROR and the symbols emitted before. -/
theorem failureChangesOnlyStatus : Obligations.FailureChangesOnlyStatus := by
  intro c s t h hst
  obtain ⟨i, hdec, hx⟩ | ⟨x, hdec, hx⟩ := (runWord_next h).2
  · by_cases hi : i = .dstep ∨ i = .drun
    · obtain rfl | ⟨hr, o, r, hfail, rfl⟩ := execDecode_outcome hi hx
      · exact ⟨rfl, rfl, rfl, rfl, .inl ⟨rfl, rfl⟩⟩
      · obtain ⟨hs, hk, ho⟩ := hfail hst
        have hword : decode c = .ok .dstep ∨ decode c = .ok .drun := by rcases hi with rfl | rfl <;> simp [hdec]
        exact ⟨rfl, rfl, rfl, rfl, .inr ⟨hword, hr, hs, hk, ho⟩⟩
    · obtain ⟨hc, hp, hu, hd, hpd, hdd⟩ := exec_fails_keepsUnits hi hx hst
      exact ⟨hp, hu, hc, hpd, .inl ⟨hd, hdd⟩⟩
  · obtain ⟨hc, hp, hu, hd, hpd, hdd⟩ := rejectWord_keepsUnits hdec hx
    exact ⟨hp, hu, hc, hpd, .inl ⟨hd, hdd⟩⟩

end Failures

/-! ## After a failure -/

/-- Settles O16: the commands of the other units leave the decoder alone (`unitsAreIsolated`), and in ERROR a decoder
step is refused. -/
theorem errorPersistsUntilLoadOrReset : Obligations.ErrorPersistsUntilLoadOrReset := by
  intro s herr
  have hrest : phaseAtRest s.d.state = true := phaseAtRest_iff.mpr (.inr (.inr herr))
  refine ⟨fun i t hload hreset hx => ?_, exec_atRest (.inl rfl) hrest, exec_atRest (.inr rfl) hrest⟩
  obtain ⟨hpacker, hunpacker, -⟩ := unitsAreIsolated s t s.p s.u s.d
  have hrefused (hi : i = .dstep ∨ i = .drun) : t.d = s.d := by
    obtain rfl := Host.Outcome.next.inj ((exec_atRest hi hrest).symm.trans hx)
    rfl
  cases i with
  | nop => exact succeed_next.mp hx ▸ rfl
  | sreset => exact absurd rfl hreset
  | rdreg reg =>
    obtain ⟨st, r, rfl, -⟩ := execRdreg_next hx
    rfl
  | pack w => exact (hpacker _ (.inr ⟨w, rfl⟩) hx).2.1
  | flush => exact (hpacker _ (.inl rfl) hx).2.1
  | uload => exact (hunpacker _ (.inl rfl) hx).2.1
  | unpack w => exact (hunpacker _ (.inr (.inr ⟨w, rfl⟩)) hx).2.1
  | isempty => exact (hunpacker _ (.inr (.inl rfl)) hx).2.1
  | dload => exact absurd rfl hload
  | dstep => exact hrefused (.inl rfl)
  | drun => exact hrefused (.inr rfl)

/-! ## The next command -/

/-- STATUS stands at one index of the register map (10_state.md R31). -/
theorem regOfIndex_eq_status {reg : Nat} (h : regOfIndex reg = some .status) : reg = 1 := by
  unfold regOfIndex at h
  split at h <;> cases h
  rfl

/-- No other register shows STATUS. -/
theorem readReg_ignoresStatus {x : Reg} (hx : x ≠ .status) (s : State) (st : Status) :
    readReg { s with status := st } x = readReg s x := by
  cases x with
  | status => exact absurd rfl hx
  | _ => rfl

theorem execRdreg_ignoresStatus {reg : Nat} (h : reg ≠ 1) (s : State) (st : Status) :
    execRdreg reg { s with status := st } = execRdreg reg s := by
  unfold execRdreg
  cases hx : regOfIndex reg with
  | none => rfl
  | some x =>
    have hne : x ≠ .status := fun hn => h (regOfIndex_eq_status (hn ▸ hx))
    simp only [readReg_ignoresStatus hne]
    rfl

/-- Settles O17: the response overwrites STATUS, and what comes before it reads STATUS only in RDREG, through the register
map: every other command is, with its definition unfolded, the same from both states. -/
theorem nextCommandIgnoresStatus : Obligations.NextCommandIgnoresStatus := by
  intro i s st hi
  cases i with
  | rdreg reg => exact execRdreg_ignoresStatus (fun h => hi (h ▸ rfl)) s st
  | _ => rfl

end Sys2Proof.Machine
end

section
/-! Proofs of the statements about 70_reset_and_hazards.md. -/

namespace Sys2Proof.Machine

/-! ## Waiting and reset -/

section Reset

variable {s t : State} {o : Out} {port : Ports → List Byte}

/-- With an action at the command port a step takes it off and runs it. -/
theorem step_cons {a : HostAction} {q : List HostAction} (h : s.io.cmd = a :: q) :
    step s = runAction a (s.setCmd q) := by rw [step, h]

/-- Settles O7: the first arm of the step. -/
theorem waitsWithoutCommand : Obligations.WaitsWithoutCommand := by
  intro s h
  rw [step, h]

/-- Settles O8: both resets are `resetUnits`, which writes the values of 10_state.md R35. -/
theorem bothResetsRestoreResetState : Obligations.BothResetsRestoreResetState :=
  fun _ => ⟨fun _ h => step_cons h, rfl⟩

/-- A port after a command that takes nothing back: what stood there before, and behind it what the command added. -/
theorem append_newBytes (h : port s.io <+: port t.io) : port s.io ++ newBytes port (.next t) s = port t.io :=
  List.prefix_iff_eq_append.mp h

/-- The first bytes that a command adds, behind what stood on the port, are a beginning of what it leaves there uncut. -/
theorem append_take_newBytes_prefix (h : port s.io <+: port t.io) (n : Nat) :
    port s.io ++ (newBytes port (.next t) s).take n <+: port t.io := by
  conv_rhs => rw [← append_newBytes h]
  exact (List.prefix_append_right_inj _).mpr (List.take_prefix _ _)

/-- A command that does not complete has added nothing. -/
theorem newBytes_of_stuck (h : ∀ t, o ≠ .next t) : newBytes port o s = [] := by
  cases o with
  | next t => exact absurd rfl (h t)
  | fault f => rfl
  | refused r => rfl

/-- Settles O9: the cut step is `cutByReset` of the uncut one, which puts on each output port a beginning of its
`newBytes`. -/
theorem resetCutsTransaction : Obligations.ResetCutsTransaction := by
  intro s x q hq hs uncut
  have hcut : step s = .next ((s.setCmd q).cutByReset uncut) := by
    rw [step_cons hq, runAction, surplusOperands_setCmd, hs]
    rfl
  obtain ⟨hst, hp, hu, hd, hcfg, -, hio⟩ := cutByReset_fields uncut (s.setCmd q)
  refine ⟨_, hcut, hst, hp, hu, hd, hcfg, ?_⟩
  rw [hio]
  refine ⟨rfl, rfl, rfl, rfl, rfl, rfl, List.prefix_append _ _, List.prefix_append _ _, fun u hx => ?_,
    fun hstuck => ?_⟩
  · have hdone : Completes ((s.setCmd q).present x) u := runWord_completes hx
    rw [hx]
    exact ⟨append_take_newBytes_prefix (port := Ports.pDout) hdone.pDout _,
      append_take_newBytes_prefix (port := Ports.dDout) hdone.dDout _⟩
  · simp [newBytes_of_stuck hstuck]

/-- Settles O11: the step runs the word of the transaction, which has exactly its operands (`runWord_of_presented`). -/
theorem completesWhenHostConforms : Obligations.CompletesWhenHostConforms := by
  intro s x q hq ⟨hp, hpReady, hdReady⟩
  rw [step_cons hq]
  exact runWord_of_presented (s := (s.setCmd q).present x) hp hpReady hdReady

end Reset

/-! ## Surplus operands -/

section Surplus

variable {s : State} {c : Word}

/-- On no operand port stands more than the OPC `opc` requires (30_encoding.md R96). -/
structure NoMoreThan (opc : BitVec 8) (s : State) : Prop where
  v : opc ≠ 0x10#8 → s.io.v = []
  vOne : s.io.v.length ≤ 1
  n : opc ≠ 0x20#8 → opc ≠ 0x30#8 → s.io.n = []
  nOne : s.io.n.length ≤ 1
  uDin : opc ≠ 0x20#8 → s.io.uDin = []
  dDin : opc ≠ 0x30#8 → s.io.dDin = []
  uCount : ∀ n ∈ s.io.n, opc = 0x20#8 → s.io.uDin.length ≤ n.toNat
  dCount : ∀ n ∈ s.io.n, opc = 0x30#8 → s.io.dDin.length ≤ n.toNat

theorem NoMoreThan.of_portsClear {opc : BitVec 8} (h : s.PortsClear) : NoMoreThan opc s := by
  obtain ⟨hv, hn, hu, hd⟩ := h
  constructor <;> simp [hv, hn, hu, hd]

/-- Of at most one count, each is the first. -/
theorem headD_eq_of_mem {q : List Word} (hq : q.length ≤ 1) {n : Word} (hn : n ∈ q) : q.headD 0#32 = n := by
  match q, hq with
  | [m], _ => exact (List.mem_singleton.mp hn).symm

/-- Where the model finds no surplus there is none. -/
theorem noMoreThan_of_not_surplus (h : surplusOperands c s = false) : NoMoreThan (fieldOpc c) s := by
  rw [surplusOperands_eq_false, dropOperands] at h
  cases ho : opcodeOf (fieldOpc c) with
  | none =>
    rw [ho] at h
    exact .of_portsClear h
  | some op =>
    rw [ho] at h
    rw [opcodeOf_eq.mp ho]
    cases op with
    | pack =>
      obtain ⟨hv, hn, hu, hd⟩ : s.io.v.length ≤ 1 ∧ s.io.n = [] ∧ s.io.uDin = [] ∧ s.io.dDin = [] := by
        simpa [State.PortsClear, -List.drop_one] using h
      constructor <;> simp [Opcode.opc, Opcode.pattern, hv, hn, hu, hd]
    | uload =>
      obtain ⟨hv, hn, hu, hd⟩ : s.io.v = [] ∧ s.io.n.length ≤ 1 ∧
          s.io.uDin.length ≤ (s.io.n.headD 0#32).toNat ∧ s.io.dDin = [] := by
        simpa [State.PortsClear, -List.drop_one, -List.headD_eq_head?_getD] using h
      have hcount (n : Word) (hm : n ∈ s.io.n) : s.io.uDin.length ≤ n.toNat := headD_eq_of_mem hn hm ▸ hu
      constructor <;> simp +contextual [Opcode.opc, Opcode.pattern, hv, hn, hd, hcount]
    | dload =>
      obtain ⟨hv, hn, hu, hd⟩ : s.io.v = [] ∧ s.io.n.length ≤ 1 ∧ s.io.uDin = [] ∧
          s.io.dDin.length ≤ (s.io.n.headD 0#32).toNat := by
        simpa [State.PortsClear, -List.drop_one, -List.headD_eq_head?_getD] using h
      have hcount (n : Word) (hm : n ∈ s.io.n) : s.io.dDin.length ≤ n.toNat := headD_eq_of_mem hn hm ▸ hd
      constructor <;> simp +contextual [Opcode.opc, Opcode.pattern, hv, hn, hu, hcount]
    | _ => exact .of_portsClear h

/-- Settles O60: where the model finds no surplus there is none on any port (`noMoreThan_of_not_surplus`), and it looks
before it runs a transaction or cuts it off. -/
theorem surplusOperandsStop : Obligations.SurplusOperandsStop := by
  unfold Obligations.SurplusOperandsStop
  intro more s
  have hmore (c : Word) (s : State) (hm : more c s) : surplusOperands c s = true := by
    by_contra hs
    have h := noMoreThan_of_not_surplus (by simpa using hs)
    obtain ⟨hop, hv⟩ | hv | ⟨hu, hd, hn⟩ | hn | ⟨hop, hu⟩ | ⟨hop, hd⟩ | ⟨n, hn, ⟨hop, hu⟩ | ⟨hop, hd⟩⟩ := hm
    · exact hv (h.v hop)
    · exact hv.not_ge h.vOne
    · exact hn (h.n hu hd)
    · exact hn.not_ge h.nOne
    · exact hu (h.uDin hop)
    · exact hd (h.dDin hop)
    · exact hu.not_ge (h.uCount n hn hop)
    · exact hd.not_ge (h.dCount n hn hop)
  refine ⟨fun c hm => runWord_surplus (hmore c s hm), fun x q hq hm => ?_⟩
  have hs : surplusOperands x.cmd ((s.setCmd q).present x) = true := by
    rw [surplusOperands_setCmd]
    exact hmore _ _ hm
  rcases hq with hq | hq
  · rw [step_cons hq]
    exact runWord_surplus hs
  · rw [step_cons hq]
    exact if_pos hs

end Surplus

/-! ## Missing operands and undrained ports -/

section Stuck

variable {s : State} {c : Word}

theorem takeV_nil {k : Value → State → Out} (h : s.io.v = []) : takeV s k = .fault .vNotPresented := by
  rw [takeV, h]

theorem takeN_nil {k : Word → State → Out} (h : s.io.n = []) : takeN s k = .fault .nNotPresented := by
  rw [takeN, h]

/-- An operand that the opcode requires is not on its port, and the name under which that stops (70_reset_and_hazards.md
R324, obligation 1). -/
inductive OperandMissing (s : State) : Opcode → Fault → Prop where
  | value (h : s.io.v = []) : OperandMissing s .pack .vNotPresented
  | uCount (h : s.io.n = []) : OperandMissing s .uload .nNotPresented
  | uBytes {n : Word} {q : List Word} (hn : s.io.n = n :: q) (h : s.io.uDin.length < n.toNat) :
      OperandMissing s .uload .uDinShort
  | dCount (h : s.io.n = []) : OperandMissing s .dload .nNotPresented
  | dBytes {n : Word} {q : List Word} (hn : s.io.n = n :: q) (h : s.io.dDin.length < n.toNat) :
      OperandMissing s .dload .dDinShort

theorem exec_of_missing {i : Instr} {f : Fault} (h : OperandMissing s (Laws.TableRow.row i) f) :
    exec i s = .fault f := by
  cases i with
  | pack w =>
    rw [exec, execPack]
    cases h with
    | value hv => exact takeV_nil hv
  | uload =>
    rw [exec, execUload]
    cases h with
    | uCount hn => exact takeN_nil hn
    | uBytes hn hl => exact (takeN_cons hn).trans (if_pos hl)
  | dload =>
    rw [exec, execDload]
    cases h with
    | dCount hn => exact takeN_nil hn
    | dBytes hn hl => exact (takeN_cons hn).trans (if_pos hl)
  | _ => cases h

theorem consumeOperands_of_missing {op : Opcode} {f : Fault} {k : State → Out} (h : OperandMissing s op f) :
    consumeOperands op s k = .fault f := by
  unfold consumeOperands
  cases h with
  | value hv => exact takeV_nil hv
  | uCount hn | dCount hn => exact takeN_nil hn
  | uBytes hn hl | dBytes hn hl => exact (takeN_cons hn).trans (if_pos hl)

/-- A word without its operands is stuck, malformed or not, if it has no surplus of others. -/
theorem runWord_of_missing {op : Opcode} {f : Fault} (h : OperandMissing s op f) (hopc : c.extractLsb' 24 8 = op.opc)
    (hs : (dropOperands c s).PortsClear) : runWord c s = .fault f := by
  rw [runWord_of_not_surplus (surplusOperands_eq_false.mpr hs)]
  have ho : opcodeOf (fieldOpc c) = some op := opcodeOf_eq.mpr hopc
  cases hd : decode c with
  | ok i =>
    obtain rfl : Laws.TableRow.row i = op := Option.some.inj ((opcodeOf_of_decode hd).symm.trans ho)
    exact exec_of_missing h
  | error e =>
    obtain ⟨-, hn⟩ | ⟨op', rfl, ho', -⟩ := decode_error hd
    · cases hn.symm.trans ho
    · obtain rfl : op' = op := Option.some.inj (ho'.symm.trans ho)
      exact consumeOperands_of_missing h

/-- Clear ports have no operand to drop. -/
theorem dropOperands_portsClear (h : s.PortsClear) : (dropOperands c s).PortsClear := by
  obtain ⟨hv, hn, hu, hd⟩ := h
  unfold dropOperands
  split <;> simp [State.PortsClear, *]

/-- A FLUSH of a buffer that is not empty is stuck on an undrained port (70_reset_and_hazards.md R324). -/
theorem exec_flush_undrained (hb : s.p.bits ≠ []) (h : s.io.pReady = false) :
    exec .flush s = .fault .pDoutNotDrained := by
  have hlen := eight_mul_length_bytesOf_padBits s.p.bits
  have hpos : 0 < s.p.bits.length := List.length_pos_iff.mpr hb
  have hbytes : bytesOf (padBits s.p.bits) ≠ [] := List.length_pos_iff.mp (by omega)
  exact if_pos ⟨hbytes, h⟩

theorem finishDecode_undrained {o : StepOut} {r : Value} (ho : o.emitted ≠ []) (h : s.io.dReady = false) :
    finishDecode o r s = .fault .dDoutNotDrained := if_pos ⟨ho, h⟩

/-- A DSTEP whose step has a symbol to emit is stuck on an undrained port (70_reset_and_hazards.md R324). -/
theorem exec_dstep_undrained (hr : phaseAtRest s.d.state = false)
    (ho : (decoderStep s.cfg.dupCodePolicy s.d).emitted ≠ []) (h : s.io.dReady = false) :
    exec .dstep s = .fault .dDoutNotDrained := by
  rw [exec, execDstep, hr]
  exact finishDecode_undrained ho h

/-- A DRUN whose run has a symbol to emit is stuck on an undrained port (70_reset_and_hazards.md R324). -/
theorem exec_drun_undrained (hr : phaseAtRest s.d.state = false)
    (ho : (decoderRun s.cfg.dupCodePolicy (runBound s.d) s.d).emitted ≠ []) (h : s.io.dReady = false) :
    exec .drun s = .fault .dDoutNotDrained := by
  rw [exec, execDrun, hr]
  exact finishDecode_undrained ho h

/-- What emits a symbol on a drained port is stuck on an undrained one. -/
theorem exec_decode_undrained {t : State} {i : Instr} (hi : i = .dstep ∨ i = .drun)
    (hx : exec i { s with io := { s.io with dReady := true } } = .next t) (ht : t.io.dDout ≠ s.io.dDout)
    (h : s.io.dReady = false) : exec i s = .fault .dDoutNotDrained := by
  rcases hi with rfl | rfl
  · obtain ⟨-, rfl⟩ | ⟨hr, o, rfl, -, rfl⟩ := execDstep_next hx
    · exact absurd rfl ht
    · exact exec_dstep_undrained hr (by simpa using ht) h
  · obtain ⟨-, rfl⟩ | ⟨hr, o, rfl, -, rfl⟩ := execDrun_next hx
    · exact absurd rfl ht
    · exact exec_drun_undrained hr (by simpa using ht) h

/-- A step in PAYLOAD that finds a symbol emits it (43_decoder.md R208). -/
theorem decoderStep_emits {policy : DupCodePolicy} {d : Decoder} {x : Byte} (hs : d.state = .payload)
    (hl : d.pos + 1 ≤ 8 * d.buf.length) (hx : lookup policy d.table (d.scr ++ [bitAt d.buf d.pos]) = some x) :
    (decoderStep policy d).emitted = [x] := by
  have hstep : decoderStep policy d = stepPayload policy d := by rw [decoderStep, hs]
  have hleft : 1 ≤ bitsLeft d := by unfold bitsLeft; omega
  rw [hstep]
  obtain ⟨hl, -⟩ | ⟨-, y, hy, h⟩ | ⟨-, hn, -⟩ | ⟨-, hn, -⟩ := stepPayload_cases policy d
  · omega
  · rw [h, Option.some.inj (hx.symm.trans hy)]
  · cases hx.symm.trans hn
  · cases hx.symm.trans hn

/-- Settles O12: each operand is taken, and each byte emitted, by an operation that stops under the name of its port; a
malformed word takes the same operands as its command (`runWord_of_missing`). -/
theorem stuckWhenHostBreaksObligation : Obligations.StuckWhenHostBreaksObligation := by
  intro s
  refine ⟨fun w hv => exec_of_missing (.value hv),
    fun hn => ⟨exec_of_missing (.uCount hn), exec_of_missing (.dCount hn)⟩,
    fun n q hn hl => exec_of_missing (.uBytes hn hl), fun n q hn hl => exec_of_missing (.dBytes hn hl),
    fun c hc => ?_, fun c n hv hn => ⟨fun hopc hu hd => ?_, fun hopc hd hu => ?_⟩, exec_flush_undrained,
    fun x hd hs hl hx => ?_, fun i t hi hx ht hd => exec_decode_undrained hi hx ht hd, fun x c q hq => step_cons hq⟩
  · have hdrop := dropOperands_portsClear (c := c) hc
    obtain ⟨hv, hn, -⟩ := hc
    refine ⟨fun hopc => runWord_of_missing (.value hv) hopc hdrop, ?_⟩
    rintro (hopc | hopc)
    · exact runWord_of_missing (.uCount hn) hopc hdrop
    · exact runWord_of_missing (.dCount hn) hopc hdrop
  · have ho : opcodeOf (fieldOpc c) = some .uload := opcodeOf_eq.mpr hopc
    have hdrop : (dropOperands c s).PortsClear := by simp [dropOperands, ho, State.PortsClear, hv, hn, hd, hu.le]
    exact runWord_of_missing (.uBytes hn hu) hopc hdrop
  · have ho : opcodeOf (fieldOpc c) = some .dload := opcodeOf_eq.mpr hopc
    have hdrop : (dropOperands c s).PortsClear := by simp [dropOperands, ho, State.PortsClear, hv, hn, hd.le, hu]
    exact runWord_of_missing (.dBytes hn hd) hopc hdrop
  · exact exec_dstep_undrained (by rw [hs]; rfl) (by simp [decoderStep_emits hs hl hx]) hd

end Stuck

end Sys2Proof.Machine
end
